-- ==== Sys2Proof/Word.lean ====
section
/-! DEFINITION. The machine's fixed widths: bytes of the arrays, 32-bit registers and host data words,
18-bit host byte addresses, 7-bit symbol codes (spec/10_state.md R24, R40 to R45; spec/20_memory.md R60).
-/

namespace Sys2Proof

/-- One byte of RAW, UNIT, TEXT, STAGE or REV (R40 to R43, R45). -/
abbrev Byte := BitVec 8

/-- A register, a command word, or the word one host transaction moves: `DATA_W = 32` (R24, R60, R90). -/
abbrev Word := BitVec 32

/-- A host byte address: `ADDR_W = 18` (R60). -/
abbrev HostAddr := BitVec 18

/-- An entry of the forward table FWD or of the ROM STD: 7 bits (R44, R48). -/
abbrev Code := BitVec 7

end Sys2Proof
end

