-- ==== Sys2Proof/Machine/HostSyntax.lean ====
section
/-! DEFINITION. The host's side of the port as data: transactions and responses (spec/20_memory.md R62;
spec/30_encoding.md R96), the base statements of a host program (R97), and the host agent (spec/00_scope.md R6).
The host is outside the block: what it holds here is the machine's INPUT, not architectural state (R22, R50).
-/

namespace Sys2Proof.Machine

/-- The two kinds of transaction: `R` and `W` (R62, R96). -/
inductive Kind where
  | read
  | write
deriving DecidableEq, Repr

/-- The response of a transaction (R62). -/
inductive Response where
  | okay
  | slverr
deriving DecidableEq, Repr

/-- A transaction as the triple `(kind, addr, data)`: `data` is the word written, or the word observed (R96). -/
structure Transaction where
  kind : Kind
  addr : HostAddr
  data : Word
deriving DecidableEq, Repr

/-- A transaction that has completed, with its response (R62). -/
structure Completed where
  trans : Transaction
  resp : Response
deriving DecidableEq, Repr

/-- The base statements of a host program, labels resolved to positions (R97). Names are numbers. -/
inductive HostStmt where
  /-- `wr ADDR, DATA`: one `MemWrite(ADDR, 4, DATA)` -/
  | wr (addr : HostAddr) (data : Word)
  /-- `rd ADDR`, or `rd ADDR -> NAME`: one `MemRead(ADDR, 4)` -/
  | rd (addr : HostAddr) (name : Option Nat)
  /-- `bnz NAME & MASK, label`: host-side control flow, no transaction -/
  | bnz (name : Nat) (mask : Word) (target : Nat)
  /-- No statement of R97: the active-low reset input is asserted here (R240). Log entry 8. -/
  | resetPin
deriving DecidableEq, Repr

/-- The host: its program, its place in it, the words its names hold, and its last transaction. -/
structure HostAgent where
  /-- the statements, in program order -/
  prog : List HostStmt
  /-- the position of the next statement; at or past the end the host has nothing more to do -/
  next : Nat
  /-- the word each `rd … -> NAME` named, the latest first -/
  names : List (Nat × Word)
  /-- the last completed transaction -/
  last : Option Completed
deriving DecidableEq, Repr

/-- The host has no statement left to issue. -/
def HostAgent.finished (h : HostAgent) : Bool := decide (h.prog.length ≤ h.next)

/-- The statement the host issues next. -/
def HostAgent.current (h : HostAgent) : Option HostStmt := h.prog[h.next]?

/-- The host's record of a completed transaction, and its move to the next statement. -/
def HostAgent.record (h : HostAgent) (c : Completed) : HostAgent :=
  { h with last := some c, next := h.next + 1 }

/-- `rd … -> NAME` names its data for later statements (R97). -/
def HostAgent.bind (h : HostAgent) (name : Option Nat) (d : Word) : HostAgent :=
  match name with
  | none => h
  | some n => { h with names := (n, d) :: h.names.filter (fun p => decide (p.1 ≠ n)) }

/-- A move of the host's program without a transaction (R97). -/
def HostAgent.goto (h : HostAgent) (target : Nat) : HostAgent := { h with next := target }

end Sys2Proof.Machine
end

