-- ==== Sys2Proof/Syntax.lean ====
section
/-! DEFINITION. The commands: the block's only "instructions". One constructor for each row of
spec/opcode_table.json (spec/30_encoding.md R91). A command word carries no operand fields: the opcode
implies its sources and destinations (R93), so no constructor has an argument.
-/

namespace Sys2Proof

/-- The nine commands of R91. -/
inductive Instr where
  /-- NOP (OP 0x0): completes successfully, writes only the status (R192). -/
  | nop
  /-- PACK (OP 0x1): RAW to UNIT (R148). -/
  | pack
  /-- UNPACK (OP 0x2): UNIT to RAW (R157). -/
  | unpack
  /-- TO_TEXT (OP 0x3): UNIT to TEXT (R171). -/
  | toText
  /-- FROM_TEXT (OP 0x4): TEXT to UNIT (R173). -/
  | fromText
  /-- ENCODE (OP 0x5): RAW to UNIT and TEXT (R190). -/
  | encode
  /-- DECODE (OP 0x6): TEXT to UNIT and RAW (R191). -/
  | decode
  /-- BUILD_ALPHABET (OP 0x7): STAGE to FWD and REV (R130). -/
  | buildAlphabet
  /-- LOAD_STD_ALPHABET (OP 0x8): STD to FWD and REV (R131). -/
  | loadStdAlphabet
deriving DecidableEq, Repr

end Sys2Proof
end

