-- ==== Sys2Proof/WellFormed.lean ====
section
/-! DEFINITION. What is well formed: a command word (spec/30_encoding.md R92), a command, the symbols of an
alphabet (spec/10_state.md R46), a host program (R97). Commands have no operands, so every command is well formed;
the checks that can refuse are those of words, symbols and programs.
-/

namespace Sys2Proof

/-- A command word is legal when bits [31:4] are 0 and OP is at most 8 (R91, R92). -/
def wordLegal (w : Word) : Bool :=
  decide (w.extractLsb' 4 28 = 0#28) && decide ((w.extractLsb' 0 4).toNat ≤ 8)

/-- A command has no operand that could be out of range (R93, R94). -/
def Instr.wellFormed : Instr → Bool
  | .nop => true
  | .pack => true
  | .unpack => true
  | .toText => true
  | .fromText => true
  | .encode => true
  | .decode => true
  | .buildAlphabet => true
  | .loadStdAlphabet => true

/-- A sequence is a valid alphabet when it has 94 codes, each in 33..126, no two equal (R46, R48, R130). -/
def symbolsValid (codes : List Byte) : Bool :=
  decide (codes.length = 94) && codes.all (fun c => decide (33 ≤ c.toNat) && decide (c.toNat ≤ 126)) &&
    decide codes.Nodup

/-- A host program is well formed when every `bnz` goes to one of its statements or just past the last (R97). -/
def programWellFormed (p : List Machine.HostStmt) : Bool :=
  p.all fun st =>
    match st with
    | .wr _ _ => true
    | .rd _ _ => true
    | .bnz _ _ target => decide (target ≤ p.length)
    | .resetPin => true

end Sys2Proof
end

