-- ==== Sys2Proof/Decode.lean ====
section
/-! DEFINITION. The command decoder (spec/30_encoding.md R90 to R92; spec/40_command_model.md R112) and, after it,
the encoder (R91, R99). A command is one 32-bit word, so a decoder needs no length (R95) and no byte order (R68).
-/

namespace Sys2Proof

/-- Why a word is no command; each completes with BAD_COMMAND (R92, R210). -/
inductive DecodeReject where
  /-- `w[31:4] != 0` -/
  | reservedField
  /-- `OP` in 0x9..0xF -/
  | reservedOpcode
deriving DecidableEq, Repr

/-- The field `OP`, bits [3:0] (R90). -/
def opField (w : Word) : BitVec 4 := w.extractLsb' 0 4

/-- The field `RSVD`, bits [31:4] (R90). -/
def rsvdField (w : Word) : BitVec 28 := w.extractLsb' 4 28

/-- The command of an opcode (R91). -/
def decodeOp (op : BitVec 4) : Except DecodeReject Instr :=
  match op.toNat with
  | 0 => .ok .nop
  | 1 => .ok .pack
  | 2 => .ok .unpack
  | 3 => .ok .toText
  | 4 => .ok .fromText
  | 5 => .ok .encode
  | 6 => .ok .decode
  | 7 => .ok .buildAlphabet
  | 8 => .ok .loadStdAlphabet
  | _ => .error .reservedOpcode

/-- Every 32-bit word is one of the nine legal commands or is rejected by name (R92). -/
def decode (w : Word) : Except DecodeReject Instr :=
  if rsvdField w ≠ 0#28 then .error .reservedField else decodeOp (opField w)

/-- The command word whose bits are `w`, of which the low `nbits` count; `none` for more than one word. -/
def tableWord (nbits w : Nat) : Option Word :=
  if w % 2 ^ nbits < 2 ^ 32 then some (BitVec.ofNat 32 (w % 2 ^ nbits)) else none

/-- The command the decoder reads from an instruction of the opcode table: bit 0 is the least significant
bit of the one 32-bit word, and every bit above `nbits` is 0. -/
def decodeTableWord (nbits w : Nat) : Option Instr :=
  match tableWord nbits w with
  | none => none
  | some cw =>
    match decode cw with
    | .ok i => some i
    | .error _ => none

/-- The opcode of a command (R91). -/
def opcode : Instr → BitVec 4
  | .nop => 0x0#4
  | .pack => 0x1#4
  | .unpack => 0x2#4
  | .toText => 0x3#4
  | .fromText => 0x4#4
  | .encode => 0x5#4
  | .decode => 0x6#4
  | .buildAlphabet => 0x7#4
  | .loadStdAlphabet => 0x8#4

/-- The command word of a command: its opcode in bits [3:0], bits [31:4] zero (R90, R91). -/
def encode (i : Instr) : Word := (opcode i).setWidth 32

end Sys2Proof
end

