-- ==== Sys2Proof/Machine/Errors.lean ====
section
/-! DEFINITION. The errors a command can complete with and their codes (spec/60_exceptions.md R201), and the result
of a command's function (spec/00_scope.md R14). An error is no trap: it is a value of `ERR_CODE` (R200).
-/

namespace Sys2Proof.Machine

/-- The error codes of R201 but NONE, which every successful command writes. -/
inductive ErrCode where
  /-- R202 -/
  | invalidSize
  /-- R203 -/
  | invalidOrDuplicateSymbol
  /-- R204 -/
  | illegalCharacter
  /-- R205 -/
  | malformedLength
  /-- R206 -/
  | malformedValue
  /-- R207 -/
  | malformedRedundant
  /-- R208 -/
  | indexRange
  /-- R209 -/
  | lengthOverflow
  /-- R210 -/
  | badCommand
deriving DecidableEq, Repr

/-- `ERR_CODE[3:0]` of an error (R201). -/
def ErrCode.bits : ErrCode → BitVec 4
  | .invalidSize => 1#4
  | .invalidOrDuplicateSymbol => 2#4
  | .illegalCharacter => 3#4
  | .malformedLength => 4#4
  | .malformedValue => 5#4
  | .malformedRedundant => 6#4
  | .indexRange => 7#4
  | .lengthOverflow => 8#4
  | .badCommand => 9#4

/-- `Err(code, info)` (R14). -/
structure CmdError where
  code : ErrCode
  info : Word
deriving DecidableEq, Repr

/-- `Ok(value)` or `Err(code, info)` (R14). -/
abbrev Checked (α : Type) := Except CmdError α

/-- An error whose `info` is a length or an index (R201). -/
def errAt (code : ErrCode) (n : Nat) : CmdError := ⟨code, BitVec.ofNat 32 n⟩

end Sys2Proof.Machine
end

