-- ==== Sys2Proof/Config.lean ====
section
/-! DEFINITION. What an implementation of the block fixes, and the values the spec leaves free.
An `opaque` constant here has no body: nothing can be proved of its value, so a claim about the model
is a claim about every value it may take. Each names its log entry.
-/

namespace Sys2Proof.Config

/-- `ID` always reads this (R25). -/
def idValue : Word := 0xB0940007#32

/-- `ALPHABET_SIZE` (R10, R11). -/
def alphabetSize : Nat := 94

/-- `STAGE_CAP` (R10). -/
def stageCap : Nat := 128

/-- The parameter `RAW_CAP`: an integer in 1..32768 (R10, D3). A value carries the proof that it is in range. -/
structure RawCap where
  val : Nat
  pos : 1 ≤ val
  le : val ≤ 32768
deriving DecidableEq, Repr

/-- The parameter's default, 8192 (R10). Log entry 2. -/
def defaultRawCap : RawCap := ⟨8192, by decide, by decide⟩

/-- The OPEN parameter `STD_ALPHABET` (R10, R48, D19): any permutation of the 94 codes 33..126, held as the
permutation of the 94 indices it is. Log entry 3. -/
opaque stdOrder : Equiv.Perm (Fin 94)

/-- FREE VALUE: the byte that the RAM of RAW, UNIT, TEXT or STAGE holds at a host address after the
given reset (0 for the first, one more for each later reset) until something writes it
(R40 to R43, R241, I10). Log entry 4. -/
opaque ramByte (resets address : Nat) : Byte

/-- FREE VALUE: what a read of a STAGE, FWD, REV, RAW, UNIT or TEXT window returns while `BUSY = 1`
(R73, I12), by the number of the draw. Log entry 5. -/
opaque busyRead (draw : Nat) : Word

/-- FREE VALUE: how many host steps come between a command's acceptance and its completion step: finite,
otherwise unspecified (R118, R250, I8). Used where the state's `latencies` names no latency. Log entry 6. -/
opaque latency (draw : Nat) : Nat

/-- FREE VALUE: what `bnz` reads for a name that no `rd` has named (R97 gives none). Log entry 9. -/
opaque unboundName (draw : Nat) : Word

/-- FREE VALUE: whether a write while `BUSY = 1` to a protected window, at an offset beyond the array's
capacity, sets `STATUS.DROPPED` (R72) or has no effect at all (R69): both rules fit it. Log entry 7. -/
opaque overCapacityDropped : Bool

end Sys2Proof.Config
end

