-- ==== Sys2Proof/Machine/Geometry.lean ====
section
/-! DEFINITION. The length arithmetic of the transcoder (spec/42_transcoder.md R140, R142, R143, R149, R151)
and the capacities it fixes (spec/00_scope.md R10).
-/

namespace Sys2Proof.Machine

/-- `g = (8N) div 13`, the number of full 13-bit groups of `n` bytes (R140). -/
def groupCount (n : Nat) : Nat := 8 * n / 13

/-- `m = (8N) mod 13`, the residue: the leftover bits of `n` bytes (R140). -/
def residue (n : Nat) : Nat := 8 * n % 13

/-- `UnitLen(N)` (R143), 0 for an empty buffer (R146). -/
def unitLength (n : Nat) : Nat :=
  if n = 0 then 0
  else if residue n ≤ 6 then 2 * groupCount n + 1
  else 2 * groupCount n + 2

/-- `UNIT_CAP = UnitLen(RAW_CAP)`; `TEXT_CAP` equals it (R10, R27). -/
def unitCap (c : Config.RawCap) : Nat := unitLength c.val

/-- The tail band of a residue (R142); the letters are the spec's. -/
inductive Band where
  /-- `m = 0` -/
  | a
  /-- `1 ≤ m ≤ 6` -/
  | b
  /-- `7 ≤ m ≤ 8` -/
  | c
  /-- `9 ≤ m ≤ 12` -/
  | d
deriving DecidableEq, Repr

/-- The band a residue selects (R142). -/
def bandOf (m : Nat) : Band :=
  if m = 0 then .a else if m ≤ 6 then .b else if m ≤ 8 then .c else .d

/-- The quantities of `Geometry(L)` (R149). -/
structure UnpackGeometry where
  /-- `tl`: the number of tail units, 1 or 2 -/
  tailLen : Nat
  /-- `g`: the number of group pairs, `evenLength / 2` -/
  groups : Nat
  /-- `nb`: the number of bits the group pairs carry -/
  numbits : Nat
  /-- `N`: the number of output bytes -/
  outLen : Nat
  /-- `m = 8N - nb`: the number of bits the tail carries -/
  tailBits : Nat
deriving DecidableEq, Repr

/-- `Geometry(L)` for a unit buffer of length `len ≥ 1` (R149, with the reading of C8). -/
def geometry (len : Nat) : UnpackGeometry :=
  let tl := if len % 2 = 1 then 1 else 2
  let g := (len - tl) / 2
  let nb := 13 * g
  let n0 := nb / 8
  let n1 := if nb % 8 = 0 ∧ tl = 1 then n0 else n0 + 1
  let n := if tl = 2 ∧ 4 ≤ nb % 8 then n1 + 1 else n1
  { tailLen := tl, groups := g, numbits := nb, outLen := n, tailBits := 8 * n - nb }

/-- Length validity of a unit buffer whose geometry is `q` (R151). -/
def lengthValid (q : UnpackGeometry) : Bool :=
  decide (1 ≤ q.outLen) &&
    (decide (q.tailLen = 1 ∧ q.tailBits ≤ 6) ||
      decide (q.tailLen = 2 ∧ 7 ≤ q.tailBits ∧ q.tailBits ≤ 12))

end Sys2Proof.Machine
end

