-- ==== Sys2Proof/Machine/Map.lean ====
section
/-! DEFINITION. The host address map (spec/20_memory.md R60, R61; spec/10_state.md R24): the registers, the windows,
what each address means, and which targets are protected (R72) or read-only (R66).
-/

namespace Sys2Proof.Machine

/-- The registers of R24, in the order of its table. -/
inductive Reg where
  | id
  | rawCapReg
  | unitCapReg
  | ctrl
  | cmd
  | status
  | errCode
  | errInfo
  | irqStatus
  | irqEnable
  | rawLen
  | unitLen
  | textLen
  | alphaLen
deriving DecidableEq, Repr

/-- A register's offset in the host address space (R24). -/
def Reg.offset : Reg → Nat
  | .id => 0x00000
  | .rawCapReg => 0x00004
  | .unitCapReg => 0x00008
  | .ctrl => 0x00010
  | .cmd => 0x00014
  | .status => 0x00018
  | .errCode => 0x0001C
  | .errInfo => 0x00020
  | .irqStatus => 0x00024
  | .irqEnable => 0x00028
  | .rawLen => 0x00030
  | .unitLen => 0x00034
  | .textLen => 0x00038
  | .alphaLen => 0x0003C

/-- Every register of R24. -/
def Reg.all : List Reg :=
  [.id, .rawCapReg, .unitCapReg, .ctrl, .cmd, .status, .errCode, .errInfo, .irqStatus, .irqEnable,
    .rawLen, .unitLen, .textLen, .alphaLen]

/-- The registers a host write to which is dropped while `BUSY = 1`: the letter P of R24, the list of R72. -/
def Reg.protected : Reg → Bool
  | .cmd => true
  | .rawLen => true
  | .unitLen => true
  | .textLen => true
  | .alphaLen => true
  | .id => false
  | .rawCapReg => false
  | .unitCapReg => false
  | .ctrl => false
  | .status => false
  | .errCode => false
  | .errInfo => false
  | .irqStatus => false
  | .irqEnable => false

/-- The four RAM arrays (R40 to R43). -/
inductive Arr where
  | stage
  | raw
  | unit
  | text
deriving DecidableEq, Repr

/-- The host address of element 0 of an array's window (R61). -/
def Arr.base : Arr → Nat
  | .stage => 0x00400
  | .raw => 0x10000
  | .unit => 0x20000
  | .text => 0x30000

/-- The size of an array's window, in bytes (R61). -/
def Arr.window : Arr → Nat
  | .stage => 0x80
  | .raw => 0x10000
  | .unit => 0x10000
  | .text => 0x10000

/-- An array's capacity, its backed bytes (R10, R61). -/
def Arr.cap (c : Config.RawCap) : Arr → Nat
  | .stage => Config.stageCap
  | .raw => c.val
  | .unit => unitCap c
  | .text => unitCap c

/-- The windows of R61: one for each RAM array, and the read-only windows onto the tables. -/
inductive Win where
  | ram (a : Arr)
  | fwd
  | rev
  | std
deriving DecidableEq, Repr

/-- A window's first host address (R61). -/
def Win.base : Win → Nat
  | .ram a => a.base
  | .fwd => 0x00500
  | .rev => 0x00600
  | .std => 0x00700

/-- A window's size in bytes (R61). -/
def Win.size : Win → Nat
  | .ram a => a.window
  | .fwd => 0x60
  | .rev => 0x80
  | .std => 0x60

/-- A window's backed bytes (R61). -/
def Win.cap (c : Config.RawCap) : Win → Nat
  | .ram a => a.cap c
  | .fwd => 94
  | .rev => 128
  | .std => 94

/-- Every window of R61. -/
def Win.all : List Win :=
  [.ram .stage, .fwd, .rev, .std, .ram .raw, .ram .unit, .ram .text]

/-- What a host address means; the same in every state (R81). -/
inductive Target where
  | reg (r : Reg)
  | win (w : Win) (offset : Nat)
  | unmapped
deriving DecidableEq, Repr

/-- The window that covers a host address. -/
def windowAt (a : Nat) : Option Win :=
  Win.all.find? fun w => decide (w.base ≤ a) && decide (a < w.base + w.size)

/-- The target of a host address: a register at its listed offset only, a window, or nothing (R61, R65). -/
def targetAt (a : Nat) : Target :=
  match Reg.all.find? (fun r => decide (r.offset = a)) with
  | some r => .reg r
  | none =>
    match windowAt a with
    | some w => .win w (a - w.base)
    | none => .unmapped

/-- A word-aligned host address (R63). -/
def aligned (a : HostAddr) : Bool := decide (a.toNat % 4 = 0)

end Sys2Proof.Machine
end

