-- ==== Sys2Proof/Machine/Tables.lean ====
section
/-! DEFINITION. The symbol mapper's tables as data: the ROM STD, `Inverse(F)` and the two lookups
(spec/10_state.md R44 to R48; spec/41_alphabet.md R133).
-/

namespace Sys2Proof.Machine

/-- FWD, or STD: 94 codes of 7 bits (R44, R48). -/
abbrev ForwardTable := Vector Code 94

/-- REV: 128 entries, bit 7 `VALID`, bits [6:0] `IDX` (R45). -/
abbrev ReverseTable := Vector Byte 128

/-- The ROM `STD[0..94)`: the codes 33..126 in the order of the open parameter (R48). -/
def stdTable : ForwardTable :=
  Vector.ofFn fun i => BitVec.ofNat 7 (33 + (Config.stdOrder i).val)

/-- The entry of REV for a symbol of index `i`: `0x80 | i` (R46). -/
def validEntry (i : Nat) : Byte := 0x80#8 ||| BitVec.ofNat 8 i

/-- The assignments `R[F[i]] <- 0x80 | i` of `Inverse`, for the entries of a list, the first of index `i` (R46). -/
def fillReverse : Nat → List Code → ReverseTable → ReverseTable
  | _, [], r => r
  | i, c :: cs, r => fillReverse (i + 1) cs (r.set c.toNat (validEntry i) c.isLt)

/-- `Inverse(F)` (R46): every entry 0, then `R[F[i]] <- 0x80 | i` for `i` = 0..93 in order. -/
def inverseTable (f : ForwardTable) : ReverseTable :=
  fillReverse 0 f.toList (Vector.replicate 128 0x00#8)

/-- `REV[c]`; the codes 128..255 have no entry and are never symbols, so they read as not valid (R45). -/
def revEntry (r : ReverseTable) (c : Byte) : Byte :=
  if h : c.toNat < 128 then r[c.toNat] else 0x00#8

/-- `REV[c].VALID` (R45). -/
def revValid (r : ReverseTable) (c : Byte) : Bool := (revEntry r c).getLsbD 7

/-- `REV[c].IDX` (R45). -/
def revIdx (r : ReverseTable) (c : Byte) : Nat := ((revEntry r c).extractLsb' 0 7).toNat

/-- `FWD[i]` as the character it is: 7 bits zero-extended to a byte (R42, R44, R61). -/
def symbolAt (f : ForwardTable) (i : Fin 94) : Byte := (f[i.val]).setWidth 8

/-- The character test of FROM_TEXT (R172): `c < 33`, `c > 126`, or not valid in REV. -/
def illegalChar (r : ReverseTable) (c : Byte) : Bool :=
  decide (c.toNat < 33) || decide (126 < c.toNat) || !revValid r c

end Sys2Proof.Machine
end

