-- ==== Sys2Proof/Machine/State.lean ====
section
/-! DEFINITION. The state (spec/10_state.md R20), as plain data, the machine right after reset
(spec/70_reset_and_hazards.md R241), and the reasons a step can stop. The fields under "the model's own" hold the
machine's input, the schedule of its two agents and the counters of its free values; R20 does not list them.
-/

namespace Sys2Proof.Machine

/-- The RAM of STAGE, RAW, UNIT and TEXT: the bytes written since the last reset, by host address. An address that is
not listed holds no written byte and reads as the free value `Config.ramByte` (R241). Log entry 4. -/
abbrev Memory := List Host.Cell

/-- The canonical form of a memory: addresses strictly rising, so that equal memories are equal data. -/
abbrev Memory.wf (m : Memory) : Prop := (m.map Prod.fst).Pairwise (· < ·)

/-- The state of the machine. -/
structure State where
  /-- `STATUS.BUSY`, bit 0 (R30) -/
  busy : Bool
  /-- `STATUS.DROPPED`, bit 2 (R30) -/
  dropped : Bool
  /-- `STATUS.LAST_OP`, bits [7:4] (R30) -/
  lastOp : BitVec 4
  /-- `ERR_CODE[3:0]` (R31) -/
  errCode : BitVec 4
  /-- `ERR_INFO` (R32) -/
  errInfo : Word
  /-- `IRQ_STATUS.DONE`, bit 0 (R33) -/
  irqDone : Bool
  /-- `IRQ_STATUS.ERROR`, bit 1 (R33) -/
  irqError : Bool
  /-- `IRQ_ENABLE.DONE_EN`, bit 0 (R34) -/
  doneEn : Bool
  /-- `IRQ_ENABLE.ERROR_EN`, bit 1 (R34) -/
  errorEn : Bool
  /-- `RAW_LEN` (R36) -/
  rawLen : Word
  /-- `UNIT_LEN` (R37) -/
  unitLen : Word
  /-- `TEXT_LEN` (R38) -/
  textLen : Word
  /-- `ALPHA_LEN` (R39) -/
  alphaLen : Word
  /-- `PENDING`, hidden (R49) -/
  pending : Word
  /-- the arrays `RAW`, `UNIT`, `TEXT` and `STAGE` (R40 to R43) -/
  mem : Memory
  /-- `FWD` (R44) -/
  fwd : ForwardTable
  /-- `REV` (R45) -/
  rev : ReverseTable
  /-- the model's own: the parameter `RAW_CAP`, which no step changes (R10, R26). Log entry 2. -/
  rawCap : Config.RawCap
  /-- the model's own: how many resets came after the first, which names the free RAM contents. Log entry 4. -/
  resets : Nat
  /-- the model's own: how many free values were drawn. Log entries 5, 6 and 9. -/
  draws : Nat
  /-- the model's own: how many host steps come before the pending command's completion step. Log entry 6. -/
  delay : Nat
  /-- the model's own, an input: the latencies of the commands still to be accepted. Log entry 6. -/
  latencies : List Nat
  /-- the model's own, an input: the host. Log entry 8. -/
  host : HostAgent
deriving DecidableEq, Repr

/-- The reasons a step can stop with a fault: none. The spec gives every transaction a response (R62 to R73) and every
command word a completion (R92, R111); a failing command completes with an error code (R200). Log entry 10. -/
inductive Fault
deriving DecidableEq, Repr

/-- The reasons a step can be refused. -/
inductive Refusal where
  /-- Raised by `exec` alone, for a command that has no meaning in this model; safe. No command is without one. -/
  | notModelled (mnemonic : String)
deriving DecidableEq, Repr

/-- The machine right after reset (R241), with the default `RAW_CAP` and a host that has no program. -/
def State.reset : State where
  busy := false
  dropped := false
  lastOp := 0#4
  errCode := 0#4
  errInfo := 0#32
  irqDone := false
  irqError := false
  doneEn := false
  errorEn := false
  rawLen := 0#32
  unitLen := 0#32
  textLen := 0#32
  alphaLen := 0#32
  pending := 0#32
  mem := []
  fwd := stdTable
  rev := inverseTable stdTable
  rawCap := Config.defaultRawCap
  resets := 0
  draws := 0
  delay := 0
  latencies := []
  host := { prog := [], next := 0, names := [], last := none }

end Sys2Proof.Machine
end

