-- ==== Sys2Proof/Machine/Ops.lean ====
section
/-! DEFINITION. The named operations over memory and registers: bytes of memory, elements of the arrays, the
write-back of a command's results (spec/40_command_model.md R114), acceptance (R110), the completion step's
status (R111, R116) with the error completion that stands for an exception here (spec/60_exceptions.md R200, R217),
and reset (spec/70_reset_and_hazards.md R241).
-/

namespace Sys2Proof.Machine

/-! ### Memory -/

/-- The byte written at an address since the last reset, if one was. -/
def Memory.find (m : Memory) (a : Nat) : Option Byte := m.lookup a

/-- Consecutive cells from an address. -/
def cellsFrom : Nat → List Byte → Memory
  | _, [] => []
  | a, b :: bs => (a, b) :: cellsFrom (a + 1) bs

/-- Writes the bytes to consecutive addresses from `a`, and leaves every other address alone. -/
def Memory.store (m : Memory) (a : Nat) (bs : List Byte) : Memory :=
  m.filter (fun c => decide (c.1 < a)) ++ cellsFrom a bs ++
    m.filter (fun c => decide (a + bs.length ≤ c.1))

/-- The byte at a host address of the RAM: what was written there, or else a free value (R241). -/
def State.byteAt (s : State) (a : Nat) : Byte :=
  match s.mem.find a with
  | some b => b
  | none => Config.ramByte s.resets a

/-! ### Arrays and length registers -/

/-- `A[i]` of a RAM array (R13, R40 to R43). -/
def State.elem (s : State) (a : Arr) (i : Nat) : Byte := s.byteAt (a.base + i)

/-- `A[from..from+n)` (R13). -/
def State.slice (s : State) (a : Arr) : Nat → Nat → List Byte
  | _, 0 => []
  | i, n + 1 => s.elem a i :: s.slice a (i + 1) n

/-- An array's capacity in this machine (R10). -/
def State.cap (s : State) (a : Arr) : Nat := a.cap s.rawCap

/-- The length register of an array (R36 to R39). -/
def State.len (s : State) : Arr → Word
  | .stage => s.alphaLen
  | .raw => s.rawLen
  | .unit => s.unitLen
  | .text => s.textLen

/-! ### What a successful command writes -/

/-- `updates` (R114): the new content of each destination a command has; `none` for an array that is not one. FWD is
never written without REV, which is then `Inverse(FWD)` (R45, R46). -/
structure Updates where
  raw : Option (List Byte) := none
  unit : Option (List Byte) := none
  text : Option (List Byte) := none
  fwd : Option ForwardTable := none
deriving DecidableEq, Repr

/-- `A[i] <- v[i]` for `0 ≤ i < len(v)`; the bytes beyond keep their values (R114). -/
def Memory.update (m : Memory) (a : Arr) : Option (List Byte) → Memory
  | none => m
  | some v => m.store a.base v

/-- The length register takes `len(v)` (R114). -/
def newLength (old : Word) : Option (List Byte) → Word
  | none => old
  | some v => BitVec.ofNat 32 v.length

/-- REV is written with FWD (R45). -/
def newReverse (old : ReverseTable) : Option ForwardTable → ReverseTable
  | none => old
  | some f => inverseTable f

/-- `apply updates` (R111, R114). -/
def State.apply (s : State) (u : Updates) : State :=
  { s with
    mem := ((s.mem.update .unit u.unit).update .text u.text).update .raw u.raw
    rawLen := newLength s.rawLen u.raw
    unitLen := newLength s.unitLen u.unit
    textLen := newLength s.textLen u.text
    fwd := u.fwd.getD s.fwd
    rev := newReverse s.rev u.fwd }

/-! ### Completion -/

/-- The status a successful completion writes (R111, R116). -/
def State.succeed (s : State) : State :=
  { s with errCode := 0#4, errInfo := 0#32, irqDone := true, busy := false }

/-- The status a failing completion writes; it writes nothing else (R111, R113, R116). This is the block's only
"exception entry": it saves nothing and changes no mode (R200, R217). -/
def State.fail (s : State) (e : CmdError) : State :=
  { s with errCode := e.code.bits, errInfo := e.info, irqError := true, irqDone := true, busy := false }

/-- The completion step for the result of the command's function (R111). -/
def State.complete (s : State) (r : Checked Updates) : State :=
  match r with
  | .ok u => (s.apply u).succeed
  | .error e => s.fail e

/-- The completion step for an illegal command word: BAD_COMMAND with the word as `info` (R92, R112, R210). -/
def State.completeIllegal (s : State) (w : Word) : State := s.fail ⟨.badCommand, w⟩

/-! ### Acceptance -/

/-- The latency the next accepted command takes: the input's, or else a free value (R118). Log entry 6. -/
def State.nextLatency (s : State) : Nat :=
  match s.latencies with
  | [] => Config.latency s.draws
  | d :: _ => d

/-- `Accept(w)` (R110), and the draw of the command's latency (R118). -/
def State.accept (s : State) (w : Word) : State :=
  { s with
    pending := w, lastOp := w.extractLsb' 0 4, busy := true
    delay := s.nextLatency, latencies := s.latencies.tail, draws := s.draws + 1 }

/-! ### Reset -/

/-- The reset of R241, the same for the reset input and for `CTRL.SOFT_RESET` (R240). The pending command is
discarded (R242). The host, the parameter and the counters are no state of the block and stay; the RAM
holds fresh free values. `PENDING` becomes 0. Log entries 1 and 4. -/
def State.resetBlock (s : State) : State :=
  { State.reset with
    rawCap := s.rawCap, resets := s.resets + 1, draws := s.draws, latencies := s.latencies, host := s.host }

end Sys2Proof.Machine
end

