-- ==== Sys2Proof/Machine/Flags.lean ====
section
/-! DEFINITION. The status flags (spec/10_state.md R23): the words STATUS, ERR_CODE, IRQ_STATUS and IRQ_ENABLE read,
what a host write to each does, and the interrupt output (R30 to R35). The block has no condition codes.
-/

namespace Sys2Proof.Machine

/-- `STATUS.ERR = (ERR_CODE != 0)` (R30). -/
def State.err (s : State) : Bool := decide (s.errCode ≠ 0#4)

/-- One flag at a bit position of a register. -/
def flagBit (b : Bool) (pos : Nat) : Word := if b then 1#32 <<< pos else 0#32

/-- The word a read of `STATUS` returns (R30). -/
def State.statusWord (s : State) : Word :=
  flagBit s.busy 0 ||| flagBit s.err 1 ||| flagBit s.dropped 2 ||| (s.lastOp.setWidth 32 <<< 4)

/-- The word a read of `ERR_CODE` returns (R31). -/
def State.errCodeWord (s : State) : Word := s.errCode.setWidth 32

/-- The word a read of `IRQ_STATUS` returns (R33). -/
def State.irqStatusWord (s : State) : Word := flagBit s.irqDone 0 ||| flagBit s.irqError 1

/-- The word a read of `IRQ_ENABLE` returns (R34). -/
def State.irqEnableWord (s : State) : Word := flagBit s.doneEn 0 ||| flagBit s.errorEn 1

/-- The interrupt output, a function of the state (R35). -/
def State.irq (s : State) : Bool := (s.irqDone && s.doneEn) || (s.irqError && s.errorEn)

/-- A host write was dropped because `BUSY = 1`: the sticky flag is set (R30, R72). -/
def State.setDropped (s : State) : State := { s with dropped := true }

/-- A host write to `STATUS`: bit 2 written as 1 clears `DROPPED`; nothing else changes (R30). -/
def State.writeStatus (s : State) (d : Word) : State :=
  { s with dropped := s.dropped && !d.getLsbD 2 }

/-- A host write to `IRQ_STATUS` clears each bit written as 1 (R33). -/
def State.writeIrqStatus (s : State) (d : Word) : State :=
  { s with irqDone := s.irqDone && !d.getLsbD 0, irqError := s.irqError && !d.getLsbD 1 }

/-- A host write to `IRQ_ENABLE` (R34); the reserved bits ignore it (R67). -/
def State.writeIrqEnable (s : State) (d : Word) : State :=
  { s with doneEn := d.getLsbD 0, errorEn := d.getLsbD 1 }

end Sys2Proof.Machine
end

