-- ==== Sys2Proof/Machine/Operands.lean ====
section
/-! DEFINITION. The operand forms. A command's operands are implied by its opcode (spec/30_encoding.md R93): the source
array of a length register, checked against its capacity (spec/40_command_model.md R119). A host transaction's operand
is a register or a word of a window (spec/10_state.md R24 to R39; spec/20_memory.md R68, R69).
-/

namespace Sys2Proof.Machine

/-! ### Commands -/

/-- `CheckLen(value, cap)` (R119). -/
def checkLen (value : Word) (cap : Nat) : Checked Unit :=
  if cap < value.toNat then .error ⟨.lengthOverflow, value⟩ else .ok ()

/-- `A[0..LEN)` for the array's length register (R93, R94). -/
def State.content (s : State) (a : Arr) : List Byte := s.slice a 0 (s.len a).toNat

/-- The source operand of a command: the length check, then the array's valid content (R93, R119). -/
def State.source (s : State) (a : Arr) : Checked (List Byte) :=
  match checkLen (s.len a) (s.cap a) with
  | .error e => .error e
  | .ok () => .ok (s.content a)

/-! ### Registers -/

/-- The word a read of a register returns, busy or not (R24 to R39, R70, R73). `CTRL` and `CMD` have no storage and
read 0 (R28, R29; log entry 11); every reserved bit reads 0 (R67). -/
def State.readReg (s : State) : Reg → Word
  | .id => Config.idValue
  | .rawCapReg => BitVec.ofNat 32 s.rawCap.val
  | .unitCapReg => BitVec.ofNat 32 (unitCap s.rawCap)
  | .ctrl => 0#32
  | .cmd => 0#32
  | .status => s.statusWord
  | .errCode => s.errCodeWord
  | .errInfo => s.errInfo
  | .irqStatus => s.irqStatusWord
  | .irqEnable => s.irqEnableWord
  | .rawLen => s.rawLen
  | .unitLen => s.unitLen
  | .textLen => s.textLen
  | .alphaLen => s.alphaLen

/-- A write to a register that is not dropped (R24 to R39, R71). A write to a read-only register has no effect (R66);
bit 0 of `CTRL` resets the block in the same step (R28). -/
def State.writeReg (s : State) (r : Reg) (d : Word) : State :=
  match r with
  | .id => s
  | .rawCapReg => s
  | .unitCapReg => s
  | .ctrl => if d.getLsbD 0 then s.resetBlock else s
  | .cmd => s.accept d
  | .status => s.writeStatus d
  | .errCode => s
  | .errInfo => s
  | .irqStatus => s.writeIrqStatus d
  | .irqEnable => s.writeIrqEnable d
  | .rawLen => { s with rawLen := d }
  | .unitLen => { s with unitLen := d }
  | .textLen => { s with textLen := d }
  | .alphaLen => { s with alphaLen := d }

/-! ### Windows -/

/-- The byte at an offset of a window, zero-extended from 7 bits where the entry has 7; 0 beyond the backed bytes
(R61, R68, R69). -/
def State.windowByte (s : State) (w : Win) (o : Nat) : Byte :=
  if o < w.cap s.rawCap then
    match w with
    | .ram a => s.elem a o
    | .fwd => if h : o < 94 then symbolAt s.fwd ⟨o, h⟩ else 0x00#8
    | .rev => if h : o < 128 then s.rev[o] else 0x00#8
    | .std => if h : o < 94 then symbolAt stdTable ⟨o, h⟩ else 0x00#8
  else 0x00#8

/-- Four bytes as a word, the first in bits [7:0] (R68). -/
def wordOf (b0 b1 b2 b3 : Byte) : Word :=
  b0.setWidth 32 ||| (b1.setWidth 32 <<< 8) ||| (b2.setWidth 32 <<< 16) ||| (b3.setWidth 32 <<< 24)

/-- `WindowWord(A, o)`, lanes beyond the capacity 0 (R68, R69). -/
def State.windowWord (s : State) (w : Win) (o : Nat) : Word :=
  wordOf (s.windowByte w o) (s.windowByte w (o + 1)) (s.windowByte w (o + 2)) (s.windowByte w (o + 3))

/-- The byte lanes of a word: lane `j` is `d[8j+7:8j]` (R68). -/
def lanes (d : Word) : List Byte :=
  [d.extractLsb' 0 8, d.extractLsb' 8 8, d.extractLsb' 16 8, d.extractLsb' 24 8]

/-- A write of `d` at an offset of a RAM array's window: the lanes beyond the capacity are discarded (R68, R69). -/
def State.writeWindow (s : State) (a : Arr) (o : Nat) (d : Word) : State :=
  { s with mem := s.mem.store (a.base + o) ((lanes d).take (s.cap a - o)) }

end Sys2Proof.Machine
end

