-- ==== Sys2Proof/Machine/Alphabet.lean ====
section
/-! DEFINITION. The alphabet commands (spec/41_alphabet.md): BUILD_ALPHABET (R130) and LOAD_STD_ALPHABET (R131).
-/

namespace Sys2Proof.Machine

/-- The first index whose symbol is out of 33..126 or repeats an earlier one (R130); `seen` holds the earlier symbols. -/
def firstBadSymbol : Nat → List Byte → List Byte → Option Nat
  | _, _, [] => none
  | i, seen, c :: cs =>
    if c.toNat < 33 ∨ 126 < c.toNat then some i
    else if c ∈ seen then some i
    else firstBadSymbol (i + 1) (c :: seen) cs

/-- `F <- STAGE[0..94)` (R130), each symbol as its 7-bit code. -/
def State.stagedTable (s : State) : ForwardTable :=
  Vector.ofFn fun i => (s.elem .stage i.val).setWidth 7

/-- `BuildAlphabetExec` (R130). -/
def buildAlphabetExec (s : State) : Checked Updates :=
  if s.alphaLen ≠ BitVec.ofNat 32 Config.alphabetSize then .error ⟨.invalidSize, s.alphaLen⟩
  else
    match firstBadSymbol 0 [] (s.slice .stage 0 Config.alphabetSize) with
    | some i => .error (errAt .invalidOrDuplicateSymbol i)
    | none => .ok { fwd := some s.stagedTable }

/-- BUILD_ALPHABET (OP 0x7): STAGE to FWD and REV (R130). -/
def execBuildAlphabet (s : State) : Host.Outcome State Fault Refusal :=
  .next (s.complete (buildAlphabetExec s))

/-- `LoadStdExec` (R131). -/
def loadStdExec : Checked Updates := .ok { fwd := some stdTable }

/-- LOAD_STD_ALPHABET (OP 0x8): STD to FWD and REV (R131). -/
def execLoadStdAlphabet (s : State) : Host.Outcome State Fault Refusal :=
  .next (s.complete loadStdExec)

end Sys2Proof.Machine
end

