-- ==== Sys2Proof/Machine/SymbolCodec.lean ====
section
/-! DEFINITION. The symbol codec: ToText and FromText (spec/43_symbol_codec.md R170, R172), and the meanings of
TO_TEXT (R171) and FROM_TEXT (R173).
-/

namespace Sys2Proof.Machine

/-- The symbol of an index, if there is one: indices 0..93 (R133). -/
def symbolOf (f : ForwardTable) (i : Nat) : Option Byte :=
  if h : i < 94 then some (symbolAt f ⟨i, h⟩) else none

/-- `ToText(U, FWD)` from unit index `i` on (R170): pairs in ascending order, then the lone unit. -/
def toTextFrom (f : ForwardTable) : Nat → List Byte → Checked (List Byte)
  | _, [] => .ok []
  | i, [u] =>
    match symbolOf f u.toNat with
    | none => .error (errAt .indexRange i)
    | some c => .ok [c]
  | i, hi :: lo :: rest =>
    let val := hi.toNat * 256 + lo.toNat
    match symbolOf f (val / 94) with
    | none => .error (errAt .indexRange i)
    | some c0 =>
      match toTextFrom f (i + 2) rest with
      | .error e => .error e
      | .ok t => .ok (c0 :: symbolAt f ⟨val % 94, Nat.mod_lt _ (by decide)⟩ :: t)

/-- `ToText(U, FWD)` (R170). -/
def toText (f : ForwardTable) (u : List Byte) : Checked (List Byte) := toTextFrom f 0 u

/-- The lowest index of an illegal character, the first character's being `p` (R172). -/
def firstIllegal (r : ReverseTable) : Nat → List Byte → Option Nat
  | _, [] => none
  | p, c :: cs => if illegalChar r c then some p else firstIllegal r (p + 1) cs

/-- The units of a text of symbols (R172): each pair's value as `high, low`, the lone character's index last. -/
def textUnits (r : ReverseTable) : List Byte → List Byte
  | [] => []
  | [c] => [BitVec.ofNat 8 (revIdx r c)]
  | c0 :: c1 :: rest =>
    let val := revIdx r c0 * 94 + revIdx r c1
    BitVec.ofNat 8 (val / 256) :: BitVec.ofNat 8 (val % 256) :: textUnits r rest

/-- `FromText(T, REV)` (R172). -/
def fromText (r : ReverseTable) (t : List Byte) : Checked (List Byte) :=
  match firstIllegal r 0 t with
  | some p => .error (errAt .illegalCharacter p)
  | none => .ok (textUnits r t)

/-! ### The commands -/

/-- `ToTextExec` (R171). -/
def toTextExec (s : State) : Checked Updates :=
  match s.source .unit with
  | .error e => .error e
  | .ok u =>
    match toText s.fwd u with
    | .error e => .error e
    | .ok t => .ok { text := some t }

/-- TO_TEXT (OP 0x3): UNIT to TEXT (R171). -/
def execToText (s : State) : Host.Outcome State Fault Refusal := .next (s.complete (toTextExec s))

/-- `FromTextExec` (R173). -/
def fromTextExec (s : State) : Checked Updates :=
  match s.source .text with
  | .error e => .error e
  | .ok t =>
    match fromText s.rev t with
    | .error e => .error e
    | .ok u => .ok { unit := some u }

/-- FROM_TEXT (OP 0x4): TEXT to UNIT (R173). -/
def execFromText (s : State) : Host.Outcome State Fault Refusal := .next (s.complete (fromTextExec s))

end Sys2Proof.Machine
end

