-- ==== Sys2Proof/Machine/Bits.lean ====
section
/-! DEFINITION. Bit streams and bit fields: the most-significant-first stream of a byte buffer
(spec/00_scope.md R12, R15; spec/42_transcoder.md R141) and its cutting into values of a fixed width.
-/

namespace Sys2Proof.Machine

/-- The low `w` bits of `v`, bit `w-1` first (R15). -/
def bitsOf (w v : Nat) : List Bool := (List.range w).map fun j => v.testBit (w - 1 - j)

/-- The value of a sequence of bits, the first the most significant (R15). -/
def valueOf (bs : List Bool) : Nat := bs.foldl (fun acc b => 2 * acc + b.toNat) 0

/-- The stream of a byte buffer: stream bit `s` is `B[s div 8][7 - (s mod 8)]` (R15). -/
def bitStream (b : List Byte) : List Bool := b.flatMap fun x => bitsOf 8 x.toNat

/-- The first `n` values of `w` bits of a stream: value `k` is stream bits `w*k .. w*k+w-1` (R141). -/
def chunks (w : Nat) : Nat → List Bool → List Nat
  | 0, _ => []
  | n + 1, bs => valueOf (bs.take w) :: chunks w n (bs.drop w)

/-- The field `v[hi:lo]` (R12). -/
def field (v : Byte) (hi lo : Nat) : Nat := v.toNat / 2 ^ lo % 2 ^ (hi + 1 - lo)

/-- `B[i]` of a sequence, for an index inside it (R13). -/
def nth (b : List Byte) (i : Nat) : Byte := b.getD i 0x00#8

end Sys2Proof.Machine
end

