-- ==== Sys2Proof/Machine/Transcoder.lean ====
section
/-! DEFINITION. The transcoder: PackUnits and UnpackUnits (spec/42_transcoder.md R144 to R156), and the meanings
of PACK (R148) and UNPACK (R157).
-/

namespace Sys2Proof.Machine

/-! ### Pack -/

/-- The pair of a 13-bit group: its top 5 bits, then its low 8 (R144). -/
def groupPair (v : Nat) : List Byte := [BitVec.ofNat 8 (v / 256), BitVec.ofNat 8 (v % 256)]

/-- The tail of a non-empty byte buffer: the table of R145, by the band of the residue (R142). -/
def packTail (b : List Byte) : List Byte :=
  let n := b.length
  match bandOf (residue n) with
  | .a => [0x00#8]
  | .b => [nth b (n - 1) &&& 0x3F#8]
  | .c => [0x00#8, nth b (n - 1)]
  | .d => [nth b (n - 2) &&& 0x0F#8, nth b (n - 1)]

/-- `PackUnits(B)` (R147). -/
def packUnits (b : List Byte) : List Byte :=
  if b.length = 0 then []
  else (chunks 13 (groupCount b.length) (bitStream b)).flatMap groupPair ++ packTail b

/-! ### Unpack -/

/-- The tail unit the value checks of R152 constrain fails its range: the placeholder of band A or C is not 0, the
unit of band B is over 63, the first unit of band D is over 15. With its index. -/
def badTail (q : UnpackGeometry) (u : List Byte) : List Nat :=
  let len := u.length
  match bandOf q.tailBits with
  | .a => if (nth u (len - 1)).toNat ≠ 0 then [len - 1] else []
  | .b => if 63 < (nth u (len - 1)).toNat then [len - 1] else []
  | .c => if (nth u (len - 2)).toNat ≠ 0 then [len - 2] else []
  | .d => if 15 < (nth u (len - 2)).toNat then [len - 2] else []

/-- The indices of the group pairs' 5-bit units over 31, the first pair's being `i` (R152). -/
def badGroups : Nat → Nat → List Byte → List Nat
  | i, g + 1, hi :: _ :: rest =>
    if 31 < hi.toNat then i :: badGroups (i + 2) g rest else badGroups (i + 2) g rest
  | _, _, _ => []

/-- The set `bad` of R155. -/
def badUnits (q : UnpackGeometry) (u : List Byte) : List Nat := badGroups 0 q.groups u ++ badTail q u

/-- The group values `(U[2k] << 8) | U[2k+1]` of the first `g` pairs (R153). -/
def groupValues : Nat → List Byte → List Nat
  | g + 1, hi :: lo :: rest => (hi.toNat * 256 + lo.toNat) :: groupValues g rest
  | _, _ => []

/-- The tail value `t`, whose low `m` bits are the leftover bits (R153). -/
def tailValue (q : UnpackGeometry) (u : List Byte) : Nat :=
  let len := u.length
  let m := q.tailBits
  match bandOf m with
  | .a => 0
  | .b => field (nth u (len - 1)) (m - 1) 0
  | .c => field (nth u (len - 1)) (m - 1) 0
  | .d => field (nth u (len - 2)) (m - 9) 0 * 256 + (nth u (len - 1)).toNat

/-- The output stream: the groups' bits, then the tail's (R153). -/
def unpackStream (q : UnpackGeometry) (u : List Byte) : List Bool :=
  (groupValues q.groups u).flatMap (bitsOf 13) ++ bitsOf q.tailBits (tailValue q u)

/-- The output bytes (R153, R156). -/
def unpackBytes (q : UnpackGeometry) (u : List Byte) : List Byte :=
  (chunks 8 q.outLen (unpackStream q u)).map (BitVec.ofNat 8)

/-- The redundancy check of R154 for the bytes `b` built from `u`: the index it reports, if the tail bits that
repeat group bits disagree with them. -/
def badRedundancy (q : UnpackGeometry) (u b : List Byte) : Option Nat :=
  let len := u.length
  let n := q.outLen
  let m := q.tailBits
  if 1 ≤ m ∧ m ≤ 5 ∧ field (nth u (len - 1)) 5 m ≠ field (nth b (n - 1)) 5 m then some (len - 1)
  else if m = 7 ∧ field (nth u (len - 1)) 7 7 ≠ field (nth b (n - 1)) 7 7 then some (len - 1)
  else if 9 ≤ m ∧ m ≤ 11 ∧ field (nth u (len - 2)) 3 (m - 8) ≠ field (nth b (n - 2)) 3 (m - 8) then
    some (len - 2)
  else none

/-- `UnpackUnits(U)` (R155). -/
def unpackUnits (u : List Byte) : Checked (List Byte) :=
  if u.length = 0 then .ok []
  else
    let q := geometry u.length
    if lengthValid q then
      match (badUnits q u).min? with
      | some i => .error (errAt .malformedValue i)
      | none =>
        match badRedundancy q u (unpackBytes q u) with
        | some i => .error (errAt .malformedRedundant i)
        | none => .ok (unpackBytes q u)
    else .error (errAt .malformedLength u.length)

/-! ### The commands -/

/-- `PackExec` (R148). -/
def packExec (s : State) : Checked Updates :=
  match s.source .raw with
  | .error e => .error e
  | .ok b => .ok { unit := some (packUnits b) }

/-- PACK (OP 0x1): RAW to UNIT (R148). -/
def execPack (s : State) : Host.Outcome State Fault Refusal := .next (s.complete (packExec s))

/-- `UnpackExec` (R157). -/
def unpackExec (s : State) : Checked Updates :=
  match s.source .unit with
  | .error e => .error e
  | .ok u =>
    match unpackUnits u with
    | .error e => .error e
    | .ok b => .ok { raw := some b }

/-- UNPACK (OP 0x2): UNIT to RAW (R157). -/
def execUnpack (s : State) : Host.Outcome State Fault Refusal := .next (s.complete (unpackExec s))

end Sys2Proof.Machine
end

