-- ==== Sys2Proof/Machine/Composite.lean ====
section
/-! DEFINITION. The composite commands and NOP: ENCODE (spec/44_composite.md R190), DECODE (R191), NOP (R192).
-/

namespace Sys2Proof.Machine

/-- `EncodeExec` (R190). ToText cannot fail here (R176); its error is passed on as the function has it. -/
def encodeExec (s : State) : Checked Updates :=
  match s.source .raw with
  | .error e => .error e
  | .ok b =>
    match toText s.fwd (packUnits b) with
    | .error e => .error e
    | .ok t => .ok { unit := some (packUnits b), text := some t }

/-- ENCODE (OP 0x5): RAW to UNIT and TEXT (R190). -/
def execEncode (s : State) : Host.Outcome State Fault Refusal := .next (s.complete (encodeExec s))

/-- `DecodeExec` (R191). -/
def decodeExec (s : State) : Checked Updates :=
  match s.source .text with
  | .error e => .error e
  | .ok t =>
    match fromText s.rev t with
    | .error e => .error e
    | .ok u =>
      match unpackUnits u with
      | .error e => .error e
      | .ok b => .ok { unit := some u, raw := some b }

/-- DECODE (OP 0x6): TEXT to UNIT and RAW (R191). -/
def execDecode (s : State) : Host.Outcome State Fault Refusal := .next (s.complete (decodeExec s))

/-- NOP (OP 0x0): nothing but the completion status (R192). -/
def execNop (s : State) : Host.Outcome State Fault Refusal := .next (s.complete (.ok {}))

end Sys2Proof.Machine
end

