-- ==== Sys2Proof/Machine/Dispatch.lean ====
section
/-! DEFINITION. The dispatch (spec/40_command_model.md R112): one arm for each command, its completion step.
-/

namespace Sys2Proof.Machine

def exec (i : Instr) (s : State) : Host.Outcome State Fault Refusal :=
  match i with
  | .nop => Sys2Proof.Machine.execNop s
  | .pack => Sys2Proof.Machine.execPack s
  | .unpack => Sys2Proof.Machine.execUnpack s
  | .toText => Sys2Proof.Machine.execToText s
  | .fromText => Sys2Proof.Machine.execFromText s
  | .encode => Sys2Proof.Machine.execEncode s
  | .decode => Sys2Proof.Machine.execDecode s
  | .buildAlphabet => Sys2Proof.Machine.execBuildAlphabet s
  | .loadStdAlphabet => Sys2Proof.Machine.execLoadStdAlphabet s

end Sys2Proof.Machine
end

