-- ==== Sys2Proof/Machine/HostPort.lean ====
section
/-! DEFINITION. The host port: `MemRead` and `MemWrite` (spec/20_memory.md R62 to R74), and one statement of the host
(spec/30_encoding.md R97), the step of the agent "host" (spec/00_scope.md R6).
-/

namespace Sys2Proof.Machine

/-- A read of a window at an offset (R69, R70, R73): beyond the capacity SLVERR; while busy a free value, but for the
ROM; otherwise the window's word. While busy all 32 bits are free in a partially backed word too (the last of FWD or of UNIT):
R69 has its lanes beyond the capacity read 0, R73 leaves the whole value unspecified, and the model chooses R73 for them; the
SLVERR beyond the capacity while busy is its choice of R69. Log entry 5. -/
def State.readWindow (s : State) (w : Win) (o : Nat) : Response × Word :=
  if w.cap s.rawCap ≤ o then (.slverr, 0#32)
  else if s.busy && decide (w ≠ .std) then (.okay, Config.busyRead s.draws)
  else (.okay, s.windowWord w o)

/-- `MemRead(a, 4)` (R62): no state changes (R74). -/
def State.memRead (s : State) (a : HostAddr) : Response × Word :=
  if aligned a then
    match targetAt a.toNat with
    | .reg r => (.okay, s.readReg r)
    | .win w o => s.readWindow w o
    | .unmapped => (.slverr, 0#32)
  else (.slverr, 0#32)

/-- A dropped write: `DROPPED` is set, nothing else changes, the response is SLVERR (R72). -/
def State.dropWrite (s : State) : State × Response := (s.setDropped, .slverr)

/-- A write to a RAM array's window (R69, R71, R72). Beyond the capacity it gets SLVERR and changes nothing, but that
while busy `DROPPED` is left free (R69 and R72 both fit: log entry 7). -/
def State.writeRam (s : State) (a : Arr) (o : Nat) (d : Word) : State × Response :=
  if s.cap a ≤ o then
    if s.busy && Config.overCapacityDropped then s.dropWrite else (s, .slverr)
  else if s.busy then s.dropWrite
  else (s.writeWindow a o d, .okay)

/-- `MemWrite(a, 4, d)` (R62): the state after it, and the response. -/
def State.memWrite (s : State) (a : HostAddr) (d : Word) : State × Response :=
  if aligned a then
    match targetAt a.toNat with
    | .reg r => if s.busy && r.protected then s.dropWrite else (s.writeReg r d, .okay)
    | .win (.ram arr) o => s.writeRam arr o d
    | .win .fwd _ => (s, .okay)
    | .win .rev _ => (s, .okay)
    | .win .std _ => (s, .okay)
    | .unmapped => (s, .slverr)
  else (s, .slverr)

/-! ### The host's statements -/

/-- The word a name holds: what the last `rd … -> NAME` named, or else a free value (R97). Log entry 9. -/
def State.named (s : State) (n : Nat) : Word :=
  match s.host.names.lookup n with
  | some d => d
  | none => Config.unboundName s.draws

/-- `wr ADDR, DATA` (R97). -/
def State.hostWr (s : State) (a : HostAddr) (d : Word) : State :=
  let (s', r) := s.memWrite a d
  { s' with host := s'.host.record ⟨⟨.write, a, d⟩, r⟩ }

/-- `rd ADDR -> NAME` (R97): the block's state stays (R74); a free value is counted as drawn. -/
def State.hostRd (s : State) (a : HostAddr) (name : Option Nat) : State :=
  let (r, d) := s.memRead a
  { s with draws := s.draws + 1, host := (s.host.bind name d).record ⟨⟨.read, a, d⟩, r⟩ }

/-- `bnz NAME & MASK, label` (R97): no transaction. -/
def State.hostBnz (s : State) (n : Nat) (mask : Word) (target : Nat) : State :=
  { s with
    draws := s.draws + 1
    host := s.host.goto (if s.named n &&& mask ≠ 0#32 then target else s.host.next + 1) }

/-- The reset input is asserted (R240); the host then goes on. -/
def State.hostResetPin (s : State) : State :=
  { s.resetBlock with host := s.host.goto (s.host.next + 1) }

/-- One statement of the host. -/
def State.perform (s : State) : HostStmt → State
  | .wr a d => s.hostWr a d
  | .rd a name => s.hostRd a name
  | .bnz n mask target => s.hostBnz n mask target
  | .resetPin => s.hostResetPin

/-- One host step the less before the pending command's completion step (R118). -/
def State.countDown (s : State) : State := { s with delay := s.delay - 1 }

/-- The host's step: its next statement, or nothing when it has none. -/
def State.hostStep (s : State) : State :=
  match s.host.current with
  | none => s
  | some st => s.countDown.perform st

/-- Whose step is next. The engine's is enabled exactly when `BUSY = 1` (R6, R111); it comes when the command's latency
has passed, or when the host has nothing left to issue (R118). -/
def State.engineTurn (s : State) : Bool := s.busy && (decide (s.delay = 0) || s.host.finished)

end Sys2Proof.Machine
end

