-- ==== Sys2Proof/Machine/Engine.lean ====
section
/-! DEFINITION. The engine's step: the completion of the pending command (spec/00_scope.md R6; spec/40_command_model.md
R111, R112), and the placing of a command as the pending one.
-/

namespace Sys2Proof.Machine

/-- The completion step of the pending command word: the command it decodes to, or BAD_COMMAND (R111, R112). -/
def State.engineStep (s : State) : Host.Outcome State Fault Refusal :=
  match decode s.pending with
  | .ok i => exec i s
  | .error _ => .next (s.completeIllegal s.pending)

/-- The state in which the engine is about to complete the command word `w`: what an acceptance leaves (R110), with
the engine's step next. -/
def State.placeCommand (s : State) (w : Word) : State :=
  { s with pending := w, lastOp := opField w, busy := true, delay := 0 }

end Sys2Proof.Machine
end

