-- ==== Sys2Proof/Machine/Step.lean ====
section
/-! DEFINITION. One step of the machine: the host's next statement or the engine's completion step
(spec/00_scope.md R5, R6), and where a command stands to be the next one performed.
-/

namespace Sys2Proof.Machine

/-- One step (R5, R76). It never faults and is never refused. -/
def step (s : State) : Host.Outcome State Fault Refusal :=
  if s.engineTurn then s.engineStep else .next s.hostStep

/-- The block fetches no instructions (R22): its next instruction is the pending command word (R79). `s` with the command
word of the given bits pending, `BUSY = 1` and the engine's step next. Log entry 8. -/
def State.withFetchWord (s : State) (nbits w : Nat) : State :=
  s.placeCommand (BitVec.ofNat 32 (w % 2 ^ nbits))

end Sys2Proof.Machine
end

