-- ==== Sys2Proof/Machine/HostProgram.lean ====
section
/-! DEFINITION. The host assembly (spec/30_encoding.md R97 to R99): its statements with labels, the
pseudo-instructions and their expansions, and the transactions of the legal command writes. An assembled program is an
input of the machine: it stands in `HostAgent.prog`.
-/

namespace Sys2Proof.Machine

/-- A register's name stands for its address (R97). -/
def Reg.addr (r : Reg) : HostAddr := BitVec.ofNat 18 r.offset

/-- A window's name stands for its base; `WIN+o` is an offset in it (R97). An address past the last, 0x3FFFF, wraps modulo
2^18: the spec gives it no meaning, and the model chooses that. Log entry 13. -/
def Win.addr (w : Win) (o : Nat) : HostAddr := BitVec.ofNat 18 (w.base + o)

/-- The command write of a legal command as a transaction (R99). -/
def commandWrite (i : Instr) : Transaction := ⟨.write, Reg.cmd.addr, encode i⟩

/-- The statements of the host assembly: the base statements of R97, then the pseudo-instructions of R98. -/
inductive Asm where
  | wr (addr : HostAddr) (data : Word)
  | rd (addr : HostAddr) (name : Option Nat)
  | label (l : Nat)
  | bnz (name : Nat) (mask : Word) (l : Nat)
  | cmd (i : Instr)
  | wait
  | run (i : Instr)
  | wrbytes (w : Win) (o : Nat) (bytes : List Byte)
  | rdbytes (w : Win) (o n : Nat)
  | clrirq
  | clrdrop
  | softreset
deriving DecidableEq, Repr

/-- The name `s` of the expansion of `wait` (R98). -/
def statusName : Nat := 0

/-- The words of `wrbytes`: a byte index past the last counts as 0 (R98). -/
def packWords : List Byte → List Word
  | [] => []
  | [b0] => [wordOf b0 0#8 0#8 0#8]
  | [b0, b1] => [wordOf b0 b1 0#8 0#8]
  | [b0, b1, b2] => [wordOf b0 b1 b2 0#8]
  | b0 :: b1 :: b2 :: b3 :: rest => wordOf b0 b1 b2 b3 :: packWords rest

/-- `wr CMD, <OP code>` (R98). -/
def issueCommand (i : Instr) : HostStmt := .wr (commandWrite i).addr (commandWrite i).data

/-- `L: rd STATUS -> s` and `bnz s & 1, L`, from position `pos` (R98). -/
def waitLoop (pos : Nat) : List HostStmt :=
  [.rd Reg.status.addr (some statusName), .bnz statusName 1#32 pos]

/-- The expansion of a statement at position `pos`, given where each label is; none for a label that marks no place (log entry
12) or for a `wrbytes` whose offset is no multiple of 4 (R97, R98). -/
def Asm.expand (place : Nat → Option Nat) (pos : Nat) : Asm → Option (List HostStmt)
  | .wr a d => some [.wr a d]
  | .rd a n => some [.rd a n]
  | .label _ => some []
  | .bnz n mask l => (place l).map fun t => [.bnz n mask t]
  | .cmd i => some [issueCommand i]
  | .wait => some (waitLoop pos)
  | .run i => some (issueCommand i :: waitLoop (pos + 1))
  | .wrbytes w o bs =>
    if o % 4 = 0 then
      some ((packWords bs).mapIdx fun j d => .wr (w.addr (o + 4 * j)) d)
    else none
  | .rdbytes w o n => some ((List.range ((n + 3) / 4)).map fun j => .rd (w.addr (o + 4 * j)) none)
  | .clrirq => some [.wr Reg.irqStatus.addr 3#32]
  | .clrdrop => some [.wr Reg.status.addr 4#32]
  | .softreset => some [.wr Reg.ctrl.addr 1#32]

/-- How many base statements a statement expands to. -/
def Asm.size : Asm → Nat
  | .label _ => 0
  | .wait => 2
  | .run _ => 3
  | .wrbytes _ _ bs => (bs.length + 3) / 4
  | .rdbytes _ _ n => (n + 3) / 4
  | .wr _ _ => 1
  | .rd _ _ => 1
  | .bnz _ _ _ => 1
  | .cmd _ => 1
  | .clrirq => 1
  | .clrdrop => 1
  | .softreset => 1

/-- Where each label marks a place, the first statement being at position `pos`. -/
def labelPlaces : Nat → List Asm → List (Nat × Nat)
  | _, [] => []
  | pos, .label l :: rest => (l, pos) :: labelPlaces pos rest
  | pos, a :: rest => labelPlaces (pos + a.size) rest

/-- The expansions of a program's statements, in order. -/
def expandAll (place : Nat → Option Nat) : Nat → List Asm → Option (List HostStmt)
  | _, [] => some []
  | pos, a :: rest =>
    match a.expand place pos, expandAll place (pos + a.size) rest with
    | some xs, some ys => some (xs ++ ys)
    | _, _ => none

/-- A host program in its base statements, labels resolved (R97, R98). A label that marks two places stands for the first of
them, and a program with a `bnz` to a label that marks none has no assembly: R97 says neither, and the model chooses both. Log
entry 12. -/
def assemble (p : List Asm) : Option (List HostStmt) :=
  expandAll (fun l => (labelPlaces 0 p).lookup l) 0 p

/-- The host at the start of a program. -/
def State.withProgram (s : State) (p : List HostStmt) (latencies : List Nat) : State :=
  { s with latencies := latencies, host := { prog := p, next := 0, names := [], last := none } }

end Sys2Proof.Machine
end

