-- ==== Sys2Proof/Safety.lean ====
section
/-! DEFINITION. The terms claims use: the alphabet invariant (spec/10_state.md R46), the error codes a command can leave
(spec/60_exceptions.md R201), the invariant every step keeps, and when two states have the same block state (R20).
-/

namespace Sys2Proof.Machine

/-- The alphabet invariant of R46: the FWD entries are pairwise distinct and in 33..126, `REV[FWD[i]] = 0x80 | i`, and every
other entry of REV is 0. -/
structure AlphabetOk (f : ForwardTable) (r : ReverseTable) : Prop where
  range : ∀ i : Fin 94, 33 ≤ (f[i.val]).toNat ∧ (f[i.val]).toNat ≤ 126
  distinct : ∀ i j : Fin 94, f[i.val] = f[j.val] → i = j
  present : ∀ i : Fin 94, r[(f[i.val]).toNat]'(f[i.val]).isLt = validEntry i.val
  absent : ∀ c : Fin 128, (∀ i : Fin 94, (f[i.val]).toNat ≠ c.val) → r[c.val] = 0x00#8

/-- A host address that is a backed byte of a RAM array (R61). -/
def backed (c : Config.RawCap) (a : Nat) : Prop := ∃ arr : Arr, arr.base ≤ a ∧ a < arr.base + arr.cap c

/-- The error codes a completed command can leave in `ERR_CODE`, by the opcode field of its word (R201, R92). -/
def codesOf (op : BitVec 4) : List (BitVec 4) :=
  match op.toNat with
  | 0 => [0#4, 9#4]
  | 1 => [0#4, 8#4, 9#4]
  | 2 => [0#4, 4#4, 5#4, 6#4, 8#4, 9#4]
  | 3 => [0#4, 7#4, 8#4, 9#4]
  | 4 => [0#4, 3#4, 8#4, 9#4]
  | 5 => [0#4, 8#4, 9#4]
  | 6 => [0#4, 3#4, 4#4, 5#4, 6#4, 8#4, 9#4]
  | 7 => [0#4, 1#4, 2#4, 9#4]
  | 8 => [0#4, 9#4]
  | _ => [9#4]

/-- The invariant that holds at reset and that every step keeps. -/
structure Inv (s : State) : Prop where
  /-- the memory is in its canonical form -/
  memory : s.mem.wf
  /-- every byte written is a backed byte of RAW, UNIT, TEXT or STAGE (R61, R69, R120) -/
  inside : ∀ a ∈ s.mem.map Prod.fst, backed s.rawCap a
  /-- the active alphabet is one (R46) -/
  alphabet : AlphabetOk s.fwd s.rev
  /-- no reserved error code is produced (R201) -/
  code : s.errCode.toNat ≤ 9
  /-- `ERR_INFO` is 0 when the last completed command succeeded (R32) -/
  info : s.errCode = 0#4 → s.errInfo = 0#32
  /-- while idle, the error is one that the command named by `STATUS.LAST_OP` can raise (R200, R201) -/
  source : s.busy = false → s.errCode ∈ codesOf s.lastOp
  /-- `STATUS.LAST_OP` shows the pending word's bits [3:0] (R49) -/
  pendingOp : s.busy = true → s.lastOp = opField s.pending

/-- The state of the block, R20: everything but the model's own fields. -/
structure SameBlock (s t : State) : Prop where
  busy : t.busy = s.busy
  dropped : t.dropped = s.dropped
  lastOp : t.lastOp = s.lastOp
  errCode : t.errCode = s.errCode
  errInfo : t.errInfo = s.errInfo
  irqDone : t.irqDone = s.irqDone
  irqError : t.irqError = s.irqError
  doneEn : t.doneEn = s.doneEn
  errorEn : t.errorEn = s.errorEn
  rawLen : t.rawLen = s.rawLen
  unitLen : t.unitLen = s.unitLen
  textLen : t.textLen = s.textLen
  alphaLen : t.alphaLen = s.alphaLen
  pending : t.pending = s.pending
  mem : t.mem = s.mem
  resets : t.resets = s.resets
  fwd : t.fwd = s.fwd
  rev : t.rev = s.rev
  rawCap : t.rawCap = s.rawCap

/-- The state a completed command leaves when it changed nothing but the status, with the code and `info` given
(R113, R116): on a failure `IRQ_STATUS.ERROR` is set too. -/
def failedWith (s : State) (code : BitVec 4) (info : Word) : State :=
  { s with errCode := code, errInfo := info, irqError := true, irqDone := true, busy := false }

/-- The state a successful completion leaves when nothing but the status changed (R192). -/
def succeededWith (s : State) : State :=
  { s with errCode := 0#4, errInfo := 0#32, irqDone := true, busy := false }

/-- Every byte of memory outside `[base, base + n)` reads in `t` as it does in `s`. -/
def SameOutside (s t : State) (base n : Nat) : Prop :=
  ∀ a, a < base ∨ base + n ≤ a → t.byteAt a = s.byteAt a

/-- The arrays, with their length registers, that a command reads as a source (R93). -/
def sourcesOf : Instr → List Arr
  | .nop => []
  | .pack => [.raw]
  | .unpack => [.unit]
  | .toText => [.unit]
  | .fromText => [.text]
  | .encode => [.raw]
  | .decode => [.text]
  | .buildAlphabet => [.stage]
  | .loadStdAlphabet => []

/-- The arrays, with their length registers, that a command writes on success (R93). -/
def destinationsOf : Instr → List Arr
  | .nop => []
  | .pack => [.unit]
  | .unpack => [.raw]
  | .toText => [.text]
  | .fromText => [.unit]
  | .encode => [.unit, .text]
  | .decode => [.unit, .raw]
  | .buildAlphabet => []
  | .loadStdAlphabet => []

/-- How many elements of a source array a command reads, from the first (R93): `STAGE[0..94)` when `ALPHA_LEN = 94` and else
none (R43); of another array those below its length register, and none when that is over the capacity (R119). -/
def State.readCount (s : State) (a : Arr) : Nat :=
  if a = .stage then (if s.alphaLen = 94#32 then 94 else 0)
  else if (s.len a).toNat ≤ s.cap a then (s.len a).toNat
  else 0

/-- The two states agree on all that the command reads (R93): the length register and the elements of each source array, FWD
for TO_TEXT and ENCODE, REV for FROM_TEXT and DECODE; and they have one `RAW_CAP`. -/
structure SameSources (i : Instr) (s s' : State) : Prop where
  rawCap : s'.rawCap = s.rawCap
  len : ∀ a ∈ sourcesOf i, s'.len a = s.len a
  elem : ∀ a ∈ sourcesOf i, ∀ j, j < s.readCount a → s'.elem a j = s.elem a j
  fwd : i = .toText ∨ i = .encode → s'.fwd = s.fwd
  rev : i = .fromText ∨ i = .decode → s'.rev = s.rev

/-- A host statement that resets the block: the reset input, or a write to `CTRL` with bit 0 set (R240). -/
def resets : HostStmt → Bool
  | .wr a d => decide (a = 0x00010#18) && d.getLsbD 0
  | .rd _ _ => false
  | .bnz _ _ _ => false
  | .resetPin => true

/-! ### The spec's own formulas over byte buffers, as claims use them -/

/-- Stream bit `s` of a byte buffer, `S(B, s) = B[s div 8][7 - (s mod 8)]` (R15). -/
def streamBit (b : List Byte) (s : Nat) : Bool := (nth b (s / 8)).getLsbD (7 - s % 8)

/-- The value of 13-bit group `k`: the sum over `j` = 0..12 of `S(B, 13k+j) << (12-j)` (R144). -/
def groupSum (b : List Byte) (k : Nat) : Nat :=
  ((List.range 13).map fun j => (streamBit b (13 * k + j)).toNat * 2 ^ (12 - j)).sum

/-- The group value in byte-window form: with `p = 13k`, `q = p div 8`, `r = p mod 8` and the three bytes from `q` as one
24-bit value (a byte index past the end reads 0), `(Wd >> (11 - r)) & 0x1FFF` (R144). -/
def groupWindow (b : List Byte) (k : Nat) : Nat :=
  let q := 13 * k / 8
  let r := 13 * k % 8
  ((nth b q).toNat * 2 ^ 16 + (nth b (q + 1)).toNat * 2 ^ 8 + (nth b (q + 2)).toNat) / 2 ^ (11 - r) % 2 ^ 13

/-- Unit `p` of a buffer `u` of `UnitLen(n)` units is out of the range R152 requires of it. -/
def ValueFault (n : Nat) (u : List Byte) (p : Nat) : Prop :=
  (∃ k, k < 8 * n / 13 ∧ p = 2 * k ∧ 31 < (nth u p).toNat) ∨
  (8 * n % 13 = 0 ∧ p = u.length - 1 ∧ (nth u p).toNat ≠ 0) ∨
  (1 ≤ 8 * n % 13 ∧ 8 * n % 13 ≤ 6 ∧ p = u.length - 1 ∧ 63 < (nth u p).toNat) ∨
  (7 ≤ 8 * n % 13 ∧ 8 * n % 13 ≤ 8 ∧ p = u.length - 2 ∧ (nth u p).toNat ≠ 0) ∨
  (9 ≤ 8 * n % 13 ∧ p = u.length - 2 ∧ 15 < (nth u p).toNat)

/-- The tail bits of a buffer `u` of `UnitLen(n)` units that repeat group bits disagree with the bytes `b` built from it;
`p` is the tail unit's index (R154). -/
def RedundancyFault (n : Nat) (u b : List Byte) (p : Nat) : Prop :=
  (1 ≤ 8 * n % 13 ∧ 8 * n % 13 ≤ 5 ∧ p = u.length - 1 ∧
    ∃ j, 8 * n % 13 ≤ j ∧ j ≤ 5 ∧ (nth u p).getLsbD j ≠ (nth b (n - 1)).getLsbD j) ∨
  (8 * n % 13 = 7 ∧ p = u.length - 1 ∧ (nth u p).getLsbD 7 ≠ (nth b (n - 1)).getLsbD 7) ∨
  (9 ≤ 8 * n % 13 ∧ 8 * n % 13 ≤ 11 ∧ p = u.length - 2 ∧
    ∃ j, 8 * n % 13 - 8 ≤ j ∧ j ≤ 3 ∧ (nth u p).getLsbD j ≠ (nth b (n - 2)).getLsbD j)

/-- Unit position `p` of `u` has no symbol: the first of a pair whose value is 8836 or more, or the lone last unit
of an odd buffer, when it is 94 or more (R170, R208). -/
def IndexFault (u : List Byte) (p : Nat) : Prop :=
  (p % 2 = 0 ∧ p + 1 < u.length ∧ 8836 ≤ (nth u p).toNat * 256 + (nth u (p + 1)).toNat) ∨
  (u.length % 2 = 1 ∧ p + 1 = u.length ∧ 94 ≤ (nth u p).toNat)

/-- Character `p` of a text is no symbol: its code is outside 33..126, or not valid in REV (R204, R172). -/
def CharFault (r : ReverseTable) (t : List Byte) (p : Nat) : Prop :=
  p < t.length ∧ ((nth t p).toNat < 33 ∨ 126 < (nth t p).toNat ∨ revValid r (nth t p) = false)

/-- `t` is the text of the units `u`: each pair's value, in base 94, through FWD, and a lone last unit through FWD (R170). -/
def TextOf (f : ForwardTable) (u t : List Byte) : Prop :=
  t.length = u.length ∧
  (∀ i, 2 * i + 1 < u.length →
    symbolOf f (((nth u (2 * i)).toNat * 256 + (nth u (2 * i + 1)).toNat) / 94) = some (nth t (2 * i)) ∧
    symbolOf f (((nth u (2 * i)).toNat * 256 + (nth u (2 * i + 1)).toNat) % 94) = some (nth t (2 * i + 1))) ∧
  (u.length % 2 = 1 → symbolOf f (nth u (u.length - 1)).toNat = some (nth t (u.length - 1)))

/-- `u` are the units of the text `t`: each pair's two indices in REV, in base 94, as a high and a low byte, and a lone last
character's index (R172). -/
def UnitsOf (r : ReverseTable) (t u : List Byte) : Prop :=
  u.length = t.length ∧
  (∀ i, 2 * i + 1 < t.length →
    nth u (2 * i) = BitVec.ofNat 8 ((revIdx r (nth t (2 * i)) * 94 + revIdx r (nth t (2 * i + 1))) / 256) ∧
    nth u (2 * i + 1) = BitVec.ofNat 8 ((revIdx r (nth t (2 * i)) * 94 + revIdx r (nth t (2 * i + 1))) % 256)) ∧
  (t.length % 2 = 1 → nth u (t.length - 1) = BitVec.ofNat 8 (revIdx r (nth t (t.length - 1))))

/-- A buffer `u` passes every check of UNPACK as the units of `n` bytes (R151, R152, R154). -/
def Unpackable (n : Nat) (u : List Byte) : Prop :=
  1 ≤ n ∧ u.length = unitLength n ∧ (∀ q, ¬ ValueFault n u q) ∧
  ∀ q, ¬ RedundancyFault n u (unpackBytes (geometry u.length) u) q

/-- Symbol `i` of a staged alphabet is out of 33..126 or equals an earlier one (R130, R203). -/
def SymbolFault (st : Nat → Byte) (i : Nat) : Prop :=
  i < 94 ∧ ((st i).toNat < 33 ∨ 126 < (st i).toNat ∨ ∃ j, j < i ∧ st j = st i)

end Sys2Proof.Machine
end

