-- ==== Sys2Proof/Certificates/Slice0/Obligations.lean ====
section
/-! DEFINITION. The statements about the model, from the spec's numbered rules. Each docstring says which rule it formalises,
or that it states the model's own choice and which log entry made it.
-/

open Sys2Proof Sys2Proof.Machine

/-! ## Encoding -/

/-- R99, R91: the nine legal command writes, each one transaction, and the command each word decodes to. -/
def Obligations.CommandWordsDecode : Prop :=
  (commandWrite .nop = ⟨.write, 0x00014#18, 0x00000000#32⟩ ∧ decode 0x00000000#32 = .ok .nop) ∧
  (commandWrite .pack = ⟨.write, 0x00014#18, 0x00000001#32⟩ ∧ decode 0x00000001#32 = .ok .pack) ∧
  (commandWrite .unpack = ⟨.write, 0x00014#18, 0x00000002#32⟩ ∧ decode 0x00000002#32 = .ok .unpack) ∧
  (commandWrite .toText = ⟨.write, 0x00014#18, 0x00000003#32⟩ ∧ decode 0x00000003#32 = .ok .toText) ∧
  (commandWrite .fromText = ⟨.write, 0x00014#18, 0x00000004#32⟩ ∧ decode 0x00000004#32 = .ok .fromText) ∧
  (commandWrite .encode = ⟨.write, 0x00014#18, 0x00000005#32⟩ ∧ decode 0x00000005#32 = .ok .encode) ∧
  (commandWrite .decode = ⟨.write, 0x00014#18, 0x00000006#32⟩ ∧ decode 0x00000006#32 = .ok .decode) ∧
  (commandWrite .buildAlphabet = ⟨.write, 0x00014#18, 0x00000007#32⟩ ∧
    decode 0x00000007#32 = .ok .buildAlphabet) ∧
  (commandWrite .loadStdAlphabet = ⟨.write, 0x00014#18, 0x00000008#32⟩ ∧
    decode 0x00000008#32 = .ok .loadStdAlphabet)

/-- R90 to R92, over all 2^32 command words: the decoder gives a command for its own word and no other, and it gives one
exactly when bits [31:4] are 0 and bits [3:0] are at most 8. -/
def Obligations.DecodeExactlyTheLegalWords : Prop :=
  (∀ (w : Word) (i : Instr), decode w = .ok i ↔ w = encode i) ∧
  (∀ w : Word, (∃ i, decode w = .ok i) ↔ (w.toNat / 16 = 0 ∧ w.toNat % 16 ≤ 8))

/-- R98: the expansions of the pseudo-instructions. `wait` loops on `STATUS` bit 0; the words of `wrbytes` hold its bytes, the
first in bits [7:0], a byte index past the last counting as 0, and an offset that is no multiple of 4 is refused. -/
def Obligations.PseudoInstructionsExpand : Prop :=
  ∀ (place : Nat → Option Nat) (pos : Nat),
    (∀ i, (Asm.cmd i).expand place pos = some [.wr 0x00014#18 (encode i)]) ∧
    (∃ n, Asm.wait.expand place pos = some [.rd 0x00018#18 (some n), .bnz n 1#32 pos] ∧
      ∀ i, (Asm.run i).expand place pos =
        some [.wr 0x00014#18 (encode i), .rd 0x00018#18 (some n), .bnz n 1#32 (pos + 1)]) ∧
    (∀ (w : Win) (o : Nat) (bs : List Byte), o % 4 = 0 → o + bs.length ≤ w.size →
      ∃ p, (Asm.wrbytes w o bs).expand place pos = some p ∧ p.length = (bs.length + 3) / 4 ∧
        ∀ j, j < p.length → ∃ a d, p[j]? = some (.wr a d) ∧ a.toNat = w.base + o + 4 * j ∧
          ∀ l, l < 4 → d.extractLsb' (8 * l) 8 = nth bs (4 * j + l)) ∧
    (∀ (w : Win) (o : Nat) (bs : List Byte), o % 4 ≠ 0 → (Asm.wrbytes w o bs).expand place pos = none) ∧
    (∀ (w : Win) (o n : Nat), o + n ≤ w.size → ∃ p, (Asm.rdbytes w o n).expand place pos = some p ∧
      p.length = (n + 3) / 4 ∧
      ∀ j, j < p.length → ∃ a, p[j]? = some (.rd a none) ∧ a.toNat = w.base + o + 4 * j) ∧
    Asm.clrirq.expand place pos = some [.wr 0x00024#18 3#32] ∧
    Asm.clrdrop.expand place pos = some [.wr 0x00018#18 4#32] ∧
    Asm.softreset.expand place pos = some [.wr 0x00010#18 1#32]

/-! ## The step and the command model -/

/-- R6, R111, R112: when it is the engine's turn and the pending word decodes to a command, the step is that command's
completion and nothing else; when it is not the engine's turn, the step is the host's. Whose turn it is while `BUSY = 1`
is the model's choice (log entry 6). -/
def Obligations.StepRunsTheDecodedCommand : Prop :=
  (∀ (s : State) (i : Instr), s.busy = true → (s.delay = 0 ∨ s.host.finished = true) →
    decode s.pending = .ok i → step s = exec i s) ∧
  (∀ s : State, (s.busy = false ∨ (s.delay ≠ 0 ∧ s.host.finished = false)) → step s = .next s.hostStep)

/-- R5, R62, R97: the host's step is its next statement, with one transaction for a `wr` or `rd`, whose response and data it
records; the transaction's effect on the block is that of the host port. A `bnz` and a host that has finished change nothing
of the block. The host itself is the model's input (log entry 8). -/
def Obligations.HostStepPerformsOneTransaction : Prop :=
  ∀ s : State,
    (∀ a d, s.host.current = some (.wr a d) →
      s.hostStep.host.last = some ⟨⟨.write, a, d⟩, (s.countDown.memWrite a d).2⟩ ∧
      s.hostStep.host.next = s.host.next + 1 ∧ s.hostStep.host.prog = s.host.prog ∧
      SameBlock (s.countDown.memWrite a d).1 s.hostStep) ∧
    (∀ a name, s.host.current = some (.rd a name) →
      s.hostStep.host.last = some ⟨⟨.read, a, (s.memRead a).2⟩, (s.memRead a).1⟩ ∧
      s.hostStep.host.next = s.host.next + 1 ∧ s.hostStep.host.prog = s.host.prog ∧ SameBlock s s.hostStep ∧
      ∀ n, name = some n → s.hostStep.named n = (s.memRead a).2) ∧
    (∀ n mask target, s.host.current = some (.bnz n mask target) →
      s.hostStep.host.next = (if s.named n &&& mask = 0#32 then s.host.next + 1 else target) ∧
      s.hostStep.host.last = s.host.last ∧ SameBlock s s.hostStep) ∧
    (s.host.finished = true → s.hostStep = s)

/-- R210, R92, R111: at the engine's turn an illegal command word completes with BAD_COMMAND, the word as `info`, and no other
write. That the turn is the engine's when `delay` is 0 or the host has finished is the model's choice (log entry 6). -/
def Obligations.IllegalWordCompletesBadCommand : Prop :=
  ∀ s : State, s.busy = true → (s.delay = 0 ∨ s.host.finished = true) →
    (s.pending.toNat / 16 ≠ 0 ∨ 9 ≤ s.pending.toNat % 16) →
    step s = .next (failedWith s 9#4 s.pending)

/-- R110: a write of `w` to `CMD` while idle accepts it, whatever `w` is, and changes nothing else of the block; while busy
it is dropped. The schedule (`delay`, `latencies`, `draws`) is the model's own (log entry 6). -/
def Obligations.CommandWriteAccepts : Prop :=
  (∀ (s : State) (w : Word), s.busy = false → ∃ (d n : Nat) (l : List Nat),
    s.memWrite 0x00014#18 w =
      ({ s with pending := w, lastOp := w.extractLsb' 0 4, busy := true, delay := d, draws := n, latencies := l },
        .okay)) ∧
  (∀ (s : State) (w : Word), s.busy = true →
    s.memWrite 0x00014#18 w = ({ s with dropped := true }, .slverr))

/-- R116, R111, R32: what every completion step does to the status; `ERR_INFO` is 0 after a success. -/
def Obligations.CompletionWritesStatus : Prop :=
  ∀ s : State, ∃ t, s.engineStep = .next t ∧
    t.busy = false ∧ t.irqDone = true ∧ (t.irqError = true ↔ s.irqError = true ∨ t.errCode ≠ 0#4) ∧
    (t.err = true ↔ t.errCode ≠ 0#4) ∧ (t.errCode = 0#4 → t.errInfo = 0#32) ∧
    t.dropped = s.dropped ∧ t.lastOp = s.lastOp ∧ t.doneEn = s.doneEn ∧ t.errorEn = s.errorEn ∧
    t.readReg .ctrl = s.readReg .ctrl

/-- R113: a completion step that fails, of a command or of an illegal word, changes `ERR_CODE`, `ERR_INFO`, `IRQ_STATUS`
and `STATUS.BUSY` and nothing else. -/
def Obligations.FailingCommandWritesOnlyStatus : Prop :=
  (∀ (i : Instr) (s t : State), exec i s = .next t → t.errCode ≠ 0#4 → t = failedWith s t.errCode t.errInfo) ∧
  (∀ s t : State, s.engineStep = .next t → t.errCode ≠ 0#4 → t = failedWith s t.errCode t.errInfo)

/-- R115, R82: no command writes an array or a length register it reads as a source; and no command but the two alphabet
commands, which do not read them, writes FWD or REV. -/
def Obligations.SourcesAreNotModified : Prop :=
  ∀ (i : Instr) (s t : State), exec i s = .next t →
    (∀ a ∈ sourcesOf i, t.len a = s.len a ∧ ∀ j, j < s.cap a → t.elem a j = s.elem a j) ∧
    (i ≠ .buildAlphabet → i ≠ .loadStdAlphabet → t.fwd = s.fwd ∧ t.rev = s.rev)

/-- R112, R117, R93: a command's error and results depend on nothing but the parameter and what R93's row lists: two states
that agree on it, whatever else they hold, give the same code, the same `info` and, on success, the same new contents. -/
def Obligations.ResultsDependOnSourcesOnly : Prop :=
  ∀ (i : Instr) (s s' t t' : State), SameSources i s s' → exec i s = .next t → exec i s' = .next t' →
    t.errCode = t'.errCode ∧ t.errInfo = t'.errInfo ∧
    (t.errCode = 0#4 →
      (∀ a ∈ destinationsOf i, t.len a = t'.len a ∧ t.content a = t'.content a) ∧
      (i = .buildAlphabet ∨ i = .loadStdAlphabet → t.fwd = t'.fwd ∧ t.rev = t'.rev))

/-- R119, R209: the six commands that read a source length fail with LENGTH_OVERFLOW, the register's value as `info`, when it
is over the capacity of the array, whatever the array holds. -/
def Obligations.LengthOverflowReported : Prop :=
  ∀ (s : State) (i : Instr) (a : Arr),
    (i, a) ∈ [(Instr.pack, Arr.raw), (.encode, .raw), (.unpack, .unit), (.toText, .unit), (.fromText, .text),
      (.decode, .text)] →
    s.cap a < (s.len a).toNat → exec i s = .next (failedWith s 8#4 (s.len a))

/-- R193: PACK, UNPACK, TO_TEXT, FROM_TEXT, ENCODE and DECODE of a source of length 0 succeed, set each destination
length to 0, write no array byte, and change nothing else but the status. -/
def Obligations.EmptySourceSucceeds : Prop :=
  ∀ (s : State) (i : Instr) (a : Arr),
    (i, a) ∈ [(Instr.pack, Arr.raw), (.encode, .raw), (.unpack, .unit), (.toText, .unit), (.fromText, .text),
      (.decode, .text)] →
    s.len a = 0#32 → ∃ t, exec i s = .next t ∧
      t = succeededWith { s with
        mem := t.mem
        rawLen := if .raw ∈ destinationsOf i then 0#32 else s.rawLen
        unitLen := if .unit ∈ destinationsOf i then 0#32 else s.unitLen
        textLen := if .text ∈ destinationsOf i then 0#32 else s.textLen } ∧
      (∀ x, t.byteAt x = s.byteAt x) ∧ (s.mem.wf → t.mem = s.mem)

/-- R120: no destination overflows: after a success each destination's length is within its array's capacity. -/
def Obligations.DestinationsNeverOverflow : Prop :=
  ∀ (i : Instr) (s t : State), exec i s = .next t → t.errCode = 0#4 →
    ∀ d ∈ destinationsOf i, (t.len d).toNat ≤ s.cap d

/-- R111, R118, R250, R242: within the host steps its latency still allows and one more, a pending command is completed or
discarded; and it is completed, its own completion step taken, when the host's program has no statement that resets the block.
That the latency is a number of host steps is the model's choice (log entry 6). -/
def Obligations.PendingCommandCompletes : Prop :=
  ∀ s : State, s.busy = true →
    (∃ (k : Nat) (t : State), k ≤ s.delay + 1 ∧ Host.Core.run Sys2Proof.core k s = .next t ∧ t.busy = false) ∧
    ((∀ st ∈ s.host.prog, resets st = false) → ∃ (k : Nat) (u t : State), k ≤ s.delay ∧
      Host.Core.run Sys2Proof.core k s = .next u ∧ u.busy = true ∧ u.pending = s.pending ∧
      u.engineStep = .next t ∧ Host.Core.run Sys2Proof.core (k + 1) s = .next t ∧ t.busy = false ∧ t.irqDone = true)

/-- R79, R72, R73: while a command is pending, a host step that is no reset leaves everything the command reads, the pending
word and the status it wrote as they were at acceptance. That the step is the host's while `delay` is not 0 and the host has not
finished is the model's choice (log entry 6). -/
def Obligations.PendingCommandInputsAreStable : Prop :=
  ∀ s t : State, s.busy = true → s.delay ≠ 0 → s.host.finished = false →
    s.host.current ≠ some .resetPin →
    (∀ d, s.host.current = some (.wr 0x00010#18 d) → d.getLsbD 0 = false) →
    step s = .next t →
    t.busy = true ∧ t.pending = s.pending ∧ t.lastOp = s.lastOp ∧ t.mem = s.mem ∧ t.resets = s.resets ∧
    t.rawLen = s.rawLen ∧ t.unitLen = s.unitLen ∧ t.textLen = s.textLen ∧ t.alphaLen = s.alphaLen ∧
    t.fwd = s.fwd ∧ t.rev = s.rev ∧ t.errCode = s.errCode ∧ t.errInfo = s.errInfo ∧ t.rawCap = s.rawCap

/-! ## Each command completes -/

/-- R192: NOP writes the status of a success and nothing else; `IRQ_STATUS.ERROR` stays as it was. -/
def Obligations.NopCompletes : Prop :=
  ∀ s : State, exec .nop s =
    .next { s with errCode := 0#4, errInfo := 0#32, irqDone := true, busy := false }

/-- R148, R114: PACK of a length within the capacity writes `UNIT[0..UnitLen(RAW_LEN))` and `UNIT_LEN`, and nothing else
but the status. -/
def Obligations.PackCompletes : Prop :=
  ∀ s : State, s.rawLen.toNat ≤ s.rawCap.val → ∃ t, exec .pack s = .next t ∧
    t = succeededWith { s with mem := t.mem, unitLen := BitVec.ofNat 32 (unitLength s.rawLen.toNat) } ∧
    t.content .unit = packUnits (s.content .raw) ∧
    SameOutside s t Arr.unit.base (unitLength s.rawLen.toNat)

/-- R157, R114: UNPACK of a buffer that passes its checks as the units of `n` bytes writes `RAW[0..n)`, the bytes whose pack
the buffer is, and `RAW_LEN`, and nothing else but the status. (A source of length 0 is `EmptySourceSucceeds`.) -/
def Obligations.UnpackCompletes : Prop :=
  ∀ (s : State) (n : Nat), s.unitLen.toNat ≤ unitCap s.rawCap → Unpackable n (s.content .unit) →
    ∃ t, exec .unpack s = .next t ∧
    t = succeededWith { s with mem := t.mem, rawLen := BitVec.ofNat 32 n } ∧
    packUnits (t.content .raw) = s.content .unit ∧ SameOutside s t Arr.raw.base n

/-- R171, R170, R114: TO_TEXT of units that all have a symbol writes `TEXT[0..UNIT_LEN)` and `TEXT_LEN`, and nothing else but
the status; each character is the one R170 gives. -/
def Obligations.ToTextCompletes : Prop :=
  ∀ s : State, s.unitLen.toNat ≤ unitCap s.rawCap → (∀ p, ¬ IndexFault (s.content .unit) p) →
    ∃ t, exec .toText s = .next t ∧
    t = succeededWith { s with mem := t.mem, textLen := s.unitLen } ∧
    TextOf s.fwd (s.content .unit) (t.content .text) ∧
    SameOutside s t Arr.text.base s.unitLen.toNat

/-- R173, R172, R114: FROM_TEXT of a text of symbols writes `UNIT[0..TEXT_LEN)` and `UNIT_LEN`, and nothing else but the status;
each unit is the one R172 gives. -/
def Obligations.FromTextCompletes : Prop :=
  ∀ s : State, s.textLen.toNat ≤ unitCap s.rawCap →
    (∀ p, ¬ CharFault s.rev (s.content .text) p) → ∃ t, exec .fromText s = .next t ∧
    t = succeededWith { s with mem := t.mem, unitLen := s.textLen } ∧
    UnitsOf s.rev (s.content .text) (t.content .unit) ∧
    SameOutside s t Arr.unit.base s.textLen.toNat

/-- R190, R114: ENCODE of a length within the capacity writes UNIT and TEXT and their lengths, both `UnitLen(RAW_LEN)`, and
nothing else but the status; for every content of FWD it succeeds. -/
def Obligations.EncodeCompletes : Prop :=
  ∀ s : State, s.rawLen.toNat ≤ s.rawCap.val → ∃ t, exec .encode s = .next t ∧
    t = succeededWith { s with
      mem := t.mem, unitLen := BitVec.ofNat 32 (unitLength s.rawLen.toNat),
      textLen := BitVec.ofNat 32 (unitLength s.rawLen.toNat) } ∧
    t.content .unit = packUnits (s.content .raw) ∧
    TextOf s.fwd (packUnits (s.content .raw)) (t.content .text) ∧
    ∀ a, (a < Arr.unit.base ∨ Arr.unit.base + unitLength s.rawLen.toNat ≤ a) →
      (a < Arr.text.base ∨ Arr.text.base + unitLength s.rawLen.toNat ≤ a) → t.byteAt a = s.byteAt a

/-- R191, R114: DECODE of a text of symbols whose units `u` pass UNPACK's checks as the units of `n` bytes writes UNIT and RAW
and their lengths, and nothing else but the status. (A source of length 0 is `EmptySourceSucceeds`.) -/
def Obligations.DecodeCompletes : Prop :=
  ∀ (s : State) (u : List Byte) (n : Nat), s.textLen.toNat ≤ unitCap s.rawCap →
    (∀ p, ¬ CharFault s.rev (s.content .text) p) → UnitsOf s.rev (s.content .text) u → Unpackable n u →
    ∃ t, exec .decode s = .next t ∧
    t = succeededWith { s with
      mem := t.mem, unitLen := s.textLen, rawLen := BitVec.ofNat 32 n } ∧
    t.content .unit = u ∧ packUnits (t.content .raw) = u ∧
    ∀ a, (a < Arr.unit.base ∨ Arr.unit.base + s.textLen.toNat ≤ a) →
      (a < Arr.raw.base ∨ Arr.raw.base + n ≤ a) → t.byteAt a = s.byteAt a

/-- R130: BUILD_ALPHABET of 94 distinct symbols in 33..126 replaces FWD and REV, and changes nothing else but the status; the
new tables are an alphabet. -/
def Obligations.BuildAlphabetCompletes : Prop :=
  ∀ s : State, s.alphaLen = 94#32 → (∀ i, ¬ SymbolFault (s.elem .stage) i) →
    ∃ t, exec .buildAlphabet s = .next t ∧
    t = succeededWith { s with fwd := t.fwd, rev := t.rev } ∧
    (∀ i : Fin 94, symbolAt t.fwd i = s.elem .stage i.val) ∧ AlphabetOk t.fwd t.rev

/-- R131: LOAD_STD_ALPHABET always succeeds; it restores the standard alphabet and changes nothing else but the status. -/
def Obligations.LoadStdAlphabetCompletes : Prop :=
  ∀ s : State, ∃ t, exec .loadStdAlphabet s = .next t ∧
    t = succeededWith { s with fwd := stdTable, rev := t.rev } ∧ AlphabetOk t.fwd t.rev ∧
    t.fwd = State.reset.fwd ∧ t.rev = State.reset.rev

/-! ## Errors -/

/-- R202, R203: BUILD_ALPHABET with `ALPHA_LEN` other than 94 fails with INVALID_SIZE, whatever STAGE holds; with
`ALPHA_LEN = 94` it fails with INVALID_OR_DUPLICATE_SYMBOL at the lowest index whose symbol is out of 33..126 or equals an
earlier one. -/
def Obligations.BuildAlphabetErrors : Prop :=
  (∀ s : State, s.alphaLen ≠ 94#32 → exec .buildAlphabet s = .next (failedWith s 1#4 s.alphaLen)) ∧
  (∀ (s : State) (i : Nat), s.alphaLen = 94#32 → SymbolFault (s.elem .stage) i →
    (∀ j, j < i → ¬ SymbolFault (s.elem .stage) j) →
    exec .buildAlphabet s = .next (failedWith s 2#4 (BitVec.ofNat 32 i)))

/-- R204: FROM_TEXT and DECODE fail with ILLEGAL_CHARACTER at the lowest index of a character that is outside 33..126 or not
valid in REV, whatever FWD and REV hold. -/
def Obligations.IllegalCharacterReported : Prop :=
  ∀ (s : State) (p : Nat), s.textLen.toNat ≤ unitCap s.rawCap →
    CharFault s.rev (s.content .text) p → (∀ q, q < p → ¬ CharFault s.rev (s.content .text) q) →
    exec .fromText s = .next (failedWith s 3#4 (BitVec.ofNat 32 p)) ∧
    exec .decode s = .next (failedWith s 3#4 (BitVec.ofNat 32 p))

/-- R205: UNPACK, and DECODE's unpack stage, fail with MALFORMED_LENGTH on a non-empty buffer whose length is `UnitLen(N)`
for no `N ≥ 1`. -/
def Obligations.MalformedLengthReported : Prop :=
  (∀ s : State, s.unitLen.toNat ≤ unitCap s.rawCap → s.unitLen ≠ 0#32 →
    (∀ n, 1 ≤ n → s.unitLen.toNat ≠ unitLength n) → exec .unpack s = .next (failedWith s 4#4 s.unitLen)) ∧
  (∀ s : State, s.textLen.toNat ≤ unitCap s.rawCap → s.textLen ≠ 0#32 →
    (∀ p, ¬ CharFault s.rev (s.content .text) p) →
    (∀ n, 1 ≤ n → s.textLen.toNat ≠ unitLength n) → exec .decode s = .next (failedWith s 4#4 s.textLen))

/-- R206, R152: UNPACK, and DECODE's unpack stage, fail with MALFORMED_VALUE on a buffer of valid length, at the lowest unit
out of its range. -/
def Obligations.MalformedValueReported : Prop :=
  (∀ (s : State) (n p : Nat), 1 ≤ n → s.unitLen.toNat = unitLength n → s.unitLen.toNat ≤ unitCap s.rawCap →
    ValueFault n (s.content .unit) p → (∀ q, q < p → ¬ ValueFault n (s.content .unit) q) →
    exec .unpack s = .next (failedWith s 5#4 (BitVec.ofNat 32 p))) ∧
  (∀ (s : State) (u : List Byte) (n p : Nat), 1 ≤ n → s.textLen.toNat = unitLength n →
    s.textLen.toNat ≤ unitCap s.rawCap → (∀ q, ¬ CharFault s.rev (s.content .text) q) →
    UnitsOf s.rev (s.content .text) u → ValueFault n u p → (∀ q, q < p → ¬ ValueFault n u q) →
    exec .decode s = .next (failedWith s 5#4 (BitVec.ofNat 32 p)))

/-- R207, R154: UNPACK, and DECODE's unpack stage, fail with MALFORMED_REDUNDANT on a buffer that passes the length and value
checks, at the tail unit, when tail bits that repeat group bits disagree with the bytes R153 builds. -/
def Obligations.MalformedRedundantReported : Prop :=
  (∀ (s : State) (n p : Nat), 1 ≤ n → s.unitLen.toNat = unitLength n → s.unitLen.toNat ≤ unitCap s.rawCap →
    (∀ q, ¬ ValueFault n (s.content .unit) q) →
    RedundancyFault n (s.content .unit) (unpackBytes (geometry (unitLength n)) (s.content .unit)) p →
    exec .unpack s = .next (failedWith s 6#4 (BitVec.ofNat 32 p))) ∧
  (∀ (s : State) (u : List Byte) (n p : Nat), 1 ≤ n → s.textLen.toNat = unitLength n →
    s.textLen.toNat ≤ unitCap s.rawCap → (∀ q, ¬ CharFault s.rev (s.content .text) q) →
    UnitsOf s.rev (s.content .text) u → (∀ q, ¬ ValueFault n u q) →
    RedundancyFault n u (unpackBytes (geometry (unitLength n)) u) p →
    exec .decode s = .next (failedWith s 6#4 (BitVec.ofNat 32 p)))

/-- R208: TO_TEXT fails with INDEX_RANGE at the lowest failing position; ENCODE never does. -/
def Obligations.IndexRangeReported : Prop :=
  (∀ (s : State) (p : Nat), s.unitLen.toNat ≤ unitCap s.rawCap → IndexFault (s.content .unit) p →
    (∀ q, q < p → ¬ IndexFault (s.content .unit) q) →
    exec .toText s = .next (failedWith s 7#4 (BitVec.ofNat 32 p))) ∧
  (∀ s t : State, exec .encode s = .next t → t.errCode ≠ 7#4)

/-! ## The transcoder -/

/-- R15: the stream of a byte buffer has `8N` bits, stream bit `s` being bit `7 - (s mod 8)` of byte `s div 8`, and a k-bit
value taken from it has its first stream bit as its most significant. -/
def Obligations.StreamIsMostSignificantFirst : Prop :=
  (∀ b : List Byte, (bitStream b).length = 8 * b.length) ∧
  (∀ (b : List Byte) (s : Nat), s < 8 * b.length → (bitStream b)[s]? = some (streamBit b s)) ∧
  (∀ (bs : List Bool) (j : Nat), j < bs.length → bs[j]? = some ((valueOf bs).testBit (bs.length - 1 - j)))

/-- R144, R143: PACK's group units: pair `k` holds the top 5 and the low 8 bits of the 13-bit group value, which is also the
value of the three-byte window; the whole has `UnitLen(N)` units. -/
def Obligations.PackEmitsGroupPairs : Prop :=
  ∀ b : List Byte, (packUnits b).length = unitLength b.length ∧
    ∀ k, k < 8 * b.length / 13 →
      (packUnits b)[2 * k]? = some (BitVec.ofNat 8 (groupSum b k / 2 ^ 8)) ∧
      (packUnits b)[2 * k + 1]? = some (BitVec.ofNat 8 (groupSum b k % 2 ^ 8)) ∧
      groupSum b k < 2 ^ 13 ∧ groupWindow b k = groupSum b k

/-- R145, R146: PACK's tail by the residue, on a non-empty buffer; an empty buffer has no unit at all. -/
def Obligations.PackEmitsTailBand : Prop :=
  packUnits [] = [] ∧
  ∀ b : List Byte, b ≠ [] →
    let n := b.length
    let m := 8 * n % 13
    let t := (packUnits b).drop (2 * (8 * n / 13))
    (m = 0 → t = [0x00#8]) ∧
    (1 ≤ m ∧ m ≤ 6 → t = [BitVec.ofNat 8 ((nth b (n - 1)).toNat % 64)]) ∧
    (7 ≤ m ∧ m ≤ 8 → t = [0x00#8, nth b (n - 1)]) ∧
    (9 ≤ m → t = [BitVec.ofNat 8 ((nth b (n - 2)).toNat % 16), nth b (n - 1)])

/-- R149, R150: the unpack geometry of `UnitLen(N)` gives back `N`, its groups and its residue, for every `N ≥ 1`. -/
def Obligations.GeometryInvertsUnitLength : Prop :=
  ∀ n, 1 ≤ n → geometry (unitLength n) =
    { tailLen := if 8 * n % 13 ≤ 6 then 1 else 2, groups := 8 * n / 13, numbits := 13 * (8 * n / 13),
      outLen := n, tailBits := 8 * n % 13 }

/-- R151, R160: the valid lengths are those of some pack; the others are 1 and the lengths from 2 of residue 0, 6 or 11 mod
16, which are those of two tail units with `g mod 8` 2 or 7 and those of one tail unit with `g mod 8` 5. -/
def Obligations.ValidLengthsAreThoseOfPack : Prop :=
  ∀ len, 1 ≤ len →
    (lengthValid (geometry len) = true ↔ ∃ n, 1 ≤ n ∧ len = unitLength n) ∧
    (lengthValid (geometry len) = false ↔
      len = 1 ∨ (2 ≤ len ∧ (len % 16 = 0 ∨ len % 16 = 6 ∨ len % 16 = 11))) ∧
    (2 ≤ len → (lengthValid (geometry len) = false ↔
      ((geometry len).tailLen = 2 ∧ ((geometry len).groups % 8 = 2 ∨ (geometry len).groups % 8 = 7)) ∨
      ((geometry len).tailLen = 1 ∧ (geometry len).groups % 8 = 5)))

/-- R159: `UnitLen` is strictly increasing, so a unit buffer fits UNIT exactly when its bytes fit RAW; within one `g` the
tail length rises from 1 to 2, and from `g` to `g+1` the length rises from at most `2g+2` to at least `2g+3`. R161: the length
for `N > 0` and its density bound `16N/13 + 2`. -/
def Obligations.UnitLengthStrictlyIncreases : Prop :=
  (∀ n n', n < n' → unitLength n < unitLength n') ∧
  (∀ (c : Config.RawCap) (n : Nat), unitLength n ≤ unitCap c ↔ n ≤ c.val) ∧
  (∀ n, 1 ≤ n → groupCount (n + 1) = groupCount n →
    unitLength n = 2 * groupCount n + 1 ∧ unitLength (n + 1) = 2 * groupCount n + 2) ∧
  (∀ n, groupCount (n + 1) = groupCount n + 1 →
    unitLength n ≤ 2 * groupCount n + 2 ∧ 2 * groupCount n + 3 ≤ unitLength (n + 1)) ∧
  (∀ n, 0 < n → (unitLength n = 2 * (8 * n / 13) + 1 ∨ unitLength n = 2 * (8 * n / 13) + 2) ∧
    13 * unitLength n ≤ 16 * n + 26)

/-- R153: the stream of the bytes UNPACK builds from a buffer of `UnitLen(n)` units whose group units are in range: stream
bit `13k+j` is bit `12-j` of the group value, and the last `m` bits are the low bits of the tail. -/
def Obligations.UnpackBuildsTheStream : Prop :=
  ∀ (n : Nat) (u : List Byte), 1 ≤ n → u.length = unitLength n → (∀ q, ¬ ValueFault n u q) →
    let b := unpackBytes (geometry u.length) u
    let g := 8 * n / 13
    let m := 8 * n % 13
    b.length = n ∧
    (∀ k j, k < g → j < 13 →
      streamBit b (13 * k + j) = ((nth u (2 * k)).toNat * 256 + (nth u (2 * k + 1)).toNat).testBit (12 - j)) ∧
    (∀ j, j < m → m ≤ 8 → streamBit b (13 * g + j) = (nth u (u.length - 1)).getLsbD (m - 1 - j)) ∧
    (∀ j, j < m → 9 ≤ m → streamBit b (13 * g + j) =
      ((nth u (u.length - 2)).toNat * 256 + (nth u (u.length - 1)).toNat).testBit (m - 1 - j))

/-- R158: PACK and UNPACK are inverse: every packed buffer unpacks to its bytes, and every buffer that unpacks is the
pack of the result. -/
def Obligations.UnpackInvertsPack : Prop :=
  (∀ b : List Byte, unpackUnits (packUnits b) = .ok b) ∧
  (∀ u b : List Byte, unpackUnits u = .ok b → packUnits b = u)

/-! ## The symbol codec and the alphabet -/

/-- R174: ToText and FromText preserve the length, which is two symbols for each pair and one for a lone unit. R175: under an
alphabet, ToText maps the unit buffers without an index fault one-to-one onto the strings FromText accepts, and FromText is
its inverse. -/
def Obligations.TextIsBijective : Prop :=
  (∀ (f : ForwardTable) (u t : List Byte), toText f u = .ok t →
    t.length = u.length ∧ t.length = 2 * (u.length / 2) + u.length % 2) ∧
  (∀ (r : ReverseTable) (t u : List Byte), fromText r t = .ok u → u.length = t.length) ∧
  ∀ (f : ForwardTable) (r : ReverseTable), AlphabetOk f r →
    (∀ u : List Byte, (∀ p, ¬ IndexFault u p) → ∃ t, toText f u = .ok t ∧ fromText r t = .ok u) ∧
    (∀ t u : List Byte, fromText r t = .ok u → (∀ p, ¬ IndexFault u p) ∧ toText f u = .ok t) ∧
    (∀ t : List Byte, (∀ p, p < t.length → ∃ i : Fin 94, symbolAt f i = nth t p) → ∃ u, fromText r t = .ok u)

/-- R176: on the output of PACK every pair is at most 8191, so its first index is at most 87, and a lone tail unit is at most
63, so ToText cannot fail. -/
def Obligations.PackOutputHasSymbols : Prop :=
  ∀ b : List Byte,
    (∀ k, 2 * k + 1 < (packUnits b).length →
      (nth (packUnits b) (2 * k)).toNat * 256 + (nth (packUnits b) (2 * k + 1)).toNat ≤ 8191 ∧
      ((nth (packUnits b) (2 * k)).toNat * 256 + (nth (packUnits b) (2 * k + 1)).toNat) / 94 ≤ 87) ∧
    ((packUnits b).length % 2 = 1 → (nth (packUnits b) ((packUnits b).length - 1)).toNat ≤ 63) ∧
    ∀ f : ForwardTable, ∃ t, toText f (packUnits b) = .ok t

/-- R47: an alphabet is a permutation of the codes 33..126: every such code is a symbol, and `REV[c].VALID = 1` exactly for
them, so the two failure conditions of FROM_TEXT select the same characters. -/
def Obligations.AlphabetIsAPermutation : Prop :=
  ∀ (f : ForwardTable) (r : ReverseTable), AlphabetOk f r →
    (∀ c, 33 ≤ c → c ≤ 126 → ∃ i : Fin 94, (f[i.val]).toNat = c) ∧
    (∀ c : Byte, revValid r c = true ↔ 33 ≤ c.toNat ∧ c.toNat ≤ 126) ∧
    (∀ c : Byte, illegalChar r c = true ↔ c.toNat < 33 ∨ 126 < c.toNat)

/-! ## Composite commands -/

/-- D22, R190, R191: when `RAW_LEN` is within the capacity, ENCODE leaves the state that PACK followed by TO_TEXT leaves; and
when FROM_TEXT succeeds and then UNPACK succeeds, DECODE leaves the state the two leave. -/
def Obligations.CompositesAreTheirStages : Prop :=
  (∀ s p : State, s.rawLen.toNat ≤ s.rawCap.val → exec .pack s = .next p → exec .encode s = exec .toText p) ∧
  (∀ s p q : State, exec .fromText s = .next p → p.errCode = 0#4 → exec .unpack p = .next q → q.errCode = 0#4 →
    exec .decode s = .next q)

/-- R194: under every alphabet, ENCODE and then DECODE succeeds and gives back `RAW[0..N)` and `RAW_LEN`, for every
`N ≤ RAW_CAP`. -/
def Obligations.EncodeDecodeRoundTrip : Prop :=
  ∀ s : State, AlphabetOk s.fwd s.rev → s.rawLen.toNat ≤ s.rawCap.val →
    ∃ t u, exec .encode s = .next t ∧ t.errCode = 0#4 ∧ exec .decode t = .next u ∧ u.errCode = 0#4 ∧
      u.content .raw = s.content .raw ∧ u.rawLen = s.rawLen

/-! ## The host port -/

/-- R25, R26, R27: the constant registers read their constants, and writes to them have no effect. R66: an aligned write to a
read-only register or window gets OKAY and has no effect, busy or not. -/
def Obligations.ReadOnlyTargets : Prop :=
  (∀ (s : State) (d : Word),
    s.memRead 0x00000#18 = (.okay, 0xB0940007#32) ∧ s.memWrite 0x00000#18 d = (s, .okay) ∧
    s.memRead 0x00004#18 = (.okay, BitVec.ofNat 32 s.rawCap.val) ∧ s.memWrite 0x00004#18 d = (s, .okay) ∧
    s.memRead 0x00008#18 = (.okay, BitVec.ofNat 32 (unitLength s.rawCap.val)) ∧
    s.memWrite 0x00008#18 d = (s, .okay) ∧ s.cap .unit = unitLength s.rawCap.val ∧ s.cap .text = s.cap .unit) ∧
  ∀ (s : State) (a : HostAddr) (d : Word), a.toNat % 4 = 0 →
    (a.toNat ∈ [0x00, 0x04, 0x08, 0x1C, 0x20] ∨ (0x500 ≤ a.toNat ∧ a.toNat < 0x560) ∨
      (0x600 ≤ a.toNat ∧ a.toNat < 0x680) ∨ (0x700 ≤ a.toNat ∧ a.toNat < 0x760)) →
    s.memWrite a d = (s, .okay)

/-- R63: a transaction at an address that is not a multiple of 4 gets SLVERR, has no effect and reads 0. R65: so does an
aligned one to an address that no row of the address map (R61) covers. -/
def Obligations.RefusedTransactionsHaveNoEffect : Prop :=
  ∀ (s : State) (a : HostAddr) (d : Word),
    (a.toNat % 4 ≠ 0 ∨
      (a.toNat % 4 = 0 ∧
        a.toNat ∉ [0x00, 0x04, 0x08, 0x10, 0x14, 0x18, 0x1C, 0x20, 0x24, 0x28, 0x30, 0x34, 0x38, 0x3C] ∧
        ¬ (0x400 ≤ a.toNat ∧ a.toNat < 0x480) ∧ ¬ (0x500 ≤ a.toNat ∧ a.toNat < 0x560) ∧
        ¬ (0x600 ≤ a.toNat ∧ a.toNat < 0x680) ∧ ¬ (0x700 ≤ a.toNat ∧ a.toNat < 0x760) ∧ a.toNat < 0x10000)) →
    s.memRead a = (.slverr, 0#32) ∧ s.memWrite a d = (s, .slverr)

/-- R72, R245: while busy, a write to a protected register or to a backed word of a RAM window sets `STATUS.DROPPED`, changes
nothing else and gets SLVERR. Beyond the capacity it gets SLVERR and may set `DROPPED` (log entry 7: the model leaves that free);
CTRL, STATUS, IRQ_STATUS and IRQ_ENABLE are never dropped. -/
def Obligations.BusyWritesAreDropped : Prop :=
  ∀ (s : State) (d : Word), s.busy = true →
    (∀ a : HostAddr, a.toNat ∈ [0x14, 0x30, 0x34, 0x38, 0x3C] →
      s.memWrite a d = ({ s with dropped := true }, .slverr)) ∧
    (∀ (arr : Arr) (o : Nat), o % 4 = 0 → o < s.cap arr →
      s.memWrite (BitVec.ofNat 18 (arr.base + o)) d = ({ s with dropped := true }, .slverr)) ∧
    (∀ (arr : Arr) (o : Nat), o % 4 = 0 → s.cap arr ≤ o → o < arr.window →
      ∃ b : Bool, s.memWrite (BitVec.ofNat 18 (arr.base + o)) d = ({ s with dropped := s.dropped || b }, .slverr)) ∧
    (∀ a : HostAddr, a.toNat ∈ [0x10, 0x18, 0x24, 0x28] → (s.memWrite a d).2 = .okay)

/-- R68, R69, R71: while idle, a write to a backed word of a RAM window stores its four bytes, the least significant first,
but for those beyond the capacity, and changes nothing else; at or beyond the capacity it has no effect. -/
def Obligations.IdleWindowWrite : Prop :=
  ∀ (s : State) (arr : Arr) (o : Nat) (d : Word), s.busy = false → o % 4 = 0 → o < arr.window →
    (o < s.cap arr → ∃ t, s.memWrite (BitVec.ofNat 18 (arr.base + o)) d = (t, .okay) ∧
      t = { s with mem := t.mem } ∧
      (∀ j, j < 4 → o + j < s.cap arr → t.elem arr (o + j) = d.extractLsb' (8 * j) 8) ∧
      SameOutside s t (arr.base + o) (min 4 (s.cap arr - o))) ∧
    (s.cap arr ≤ o → s.memWrite (BitVec.ofNat 18 (arr.base + o)) d = (s, .slverr))

/-- R61, R68, R69, R70: while idle, a read of a window's word gives its four bytes, the least significant first, those beyond
the backed bytes 0; at or beyond a RAM array's capacity it gets SLVERR and 0. -/
def Obligations.IdleWindowRead : Prop :=
  ∀ (s : State) (o j : Nat), s.busy = false → o % 4 = 0 → j < 4 →
    (∀ arr : Arr, o < s.cap arr → ∃ d, s.memRead (BitVec.ofNat 18 (arr.base + o)) = (.okay, d) ∧
      d.extractLsb' (8 * j) 8 = if o + j < s.cap arr then s.elem arr (o + j) else 0#8) ∧
    (∀ arr : Arr, s.cap arr ≤ o → o < arr.window →
      s.memRead (BitVec.ofNat 18 (arr.base + o)) = (.slverr, 0#32)) ∧
    (o < 0x60 → ∃ d, s.memRead (BitVec.ofNat 18 (0x500 + o)) = (.okay, d) ∧
      d.extractLsb' (8 * j) 8 = if h : o + j < 94 then (s.fwd[o + j]).setWidth 8 else 0#8) ∧
    (o < 0x80 → ∃ d, s.memRead (BitVec.ofNat 18 (0x600 + o)) = (.okay, d) ∧
      d.extractLsb' (8 * j) 8 = if h : o + j < 128 then s.rev[o + j] else 0#8) ∧
    (o < 0x60 → ∃ d, s.memRead (BitVec.ofNat 18 (0x700 + o)) = (.okay, d) ∧
      d.extractLsb' (8 * j) 8 = if h : o + j < 94 then (stdTable[o + j]).setWidth 8 else 0#8)

/-- R73, R246: while busy, a register reads its current value, among them the length registers, `ERR_CODE` and `ERR_INFO`, the
ROM window reads as when idle, and a read of a backed word of any other window gets OKAY with a value the model leaves free (log
entry 5). -/
def Obligations.BusyReads : Prop :=
  ∀ s : State, s.busy = true →
    (∀ r : Reg, s.memRead (BitVec.ofNat 18 r.offset) = (.okay, s.readReg r)) ∧
    s.memRead 0x00030#18 = (.okay, s.rawLen) ∧ s.memRead 0x00034#18 = (.okay, s.unitLen) ∧
    s.memRead 0x00038#18 = (.okay, s.textLen) ∧ s.memRead 0x0003C#18 = (.okay, s.alphaLen) ∧
    s.memRead 0x0001C#18 = (.okay, s.errCode.setWidth 32) ∧ s.memRead 0x00020#18 = (.okay, s.errInfo) ∧
    (∀ o, o % 4 = 0 → o < 0x60 → s.memRead (BitVec.ofNat 18 (0x700 + o)) =
      { s with busy := false }.memRead (BitVec.ofNat 18 (0x700 + o))) ∧
    (∀ (arr : Arr) (o : Nat), o % 4 = 0 → o < s.cap arr →
      (s.memRead (BitVec.ofNat 18 (arr.base + o))).1 = .okay) ∧
    (∀ o, o % 4 = 0 → (o < 0x60 → (s.memRead (BitVec.ofNat 18 (0x500 + o))).1 = .okay) ∧
      (o < 0x80 → (s.memRead (BitVec.ofNat 18 (0x600 + o))).1 = .okay))

/-- R74: no read changes any state, nor does a jump of the host; reading again gives the same, but where the value is
unspecified; and a host that has nothing to issue changes nothing. -/
def Obligations.ReadsHaveNoEffect : Prop :=
  ∀ s : State,
    (∀ (a : HostAddr) (name : Option Nat), SameBlock s (s.perform (.rd a name)) ∧
      ∀ a' : HostAddr, (s.busy = false ∨ ∀ w o, targetAt a'.toNat = .win w o → w = .std) →
        (s.perform (.rd a name)).memRead a' = s.memRead a') ∧
    (∀ (n : Nat) (mask : Word) (target : Nat), SameBlock s (s.perform (.bnz n mask target))) ∧
    (s.host.finished = true → s.hostStep = s)

/-- R36 to R39, R71: while idle the host may write any value to a length register; it is held as written and nothing else
changes. -/
def Obligations.LengthRegistersHoldAnyValue : Prop :=
  ∀ (s : State) (d : Word), s.busy = false →
    s.memWrite 0x00030#18 d = ({ s with rawLen := d }, .okay) ∧
    s.memWrite 0x00034#18 d = ({ s with unitLen := d }, .okay) ∧
    s.memWrite 0x00038#18 d = ({ s with textLen := d }, .okay) ∧
    s.memWrite 0x0003C#18 d = ({ s with alphaLen := d }, .okay) ∧
    s.memRead 0x00030#18 = (.okay, s.rawLen) ∧ s.memRead 0x00034#18 = (.okay, s.unitLen) ∧
    s.memRead 0x00038#18 = (.okay, s.textLen) ∧ s.memRead 0x0003C#18 = (.okay, s.alphaLen)

/-! ## Status, interrupt, reset -/

/-- R30, R31, R32, R29, R67: the bits STATUS and ERR_CODE read; ERR_INFO reads the `info` held, and CMD reads 0; a write to STATUS,
busy or not, clears `DROPPED` where bit 2 is 1 and changes nothing else. -/
def Obligations.StatusRegister : Prop :=
  ∀ (s : State) (d : Word),
    (∃ w, s.memRead 0x00018#18 = (.okay, w) ∧
      w.getLsbD 0 = s.busy ∧ w.getLsbD 1 = decide (s.errCode ≠ 0#4) ∧ w.getLsbD 2 = s.dropped ∧
      w.getLsbD 3 = false ∧ w.extractLsb' 4 4 = s.lastOp ∧ w.extractLsb' 8 24 = 0#24) ∧
    (∃ w, s.memRead 0x0001C#18 = (.okay, w) ∧ w.toNat = s.errCode.toNat) ∧
    s.memRead 0x00020#18 = (.okay, s.errInfo) ∧ s.memRead 0x00014#18 = (.okay, 0#32) ∧
    s.memWrite 0x00018#18 d = ({ s with dropped := s.dropped && !d.getLsbD 2 }, .okay)

/-- R33, R34, R35, R215: the bits IRQ_STATUS and IRQ_ENABLE read; a write to either is never dropped: it clears the pending
bits written as 1, or takes the enable bits, and changes nothing else. The interrupt output is a function of those bits, and
0 after either reset. -/
def Obligations.InterruptRegistersAndOutput : Prop :=
  (∀ (s : State) (d : Word),
    (∃ w, s.memRead 0x00024#18 = (.okay, w) ∧ w.toNat = s.irqDone.toNat + 2 * s.irqError.toNat) ∧
    (∃ w, s.memRead 0x00028#18 = (.okay, w) ∧ w.toNat = s.doneEn.toNat + 2 * s.errorEn.toNat) ∧
    s.memWrite 0x00024#18 d =
      ({ s with irqDone := s.irqDone && !d.getLsbD 0, irqError := s.irqError && !d.getLsbD 1 }, .okay) ∧
    s.memWrite 0x00028#18 d = ({ s with doneEn := d.getLsbD 0, errorEn := d.getLsbD 1 }, .okay)) ∧
  (∀ s : State, s.irq =
    ((s.readReg .irqStatus).getLsbD 0 && (s.readReg .irqEnable).getLsbD 0 ||
      (s.readReg .irqStatus).getLsbD 1 && (s.readReg .irqEnable).getLsbD 1)) ∧
  State.reset.irq = false ∧ ∀ s : State, s.resetBlock.irq = false

/-- R28: a write to CTRL with bit 0 set resets the block in the same step, busy or not; with bit 0 clear it has no effect;
CTRL reads 0. -/
def Obligations.ControlRegister : Prop :=
  ∀ (s : State) (d : Word),
    (d.getLsbD 0 = true → s.memWrite 0x00010#18 d = (s.resetBlock, .okay)) ∧
    (d.getLsbD 0 = false → s.memWrite 0x00010#18 d = (s, .okay)) ∧
    s.memRead 0x00010#18 = (.okay, 0#32)

/-- R240, R241, R243: each reset source leaves every register of R241 at its value, the standard alphabet active with REV its
inverse, the constants unaffected and no command pending. The bytes of the arrays, which R241 leaves unspecified, are not
constrained. -/
def Obligations.ResetState : Prop :=
  ∀ t : State, (t = State.reset ∨ ∃ s : State, t = s.resetBlock ∨ t = (s.memWrite 0x00010#18 1#32).1 ∨
      t = s.perform .resetPin) →
    (∀ r ∈ [Reg.ctrl, .status, .errCode, .errInfo, .irqStatus, .irqEnable, .rawLen, .unitLen, .textLen, .alphaLen],
      t.readReg r = 0#32) ∧
    t.readReg .id = 0xB0940007#32 ∧ t.irq = false ∧ t.fwd = stdTable ∧ AlphabetOk t.fwd t.rev ∧
    t.readReg .rawCapReg = BitVec.ofNat 32 t.rawCap.val ∧
    t.readReg .unitCapReg = BitVec.ofNat 32 (unitLength t.rawCap.val) ∧
    (∀ o, t.windowWord .std o = State.reset.windowWord .std o) ∧ t.engineTurn = false ∧
    ∀ s : State, t = s.resetBlock ∨ t = (s.memWrite 0x00010#18 1#32).1 ∨ t = s.perform .resetPin → t.rawCap = s.rawCap

/-- R242: a reset while busy discards the pending command: it never completes, sets no DONE and writes nothing. That a byte of
the arrays is then the free value `Config.ramByte` of the new count of resets is the model's choice (log entry 4). -/
def Obligations.ResetDiscardsPendingCommand : Prop :=
  ∀ s t : State, s.busy = true → (t = s.perform .resetPin ∨ t = s.perform (.wr 0x00010#18 1#32)) →
    t.busy = false ∧ t.irqDone = false ∧ t.engineTurn = false ∧
    t.rawLen = 0#32 ∧ t.unitLen = 0#32 ∧ t.textLen = 0#32 ∧
    ∀ a, t.byteAt a = Config.ramByte t.resets a

/-! ## The invariant -/

/-- R46, R201, R32, R200, R49 and the canonical form of memory: the invariant holds right after reset. -/
def Obligations.InvariantHoldsAtReset : Prop := Inv State.reset

/-- R46, R201, R32, R200, R49, R120: every step keeps the invariant: the memory's canonical form and its bounds, the alphabet, the
error codes. -/
def Obligations.EveryStepKeepsTheInvariant : Prop :=
  ∀ s t : State, Inv s → step s = .next t → Inv t
end

