-- ==== Sys2Proof/Laws/Bits.lean ====
section
/-! SUPPORT. Bits and values: `bitsOf` and `valueOf` are inverse on `w` bits; cutting a stream into values of `w` bits and
writing the values out again gives the stream.
-/

namespace Sys2Proof.Machine

@[simp] theorem bitsOf_length (w v : Nat) : (bitsOf w v).length = w := by simp [bitsOf]

theorem bitsOf_getElem? (w v j : Nat) (h : j < w) : (bitsOf w v)[j]? = some (v.testBit (w - 1 - j)) := by
  simp [bitsOf, h]

@[simp] theorem bitsOf_zero (v : Nat) : bitsOf 0 v = [] := rfl

/-- The low `w` bits depend on the value's low `w` bits only. -/
theorem bitsOf_mod (w v k : Nat) (h : w ≤ k) : bitsOf w (v % 2 ^ k) = bitsOf w v := by
  unfold bitsOf
  apply List.map_congr_left
  intro j hj
  rw [List.mem_range] at hj
  rw [Nat.testBit_mod_two_pow]
  have : w - 1 - j < k := by omega
  simp [this]

/-- The high bits, then the low ones. -/
theorem bitsOf_append (a b v : Nat) : bitsOf (a + b) v = bitsOf a (v / 2 ^ b) ++ bitsOf b v := by
  apply List.ext_getElem?
  intro j
  by_cases h1 : j < a
  · rw [List.getElem?_append_left (by simpa using h1), bitsOf_getElem? _ _ _ h1, bitsOf_getElem? _ _ _ (by omega),
      Nat.testBit_div_two_pow]
    congr 2
    omega
  · rw [List.getElem?_append_right (by simpa using h1), bitsOf_length]
    by_cases h2 : j < a + b
    · rw [bitsOf_getElem? _ _ _ h2, bitsOf_getElem? _ _ _ (by omega)]
      congr 2
      omega
    · rw [List.getElem?_eq_none (by simp; omega), List.getElem?_eq_none (by simp; omega)]

theorem bitsOf_succ (w v : Nat) : bitsOf (w + 1) v = bitsOf w (v / 2) ++ [v.testBit 0] := by
  rw [bitsOf_append w 1 v]
  simp [bitsOf]

theorem valueOf_append_singleton (bs : List Bool) (b : Bool) : valueOf (bs ++ [b]) = 2 * valueOf bs + b.toNat := by
  simp [valueOf]

/-- The value of the low `w` bits. -/
theorem valueOf_bitsOf (w v : Nat) : valueOf (bitsOf w v) = v % 2 ^ w := by
  induction w generalizing v with
  | zero => simp [valueOf, Nat.mod_one]
  | succ w ih =>
    rw [bitsOf_succ, valueOf_append_singleton, ih, Nat.testBit_zero, Nat.pow_succ, Nat.mul_comm (2 ^ w) 2,
      Nat.mod_mul]
    rcases Nat.mod_two_eq_zero_or_one v with h | h
    · simp [h]
    · simp [h]
      omega

theorem valueOf_lt (bs : List Bool) : valueOf bs < 2 ^ bs.length := by
  induction bs using List.reverseRecOn with
  | nil => simp [valueOf]
  | append_singleton bs b ih =>
    rw [valueOf_append_singleton, List.length_append, List.length_singleton, Nat.pow_succ]
    cases b <;> simp <;> omega

/-- Writing out the value of `w` bits gives the bits. -/
theorem bitsOf_valueOf (bs : List Bool) : bitsOf bs.length (valueOf bs) = bs := by
  induction bs using List.reverseRecOn with
  | nil => rfl
  | append_singleton bs b ih =>
    rw [List.length_append, List.length_singleton, bitsOf_succ, valueOf_append_singleton]
    have h1 : (2 * valueOf bs + b.toNat) / 2 = valueOf bs := by cases b <;> simp; omega
    have h2 : (2 * valueOf bs + b.toNat).testBit 0 = b := by cases b <;> simp [Nat.testBit_zero]
    rw [h1, h2, ih]

/-! ### Chunks -/

@[simp] theorem chunks_length (w n : Nat) (bs : List Bool) : (chunks w n bs).length = n := by
  induction n generalizing bs with
  | zero => rfl
  | succ n ih => simp [chunks, ih]

theorem chunks_getElem? (w n : Nat) (bs : List Bool) (k : Nat) (h : k < n) :
    (chunks w n bs)[k]? = some (valueOf ((bs.drop (w * k)).take w)) := by
  induction n generalizing bs k with
  | zero => omega
  | succ n ih =>
    cases k with
    | zero => simp [chunks]
    | succ k =>
      rw [chunks, List.getElem?_cons_succ, ih _ _ (by omega), List.drop_drop]
      congr 4
      rw [Nat.mul_succ]
      omega

theorem chunks_lt (w n : Nat) (bs : List Bool) (h : w * n ≤ bs.length) : ∀ v ∈ chunks w n bs, v < 2 ^ w := by
  induction n generalizing bs with
  | zero => simp [chunks]
  | succ n ih =>
    have hw : w * (n + 1) = w * n + w := Nat.mul_succ w n
    intro v hv
    rw [chunks, List.mem_cons] at hv
    rcases hv with rfl | hv
    · have := valueOf_lt (bs.take w)
      rwa [List.length_take, Nat.min_eq_left (by omega)] at this
    · exact ih (bs.drop w) (by rw [List.length_drop]; omega) v hv

/-- Writing out the values of a stream gives the stream's bits. -/
theorem flatMap_bitsOf_chunks (w n : Nat) (bs : List Bool) (h : w * n ≤ bs.length) :
    (chunks w n bs).flatMap (bitsOf w) = bs.take (w * n) := by
  induction n generalizing bs with
  | zero => simp [chunks]
  | succ n ih =>
    have hw : w * (n + 1) = w + w * n := by rw [Nat.mul_succ]; omega
    rw [chunks, List.flatMap_cons, ih _ (by rw [List.length_drop]; omega), hw, List.take_add]
    congr 1
    have := bitsOf_valueOf (bs.take w)
    rwa [List.length_take, Nat.min_eq_left (by omega)] at this

/-- Cutting what values wrote out gives the values. -/
theorem chunks_flatMap_bitsOf (w : Nat) (vs : List Nat) (rest : List Bool) (h : ∀ v ∈ vs, v < 2 ^ w) :
    chunks w vs.length (vs.flatMap (bitsOf w) ++ rest) = vs := by
  induction vs with
  | nil => rfl
  | cons v vs ih =>
    rw [List.length_cons, chunks, List.flatMap_cons, List.append_assoc]
    rw [List.take_left' (bitsOf_length w v), List.drop_left' (bitsOf_length w v), valueOf_bitsOf,
      Nat.mod_eq_of_lt (h v (by simp)), ih fun x hx => h x (by simp [hx])]

/-! ### The stream of a byte buffer -/

@[simp] theorem bitStream_nil : bitStream [] = [] := rfl

@[simp] theorem bitStream_append (a b : List Byte) : bitStream (a ++ b) = bitStream a ++ bitStream b := by
  simp [bitStream]

@[simp] theorem bitStream_length (b : List Byte) : (bitStream b).length = 8 * b.length := by
  induction b with
  | nil => rfl
  | cons x b ih =>
    simp only [bitStream, List.flatMap_cons, List.length_append, bitsOf_length, List.length_cons] at *
    omega

/-- The bytes of a stream of whole bytes have that stream. -/
theorem bitStream_chunks (n : Nat) (bs : List Bool) (h : bs.length = 8 * n) :
    bitStream ((chunks 8 n bs).map (BitVec.ofNat 8)) = bs := by
  have hl : ∀ v ∈ chunks 8 n bs, v < 2 ^ 8 := chunks_lt 8 n bs (by omega)
  have := flatMap_bitsOf_chunks 8 n bs (by omega)
  rw [← h, List.take_length] at this
  rw [bitStream, List.flatMap_map]
  refine Eq.trans (List.flatMap_congr fun v hv => ?_) this
  rw [BitVec.toNat_ofNat, Nat.mod_eq_of_lt (hl v hv)]

/-- The stream of bytes cut into bytes is the bytes. -/
theorem chunks_bitStream (b : List Byte) : (chunks 8 b.length (bitStream b)).map (BitVec.ofNat 8) = b := by
  have h := chunks_flatMap_bitsOf 8 (b.map BitVec.toNat) [] (by
    intro v hv
    rw [List.mem_map] at hv
    obtain ⟨x, -, rfl⟩ := hv
    exact x.isLt)
  rw [List.append_nil, List.flatMap_map, List.length_map] at h
  rw [bitStream, h, List.map_map]
  refine Eq.trans (List.map_congr_left fun x _ => ?_) (List.map_id b)
  simp

end Sys2Proof.Machine
end

