-- ==== Sys2Proof/Laws/Transcoder.lean ====
section
/-! SUPPORT. What the transcoder's helpers do, said once: an element of a sequence, the group pairs and the group values, the
units over 31, a bit field.
-/

namespace Sys2Proof.Machine

/-! ### Elements -/

theorem nth_append_left (a b : List Byte) (i : Nat) (h : i < a.length) : nth (a ++ b) i = nth a i := by
  simp [nth, List.getD_eq_getElem?_getD, List.getElem?_append_left h]

theorem nth_append_right (a b : List Byte) (i : Nat) (h : a.length ≤ i) : nth (a ++ b) i = nth b (i - a.length) := by
  simp [nth, List.getD_eq_getElem?_getD, List.getElem?_append_right h]

theorem nth_eq_getElem (a : List Byte) (i : Nat) (h : i < a.length) : nth a i = a[i] := by
  simp [nth, List.getD_eq_getElem?_getD, h]

theorem getElem?_eq_nth (a : List Byte) (i : Nat) (h : i < a.length) : a[i]? = some (nth a i) := by
  rw [nth_eq_getElem a i h]
  simp [h]

theorem nth_cons_succ (x : Byte) (a : List Byte) (i : Nat) : nth (x :: a) (i + 1) = nth a i := by simp [nth]

theorem nth_drop (a : List Byte) (n i : Nat) : nth (a.drop n) i = nth a (n + i) := by
  simp [nth, List.getD_eq_getElem?_getD, List.getElem?_drop]

/-! ### Lengths -/

theorem unitLength_pos (n : Nat) (h : 1 ≤ n) :
    unitLength n = 2 * (8 * n / 13) + (if 8 * n % 13 ≤ 6 then 1 else 2) := by
  unfold unitLength residue groupCount
  rw [if_neg (by omega)]
  split <;> rfl

/-! ### Group pairs and group values -/

theorem flatMap_groupPair_length (vs : List Nat) : (vs.flatMap groupPair).length = 2 * vs.length := by
  induction vs with
  | nil => rfl
  | cons v vs ih =>
    simp only [List.flatMap_cons, List.length_append, ih, List.length_cons]
    simp [groupPair]
    omega

/-- The values of the pairs that `groupPair` emits are the values it was given. -/
theorem groupValues_groupPairs (vs : List Nat) (rest : List Byte) (h : ∀ v ∈ vs, v < 65536) :
    groupValues vs.length (vs.flatMap groupPair ++ rest) = vs := by
  induction vs with
  | nil => rfl
  | cons v vs ih =>
    have := h v (by simp)
    simp only [List.flatMap_cons, groupPair, List.length_cons, List.cons_append, List.nil_append, groupValues]
    rw [ih fun x hx => h x (by simp [hx])]
    congr 1
    simp only [BitVec.toNat_ofNat]
    omega

/-- The group values of a buffer that holds the pairs: how many, each one, and that their pairs are the buffer's units. -/
theorem groupValues_spec (g : Nat) (u : List Byte) (h : 2 * g ≤ u.length) :
    (groupValues g u).length = g ∧ (groupValues g u).flatMap groupPair = u.take (2 * g) ∧
    ∀ k, k < g →
      (groupValues g u)[k]? = some ((nth u (2 * k)).toNat * 256 + (nth u (2 * k + 1)).toNat) := by
  induction g generalizing u with
  | zero => simp [groupValues]
  | succ g ih =>
    match u, h with
    | hi :: lo :: rest, h =>
      have hr := ih rest (by simp at h; omega)
      simp only [groupValues]
      refine ⟨by simp [hr.1], ?_, ?_⟩
      · rw [List.flatMap_cons, hr.2.1, show 2 * (g + 1) = 2 * g + 1 + 1 by omega, List.take_succ_cons,
          List.take_succ_cons]
        simp only [groupPair, List.cons_append, List.nil_append, List.cons.injEq, and_true]
        have hl := lo.isLt
        have hh := hi.isLt
        constructor <;> (apply BitVec.eq_of_toNat_eq; rw [BitVec.toNat_ofNat]; omega)
      · intro k hk
        cases k with
        | zero => simp [nth]
        | succ k =>
          rw [List.getElem?_cons_succ, hr.2.2 k (by omega), show 2 * (k + 1) = 2 * k + 1 + 1 by omega]
          simp only [nth_cons_succ]
    | [], h => simp at h
    | [_], h => simp at h; omega

/-- The indices `badGroups` lists: those of the pairs' first units over 31 (R152). -/
theorem mem_badGroups (i g : Nat) (u : List Byte) (h : 2 * g ≤ u.length) (p : Nat) :
    p ∈ badGroups i g u ↔ ∃ k, k < g ∧ p = i + 2 * k ∧ 31 < (nth u (2 * k)).toNat := by
  induction g generalizing u i with
  | zero => simp [badGroups]
  | succ g ih =>
    match u, h with
    | hi :: lo :: rest, h =>
      have hr := ih (i + 2) rest (by simp at h; omega)
      have e : (∃ k, k < g + 1 ∧ p = i + 2 * k ∧ 31 < (nth (hi :: lo :: rest) (2 * k)).toNat) ↔
          (p = i ∧ 31 < hi.toNat) ∨ ∃ k, k < g ∧ p = i + 2 + 2 * k ∧ 31 < (nth rest (2 * k)).toNat := by
        constructor
        · rintro ⟨k, hk, hp, hx⟩
          cases k with
          | zero => left; simpa [nth] using ⟨hp, hx⟩
          | succ k =>
            right
            rw [show 2 * (k + 1) = 2 * k + 1 + 1 by omega, nth_cons_succ, nth_cons_succ] at hx
            exact ⟨k, by omega, by omega, hx⟩
        · rintro (⟨hp, hx⟩ | ⟨k, hk, hp, hx⟩)
          · exact ⟨0, by omega, by omega, by simpa [nth] using hx⟩
          · refine ⟨k + 1, by omega, by omega, ?_⟩
            rwa [show 2 * (k + 1) = 2 * k + 1 + 1 by omega, nth_cons_succ, nth_cons_succ]
      have hb : badGroups i (g + 1) (hi :: lo :: rest) =
          if 31 < hi.toNat then i :: badGroups (i + 2) g rest else badGroups (i + 2) g rest := rfl
      rw [e, ← hr, hb]
      split
      · rw [List.mem_cons]
        tauto
      · tauto
    | [], h => simp at h
    | [_], h => simp at h; omega

/-! ### Fields -/

theorem field_testBit (v : Byte) (hi lo j : Nat) :
    (field v hi lo).testBit j = (decide (j < hi + 1 - lo) && v.getLsbD (j + lo)) := by
  unfold field
  rw [Nat.testBit_mod_two_pow, Nat.testBit_div_two_pow]
  rfl

/-- Two fields are equal exactly when their bits are (R12). -/
theorem field_eq_iff (v w : Byte) (hi lo : Nat) :
    field v hi lo = field w hi lo ↔ ∀ j, lo ≤ j → j ≤ hi → v.getLsbD j = w.getLsbD j := by
  constructor
  · intro h j h1 h2
    have := congrArg (fun x => x.testBit (j - lo)) h
    simp only [field_testBit, show j - lo + lo = j by omega] at this
    simpa [show j - lo < hi + 1 - lo by omega] using this
  · intro h
    apply Nat.eq_of_testBit_eq
    intro j
    rw [field_testBit, field_testBit]
    by_cases hj : j < hi + 1 - lo
    · simp [hj, h (j + lo) (by omega) (by omega)]
    · simp [hj]

end Sys2Proof.Machine
end

