-- ==== Sys2Proof/Laws/Codec.lean ====
section
/-! SUPPORT. What the searches of the symbol codec and of BUILD_ALPHABET find, said once: the first illegal character, the
first bad symbol.
-/

namespace Sys2Proof.Machine

theorem symbolOf_of_lt (f : ForwardTable) (i : Nat) (h : i < 94) : symbolOf f i = some (symbolAt f ⟨i, h⟩) := by
  simp [symbolOf, h]

theorem symbolOf_of_ge (f : ForwardTable) (i : Nat) (h : 94 ≤ i) : symbolOf f i = none := by
  simp [symbolOf]
  omega

/-! ### The first illegal character (R172) -/

theorem firstIllegal_eq_none (r : ReverseTable) (p : Nat) (t : List Byte) :
    firstIllegal r p t = none ↔ ∀ c ∈ t, illegalChar r c = false := by
  induction t generalizing p with
  | nil => simp [firstIllegal]
  | cons c t ih =>
    unfold firstIllegal
    split
    · rename_i h
      simp [h]
    · rename_i h
      rw [ih]
      simp at h
      simp [h]

theorem firstIllegal_eq_some (r : ReverseTable) (p q : Nat) (t : List Byte) (hq : q < t.length)
    (h : illegalChar r (nth t q) = true) (hm : ∀ k, k < q → illegalChar r (nth t k) = false) :
    firstIllegal r p t = some (p + q) := by
  induction t generalizing p q with
  | nil => simp at hq
  | cons c t ih =>
    unfold firstIllegal
    cases q with
    | zero =>
      simp [nth] at h
      simp [h]
    | succ q =>
      have h0 := hm 0 (by omega)
      simp [nth] at h0
      rw [nth_cons_succ] at h
      rw [h0]
      have := ih (p + 1) q (by simpa using hq) h fun k hk => by
        have := hm (k + 1) (by omega)
        rwa [nth_cons_succ] at this
      simp [this]
      omega

/-! ### The first bad symbol (R130) -/

theorem firstBadSymbol_eq_none (i : Nat) (seen cs : List Byte) : firstBadSymbol i seen cs = none ↔
    ∀ k, k < cs.length → 33 ≤ (nth cs k).toNat ∧ (nth cs k).toNat ≤ 126 ∧ nth cs k ∉ seen ∧
      ∀ j, j < k → nth cs j ≠ nth cs k := by
  induction cs generalizing i seen with
  | nil => simp [firstBadSymbol]
  | cons c cs ih =>
    have z : nth (c :: cs) 0 = c := rfl
    unfold firstBadSymbol
    constructor
    · intro h
      split at h
      · cases h
      · rename_i h1
        split at h
        · cases h
        · rename_i h2
          rw [ih] at h
          intro k hk
          cases k with
          | zero =>
            rw [z]
            exact ⟨by omega, by omega, h2, fun j hj => by omega⟩
          | succ k =>
            have := h k (by simpa using hk)
            rw [nth_cons_succ]
            simp only [List.mem_cons, not_or] at this
            refine ⟨this.1, this.2.1, this.2.2.1.2, fun j hj => ?_⟩
            cases j with
            | zero =>
              rw [z]
              exact fun e => this.2.2.1.1 e.symm
            | succ j =>
              rw [nth_cons_succ]
              exact this.2.2.2 j (by omega)
    · intro h
      have h0 := h 0 (by simp)
      rw [z] at h0
      rw [if_neg (by omega), if_neg h0.2.2.1, ih]
      intro k hk
      have := h (k + 1) (by simpa using hk)
      rw [nth_cons_succ] at this
      refine ⟨this.1, this.2.1, ?_, fun j hj => ?_⟩
      · rw [List.mem_cons, not_or]
        exact ⟨fun e => this.2.2.2 0 (by omega) (by rw [z]; exact e.symm), this.2.2.1⟩
      · have := this.2.2.2 (j + 1) (by omega)
        rwa [nth_cons_succ] at this

end Sys2Proof.Machine
end

