-- ==== Sys2Proof/Laws/Map.lean ====
section
/-! SUPPORT. What each host address means, said once for each row of the address map (spec/20_memory.md R61), and what one
host write can do.
-/

namespace Sys2Proof.Machine

/-- The registers lie below every window. -/
theorem regAt_none (a : Nat) (h : 0x40 ≤ a) : Reg.all.find? (fun r => decide (r.offset = a)) = none := by
  rw [List.find?_eq_none]
  intro r _
  have hr : r.offset < 0x40 := by cases r <;> decide
  simp only [decide_eq_true_eq]
  omega

theorem Win.mem_all (w : Win) : w ∈ Win.all := by
  cases w with
  | ram a => cases a <;> decide
  | _ => decide

theorem targetAt_window (a : Nat) (h : 0x40 ≤ a) (w : Win) (hw : windowAt a = some w) :
    targetAt a = .win w (a - w.base) := by
  simp [targetAt, regAt_none a h, hw]

/-- Two windows do not overlap (R61). -/
theorem Win.disjoint (v w : Win) (h : v ≠ w) : v.base + v.size ≤ w.base ∨ w.base + w.size ≤ v.base := by
  have all : ∀ v ∈ Win.all, ∀ w ∈ Win.all, v ≠ w → v.base + v.size ≤ w.base ∨ w.base + w.size ≤ v.base := by
    decide
  exact all v v.mem_all w w.mem_all h

/-- An address in a window is in no other. -/
theorem windowAt_eq (a : Nat) (w : Win) (h : w.base ≤ a) (h' : a < w.base + w.size) : windowAt a = some w := by
  have key (v : Win) (hv : v.base ≤ a ∧ a < v.base + v.size) : v = w := by
    by_contra hne
    have hd : v.base + v.size ≤ w.base ∨ w.base + w.size ≤ v.base := Win.disjoint v w hne
    omega
  cases hf : windowAt a with
  | none =>
    unfold windowAt at hf
    rw [List.find?_eq_none] at hf
    have := hf w w.mem_all
    simp [h, h'] at this
  | some v =>
    have hv := List.find?_some hf
    simp at hv
    rw [key v hv]

/-- Every window lies above the registers. -/
theorem Win.base_ge (w : Win) : 0x40 ≤ w.base := by
  cases w with
  | ram a => cases a <;> decide
  | _ => decide

/-- The target of an address in a window (R61). -/
theorem targetAt_win (w : Win) (o : Nat) (h : o < w.size) : targetAt (w.base + o) = .win w o := by
  have hb := w.base_ge
  rw [targetAt_window _ (by omega) w (windowAt_eq _ w (by omega) (by omega))]
  simp

/-- The target of an address in a RAM array's window (R61). -/
theorem targetAt_ram (a : Arr) (o : Nat) (h : o < a.window) : targetAt (a.base + o) = .win (.ram a) o :=
  targetAt_win (.ram a) o h

/-- The target of a register's offset (R24). -/
theorem targetAt_reg (r : Reg) : targetAt r.offset = .reg r := by cases r <;> rfl

/-- A register target comes from the register's own offset. -/
theorem targetAt_eq_reg {a : Nat} {r : Reg} (h : targetAt a = .reg r) : a = r.offset := by
  unfold targetAt at h
  split at h
  · rename_i r' hr
    have := List.find?_some hr
    simp at this
    cases h
    exact this.symm
  · split at h <;> cases h

/-- A window target comes from an address in the window. -/
theorem targetAt_eq_win {a : Nat} {w : Win} {o : Nat} (h : targetAt a = .win w o) :
    a = w.base + o ∧ o < w.size := by
  unfold targetAt at h
  split at h
  · cases h
  · split at h
    · rename_i w' hw
      have := List.find?_some hw
      simp at this
      cases h
      omega
    · cases h

/-- Every window lies in the host address space (R60). -/
theorem Win.end_le (w : Win) : w.base + w.size ≤ 2 ^ 18 := by
  cases w with
  | ram a => cases a <;> decide
  | _ => decide

theorem toNat_winAddr (w : Win) (o : Nat) (h : o < w.size) :
    (BitVec.ofNat 18 (w.base + o)).toNat = w.base + o := by
  have := w.end_le
  rw [BitVec.toNat_ofNat, Nat.mod_eq_of_lt (by omega)]

/-- Every window starts at a word boundary. -/
theorem Win.base_mod (w : Win) : w.base % 4 = 0 := by
  cases w with
  | ram a => cases a <;> decide
  | _ => decide

theorem aligned_winAddr (w : Win) (o : Nat) (h : o < w.size) (h4 : o % 4 = 0) :
    aligned (BitVec.ofNat 18 (w.base + o)) = true := by
  have := w.base_mod
  simp only [aligned, toNat_winAddr w o h, decide_eq_true_eq]
  omega

theorem toNat_regAddr (r : Reg) : (BitVec.ofNat 18 r.offset).toNat = r.offset := by cases r <;> rfl

theorem aligned_regAddr (r : Reg) : aligned (BitVec.ofNat 18 r.offset) = true := by cases r <;> rfl

/-! ### Reads and writes by target -/

theorem State.memRead_reg (s : State) (r : Reg) : s.memRead (BitVec.ofNat 18 r.offset) = (.okay, s.readReg r) := by
  rw [State.memRead, aligned_regAddr, toNat_regAddr, targetAt_reg]
  rfl

theorem State.memRead_win (s : State) (w : Win) (o : Nat) (h : o < w.size) (h4 : o % 4 = 0) :
    s.memRead (BitVec.ofNat 18 (w.base + o)) = s.readWindow w o := by
  rw [State.memRead, aligned_winAddr w o h h4, toNat_winAddr w o h, targetAt_win w o h]
  rfl

theorem State.memWrite_reg (s : State) (r : Reg) (d : Word) : s.memWrite (BitVec.ofNat 18 r.offset) d =
    if s.busy && r.protected then s.dropWrite else (s.writeReg r d, .okay) := by
  rw [State.memWrite, aligned_regAddr, toNat_regAddr, targetAt_reg]
  rfl

theorem State.memWrite_ram (s : State) (a : Arr) (o : Nat) (d : Word) (h : o < a.window) (h4 : o % 4 = 0) :
    s.memWrite (BitVec.ofNat 18 (a.base + o)) d = s.writeRam a o d := by
  have h1 : aligned (BitVec.ofNat 18 (a.base + o)) = true := aligned_winAddr (.ram a) o h h4
  have h2 : (BitVec.ofNat 18 (a.base + o)).toNat = a.base + o := toNat_winAddr (.ram a) o h
  rw [State.memWrite, h1, h2, targetAt_ram a o h]
  rfl

/-- Everything a host write can do (R62 to R72): nothing, a dropped write while busy, a register write that is not dropped,
or a store to a backed word of a RAM window while idle. -/
theorem State.memWrite_cases (s : State) (a : HostAddr) (d : Word) :
    (s.memWrite a d).1 = s ∨
    (s.busy = true ∧ (s.memWrite a d).1 = s.setDropped) ∨
    (∃ r, a.toNat = r.offset ∧ (s.busy = true → r.protected = false) ∧ (s.memWrite a d).1 = s.writeReg r d) ∨
    (∃ arr o, s.busy = false ∧ o < s.cap arr ∧ (s.memWrite a d).1 = s.writeWindow arr o d) := by
  unfold State.memWrite
  split
  · split
    · rename_i r hr
      split
      · rename_i h
        simp at h
        exact .inr (.inl ⟨h.1, rfl⟩)
      · rename_i h
        refine .inr (.inr (.inl ⟨r, targetAt_eq_reg hr, ?_, rfl⟩))
        intro hb
        simpa [hb] using h
    · rename_i arr o _
      unfold State.writeRam
      split
      · split
        · rename_i h
          simp at h
          exact .inr (.inl ⟨h.1, rfl⟩)
        · exact .inl rfl
      · split
        · rename_i h
          exact .inr (.inl ⟨h, rfl⟩)
        · rename_i h1 h2
          exact .inr (.inr (.inr ⟨arr, o, by simpa using h2, by omega, rfl⟩))
    · exact .inl rfl
    · exact .inl rfl
    · exact .inl rfl
    · exact .inl rfl
  · exact .inl rfl

end Sys2Proof.Machine
end

