-- ==== Sys2Proof/Laws/Memory.lean ====
section
/-! SUPPORT. What storing to memory can do, said once: which bytes change, that the canonical form is kept, which
addresses are listed after it; and how array elements, slices and window words read through it.
-/

namespace Sys2Proof.Machine

/-! ### Lookups -/

@[simp] theorem Memory.find_nil (x : Nat) : Memory.find [] x = none := rfl

theorem Memory.find_cons (c : Host.Cell) (m : Memory) (x : Nat) :
    Memory.find (c :: m) x = if x = c.1 then some c.2 else Memory.find m x := by
  obtain ⟨k, b⟩ := c
  unfold Memory.find
  by_cases h : x = k
  · simp [h]
  · simp [List.lookup_cons, h, beq_eq_false_iff_ne.mpr h]

theorem Memory.find_append (m n : Memory) (x : Nat) :
    Memory.find (m ++ n) x = (Memory.find m x).or (Memory.find n x) := by
  induction m with
  | nil => simp
  | cons c m ih =>
    rw [List.cons_append, Memory.find_cons, Memory.find_cons, ih]
    split <;> simp

theorem Memory.find_filter (p : Nat → Bool) (m : Memory) (x : Nat) :
    Memory.find (m.filter fun c => p c.1) x = if p x then Memory.find m x else none := by
  induction m with
  | nil => simp
  | cons c m ih =>
    rw [List.filter_cons, Memory.find_cons]
    by_cases h : x = c.1
    · subst h
      by_cases hp : p c.1 <;> simp [hp, ih, Memory.find_cons]
    · by_cases hp : p c.1 <;> simp [hp, ih, Memory.find_cons, h]

theorem find_cellsFrom (a : Nat) (bs : List Byte) (x : Nat) :
    Memory.find (cellsFrom a bs) x = if a ≤ x then bs[x - a]? else none := by
  induction bs generalizing a with
  | nil => simp [cellsFrom]
  | cons b bs ih =>
    rw [cellsFrom, Memory.find_cons, ih]
    by_cases h : x = a
    · simp [h]
    · simp only [h, if_false]
      by_cases h1 : a + 1 ≤ x
      · have h2 : x - a = (x - (a + 1)) + 1 := by omega
        have h3 : a ≤ x := by omega
        simp [h1, h2, h3]
      · have h3 : ¬ a ≤ x := by omega
        simp [h1, h3]

/-- Reading after a store: a stored address gives the stored byte, every other address what it gave before. -/
theorem Memory.find_store (m : Memory) (a : Nat) (bs : List Byte) (x : Nat) :
    (m.store a bs).find x = if a ≤ x ∧ x < a + bs.length then bs[x - a]? else m.find x := by
  unfold Memory.store
  rw [Memory.find_append, Memory.find_append, find_cellsFrom,
    Memory.find_filter (fun k => decide (k < a)), Memory.find_filter (fun k => decide (a + bs.length ≤ k))]
  by_cases h1 : x < a
  · have h2 : ¬ a ≤ x := by omega
    have h3 : ¬ a + bs.length ≤ x := by omega
    simp [h1, h2, h3]
  · by_cases h2 : x < a + bs.length
    · have h3 : a ≤ x := by omega
      have h4 : ¬ a + bs.length ≤ x := by omega
      simp [h1, h2, h3, h4]
    · have h3 : a ≤ x := by omega
      have h4 : a + bs.length ≤ x := by omega
      have h5 : bs[x - a]? = none := by simp; omega
      simp [h1, h2, h3, h4, h5]

/-- A store whose address range holds `x`. -/
theorem Memory.find_store_inside (m : Memory) (a : Nat) (bs : List Byte) (i : Nat) (h : i < bs.length) :
    (m.store a bs).find (a + i) = some bs[i] := by
  rw [Memory.find_store, if_pos ⟨by omega, by omega⟩]
  simp [h]

/-- A store leaves every address outside its range alone. -/
theorem Memory.find_store_outside (m : Memory) (a : Nat) (bs : List Byte) (x : Nat)
    (h : x < a ∨ a + bs.length ≤ x) : (m.store a bs).find x = m.find x := by
  rw [Memory.find_store, if_neg (by omega)]

/-! ### The canonical form -/

/-- A store of no bytes leaves a memory in canonical form as it is. -/
theorem Memory.store_nil (m : Memory) (a : Nat) (h : m.wf) : m.store a [] = m := by
  induction m with
  | nil => rfl
  | cons c m ih =>
    have h : (c.1 :: m.map Prod.fst).Pairwise (· < ·) := h
    obtain ⟨hc, hm⟩ := List.pairwise_cons.mp h
    have ih := ih hm
    simp only [Memory.store, cellsFrom, List.append_nil, List.length_nil, Nat.add_zero] at ih ⊢
    by_cases hlt : c.1 < a
    · rw [List.filter_cons_of_pos (by simpa using hlt), List.filter_cons_of_neg (by simp; omega), List.cons_append, ih]
    · have hall : ∀ d ∈ m, a ≤ d.1 := fun d hd => by
        have := hc d.1 (List.mem_map_of_mem hd)
        omega
      rw [List.filter_cons_of_neg (by simpa using hlt), List.filter_cons_of_pos (by simp; omega),
        List.filter_eq_nil_iff.mpr (fun d hd => by have := hall d hd; simp; omega),
        List.filter_eq_self.mpr (fun d hd => by simpa using hall d hd), List.nil_append]

theorem cellsFrom_addresses (a : Nat) (bs : List Byte) :
    (cellsFrom a bs).map Prod.fst = List.range' a bs.length := by
  induction bs generalizing a with
  | nil => rfl
  | cons b bs ih => simp [cellsFrom, ih, List.range'_succ]

/-- A store keeps the canonical form. -/
theorem Memory.store_wf (m : Memory) (a : Nat) (bs : List Byte) (h : m.wf) : (m.store a bs).wf := by
  unfold Memory.wf Memory.store at *
  rw [List.map_append, List.map_append, cellsFrom_addresses, List.pairwise_append, List.pairwise_append]
  have hsub (p : Host.Cell → Bool) : ((m.filter p).map Prod.fst).Pairwise (· < ·) :=
    h.sublist ((List.filter_sublist (l := m) (p := p)).map Prod.fst)
  refine ⟨⟨hsub _, List.pairwise_lt_range', ?_⟩, hsub _, ?_⟩
  · intro x hx y hy
    simp at hx hy
    omega
  · intro x hx y hy
    simp at hx hy
    omega

/-- The addresses a store lists are those listed before and those it stores to. -/
theorem Memory.store_listed (m : Memory) (a : Nat) (bs : List Byte) (x : Nat)
    (h : x ∈ (m.store a bs).map Prod.fst) : x ∈ m.map Prod.fst ∨ (a ≤ x ∧ x < a + bs.length) := by
  unfold Memory.store at h
  rw [List.map_append, List.map_append, cellsFrom_addresses] at h
  simp only [List.mem_append, List.mem_map, List.mem_filter, List.mem_range'] at h
  rcases h with (⟨c, hc, rfl⟩ | h) | ⟨c, hc, rfl⟩
  · exact .inl (List.mem_map_of_mem hc.1)
  · right; omega
  · exact .inl (List.mem_map_of_mem hc.1)

@[simp] theorem Memory.update_none (m : Memory) (a : Arr) : m.update a none = m := rfl

@[simp] theorem Memory.update_some (m : Memory) (a : Arr) (v : List Byte) :
    m.update a (some v) = m.store a.base v := rfl

theorem Memory.update_wf (m : Memory) (a : Arr) (v : Option (List Byte)) (h : m.wf) : (m.update a v).wf := by
  cases v with
  | none => exact h
  | some v => exact Memory.store_wf m a.base v h

/-! ### Bytes, elements, slices -/

theorem State.byteAt_of_find {s : State} {a : Nat} {b : Byte} (h : s.mem.find a = some b) : s.byteAt a = b := by
  simp [State.byteAt, h]

/-- Bytes are equal where the memories and the counts of resets are. -/
theorem State.byteAt_congr {s t : State} {a : Nat} (h : t.mem.find a = s.mem.find a) (hr : t.resets = s.resets) :
    t.byteAt a = s.byteAt a := by
  simp [State.byteAt, h, hr]

@[simp] theorem State.slice_length (s : State) (a : Arr) (i n : Nat) : (s.slice a i n).length = n := by
  induction n generalizing i with
  | zero => rfl
  | succ n ih => simp [State.slice, ih]

theorem State.slice_getElem? (s : State) (a : Arr) (i n k : Nat) (h : k < n) :
    (s.slice a i n)[k]? = some (s.elem a (i + k)) := by
  induction n generalizing i k with
  | zero => omega
  | succ n ih =>
    cases k with
    | zero => simp [State.slice]
    | succ k =>
      simp only [State.slice, List.getElem?_cons_succ]
      rw [ih (i + 1) k (by omega)]
      congr 2
      omega

@[simp] theorem State.content_length (s : State) (a : Arr) : (s.content a).length = (s.len a).toNat := by
  simp [State.content]

/-- A slice is the sequence `v` exactly when the elements are. -/
theorem State.slice_eq (s : State) (a : Arr) (v : List Byte) (h : ∀ i (hi : i < v.length), s.elem a i = v[i]) :
    s.slice a 0 v.length = v := by
  apply List.ext_getElem?
  intro k
  by_cases hk : k < v.length
  · rw [State.slice_getElem? s a 0 _ k hk, Nat.zero_add, h k hk, List.getElem?_eq_getElem hk]
  · rw [List.getElem?_eq_none (by simp; omega), List.getElem?_eq_none (by omega)]

/-- Equal elements make equal slices. -/
theorem State.slice_congr {s t : State} {a : Arr} {n : Nat} (h : ∀ i, i < n → t.elem a i = s.elem a i) :
    t.slice a 0 n = s.slice a 0 n := by
  apply List.ext_getElem?
  intro k
  by_cases hk : k < n
  · rw [State.slice_getElem? _ _ _ _ _ hk, State.slice_getElem? _ _ _ _ _ hk, Nat.zero_add, h k hk]
  · rw [List.getElem?_eq_none (by simp; omega), List.getElem?_eq_none (by simp; omega)]

end Sys2Proof.Machine
end

