-- ==== Sys2Proof/Laws/State.lean ====
section
/-! SUPPORT. One lemma for each field of the state under each named update: what the update writes there, or that it leaves
the field alone. All by `rfl`, so that no later proof unfolds a record update.
-/

namespace Sys2Proof.Machine

/-! ### `State.apply` -/

@[simp] theorem State.apply_busy (s : State) (u : Updates) : (s.apply u).busy = s.busy := rfl
@[simp] theorem State.apply_dropped (s : State) (u : Updates) : (s.apply u).dropped = s.dropped := rfl
@[simp] theorem State.apply_lastOp (s : State) (u : Updates) : (s.apply u).lastOp = s.lastOp := rfl
@[simp] theorem State.apply_errCode (s : State) (u : Updates) : (s.apply u).errCode = s.errCode := rfl
@[simp] theorem State.apply_errInfo (s : State) (u : Updates) : (s.apply u).errInfo = s.errInfo := rfl
@[simp] theorem State.apply_irqDone (s : State) (u : Updates) : (s.apply u).irqDone = s.irqDone := rfl
@[simp] theorem State.apply_irqError (s : State) (u : Updates) : (s.apply u).irqError = s.irqError := rfl
@[simp] theorem State.apply_doneEn (s : State) (u : Updates) : (s.apply u).doneEn = s.doneEn := rfl
@[simp] theorem State.apply_errorEn (s : State) (u : Updates) : (s.apply u).errorEn = s.errorEn := rfl
@[simp] theorem State.apply_rawLen (s : State) (u : Updates) : (s.apply u).rawLen = newLength s.rawLen u.raw := rfl
@[simp] theorem State.apply_unitLen (s : State) (u : Updates) :
    (s.apply u).unitLen = newLength s.unitLen u.unit := rfl
@[simp] theorem State.apply_textLen (s : State) (u : Updates) :
    (s.apply u).textLen = newLength s.textLen u.text := rfl
@[simp] theorem State.apply_alphaLen (s : State) (u : Updates) : (s.apply u).alphaLen = s.alphaLen := rfl
@[simp] theorem State.apply_pending (s : State) (u : Updates) : (s.apply u).pending = s.pending := rfl
@[simp] theorem State.apply_mem (s : State) (u : Updates) :
    (s.apply u).mem = ((s.mem.update .unit u.unit).update .text u.text).update .raw u.raw := rfl
@[simp] theorem State.apply_fwd (s : State) (u : Updates) : (s.apply u).fwd = u.fwd.getD s.fwd := rfl
@[simp] theorem State.apply_rev (s : State) (u : Updates) : (s.apply u).rev = newReverse s.rev u.fwd := rfl
@[simp] theorem State.apply_rawCap (s : State) (u : Updates) : (s.apply u).rawCap = s.rawCap := rfl
@[simp] theorem State.apply_resets (s : State) (u : Updates) : (s.apply u).resets = s.resets := rfl
@[simp] theorem State.apply_draws (s : State) (u : Updates) : (s.apply u).draws = s.draws := rfl
@[simp] theorem State.apply_delay (s : State) (u : Updates) : (s.apply u).delay = s.delay := rfl
@[simp] theorem State.apply_latencies (s : State) (u : Updates) : (s.apply u).latencies = s.latencies := rfl
@[simp] theorem State.apply_host (s : State) (u : Updates) : (s.apply u).host = s.host := rfl

/-! ### `State.succeed` -/

@[simp] theorem State.succeed_busy (s : State) : s.succeed.busy = false := rfl
@[simp] theorem State.succeed_dropped (s : State) : s.succeed.dropped = s.dropped := rfl
@[simp] theorem State.succeed_lastOp (s : State) : s.succeed.lastOp = s.lastOp := rfl
@[simp] theorem State.succeed_errCode (s : State) : s.succeed.errCode = 0#4 := rfl
@[simp] theorem State.succeed_errInfo (s : State) : s.succeed.errInfo = 0#32 := rfl
@[simp] theorem State.succeed_irqDone (s : State) : s.succeed.irqDone = true := rfl
@[simp] theorem State.succeed_irqError (s : State) : s.succeed.irqError = s.irqError := rfl
@[simp] theorem State.succeed_doneEn (s : State) : s.succeed.doneEn = s.doneEn := rfl
@[simp] theorem State.succeed_errorEn (s : State) : s.succeed.errorEn = s.errorEn := rfl
@[simp] theorem State.succeed_rawLen (s : State) : s.succeed.rawLen = s.rawLen := rfl
@[simp] theorem State.succeed_unitLen (s : State) : s.succeed.unitLen = s.unitLen := rfl
@[simp] theorem State.succeed_textLen (s : State) : s.succeed.textLen = s.textLen := rfl
@[simp] theorem State.succeed_alphaLen (s : State) : s.succeed.alphaLen = s.alphaLen := rfl
@[simp] theorem State.succeed_pending (s : State) : s.succeed.pending = s.pending := rfl
@[simp] theorem State.succeed_mem (s : State) : s.succeed.mem = s.mem := rfl
@[simp] theorem State.succeed_fwd (s : State) : s.succeed.fwd = s.fwd := rfl
@[simp] theorem State.succeed_rev (s : State) : s.succeed.rev = s.rev := rfl
@[simp] theorem State.succeed_rawCap (s : State) : s.succeed.rawCap = s.rawCap := rfl
@[simp] theorem State.succeed_resets (s : State) : s.succeed.resets = s.resets := rfl
@[simp] theorem State.succeed_draws (s : State) : s.succeed.draws = s.draws := rfl
@[simp] theorem State.succeed_delay (s : State) : s.succeed.delay = s.delay := rfl
@[simp] theorem State.succeed_latencies (s : State) : s.succeed.latencies = s.latencies := rfl
@[simp] theorem State.succeed_host (s : State) : s.succeed.host = s.host := rfl

/-! ### `State.fail` -/

@[simp] theorem State.fail_busy (s : State) (e : CmdError) : (s.fail e).busy = false := rfl
@[simp] theorem State.fail_dropped (s : State) (e : CmdError) : (s.fail e).dropped = s.dropped := rfl
@[simp] theorem State.fail_lastOp (s : State) (e : CmdError) : (s.fail e).lastOp = s.lastOp := rfl
@[simp] theorem State.fail_errCode (s : State) (e : CmdError) : (s.fail e).errCode = e.code.bits := rfl
@[simp] theorem State.fail_errInfo (s : State) (e : CmdError) : (s.fail e).errInfo = e.info := rfl
@[simp] theorem State.fail_irqDone (s : State) (e : CmdError) : (s.fail e).irqDone = true := rfl
@[simp] theorem State.fail_irqError (s : State) (e : CmdError) : (s.fail e).irqError = true := rfl
@[simp] theorem State.fail_doneEn (s : State) (e : CmdError) : (s.fail e).doneEn = s.doneEn := rfl
@[simp] theorem State.fail_errorEn (s : State) (e : CmdError) : (s.fail e).errorEn = s.errorEn := rfl
@[simp] theorem State.fail_rawLen (s : State) (e : CmdError) : (s.fail e).rawLen = s.rawLen := rfl
@[simp] theorem State.fail_unitLen (s : State) (e : CmdError) : (s.fail e).unitLen = s.unitLen := rfl
@[simp] theorem State.fail_textLen (s : State) (e : CmdError) : (s.fail e).textLen = s.textLen := rfl
@[simp] theorem State.fail_alphaLen (s : State) (e : CmdError) : (s.fail e).alphaLen = s.alphaLen := rfl
@[simp] theorem State.fail_pending (s : State) (e : CmdError) : (s.fail e).pending = s.pending := rfl
@[simp] theorem State.fail_mem (s : State) (e : CmdError) : (s.fail e).mem = s.mem := rfl
@[simp] theorem State.fail_fwd (s : State) (e : CmdError) : (s.fail e).fwd = s.fwd := rfl
@[simp] theorem State.fail_rev (s : State) (e : CmdError) : (s.fail e).rev = s.rev := rfl
@[simp] theorem State.fail_rawCap (s : State) (e : CmdError) : (s.fail e).rawCap = s.rawCap := rfl
@[simp] theorem State.fail_resets (s : State) (e : CmdError) : (s.fail e).resets = s.resets := rfl
@[simp] theorem State.fail_draws (s : State) (e : CmdError) : (s.fail e).draws = s.draws := rfl
@[simp] theorem State.fail_delay (s : State) (e : CmdError) : (s.fail e).delay = s.delay := rfl
@[simp] theorem State.fail_latencies (s : State) (e : CmdError) : (s.fail e).latencies = s.latencies := rfl
@[simp] theorem State.fail_host (s : State) (e : CmdError) : (s.fail e).host = s.host := rfl

/-! ### `State.accept` -/

@[simp] theorem State.accept_busy (s : State) (w : Word) : (s.accept w).busy = true := rfl
@[simp] theorem State.accept_dropped (s : State) (w : Word) : (s.accept w).dropped = s.dropped := rfl
@[simp] theorem State.accept_lastOp (s : State) (w : Word) : (s.accept w).lastOp = w.extractLsb' 0 4 := rfl
@[simp] theorem State.accept_errCode (s : State) (w : Word) : (s.accept w).errCode = s.errCode := rfl
@[simp] theorem State.accept_errInfo (s : State) (w : Word) : (s.accept w).errInfo = s.errInfo := rfl
@[simp] theorem State.accept_irqDone (s : State) (w : Word) : (s.accept w).irqDone = s.irqDone := rfl
@[simp] theorem State.accept_irqError (s : State) (w : Word) : (s.accept w).irqError = s.irqError := rfl
@[simp] theorem State.accept_doneEn (s : State) (w : Word) : (s.accept w).doneEn = s.doneEn := rfl
@[simp] theorem State.accept_errorEn (s : State) (w : Word) : (s.accept w).errorEn = s.errorEn := rfl
@[simp] theorem State.accept_rawLen (s : State) (w : Word) : (s.accept w).rawLen = s.rawLen := rfl
@[simp] theorem State.accept_unitLen (s : State) (w : Word) : (s.accept w).unitLen = s.unitLen := rfl
@[simp] theorem State.accept_textLen (s : State) (w : Word) : (s.accept w).textLen = s.textLen := rfl
@[simp] theorem State.accept_alphaLen (s : State) (w : Word) : (s.accept w).alphaLen = s.alphaLen := rfl
@[simp] theorem State.accept_pending (s : State) (w : Word) : (s.accept w).pending = w := rfl
@[simp] theorem State.accept_mem (s : State) (w : Word) : (s.accept w).mem = s.mem := rfl
@[simp] theorem State.accept_fwd (s : State) (w : Word) : (s.accept w).fwd = s.fwd := rfl
@[simp] theorem State.accept_rev (s : State) (w : Word) : (s.accept w).rev = s.rev := rfl
@[simp] theorem State.accept_rawCap (s : State) (w : Word) : (s.accept w).rawCap = s.rawCap := rfl
@[simp] theorem State.accept_resets (s : State) (w : Word) : (s.accept w).resets = s.resets := rfl
@[simp] theorem State.accept_draws (s : State) (w : Word) : (s.accept w).draws = s.draws + 1 := rfl
@[simp] theorem State.accept_delay (s : State) (w : Word) : (s.accept w).delay = s.nextLatency := rfl
@[simp] theorem State.accept_latencies (s : State) (w : Word) : (s.accept w).latencies = s.latencies.tail := rfl
@[simp] theorem State.accept_host (s : State) (w : Word) : (s.accept w).host = s.host := rfl

/-! ### `State.resetBlock` -/

@[simp] theorem State.resetBlock_busy (s : State) : s.resetBlock.busy = false := rfl
@[simp] theorem State.resetBlock_dropped (s : State) : s.resetBlock.dropped = false := rfl
@[simp] theorem State.resetBlock_lastOp (s : State) : s.resetBlock.lastOp = 0#4 := rfl
@[simp] theorem State.resetBlock_errCode (s : State) : s.resetBlock.errCode = 0#4 := rfl
@[simp] theorem State.resetBlock_errInfo (s : State) : s.resetBlock.errInfo = 0#32 := rfl
@[simp] theorem State.resetBlock_irqDone (s : State) : s.resetBlock.irqDone = false := rfl
@[simp] theorem State.resetBlock_irqError (s : State) : s.resetBlock.irqError = false := rfl
@[simp] theorem State.resetBlock_doneEn (s : State) : s.resetBlock.doneEn = false := rfl
@[simp] theorem State.resetBlock_errorEn (s : State) : s.resetBlock.errorEn = false := rfl
@[simp] theorem State.resetBlock_rawLen (s : State) : s.resetBlock.rawLen = 0#32 := rfl
@[simp] theorem State.resetBlock_unitLen (s : State) : s.resetBlock.unitLen = 0#32 := rfl
@[simp] theorem State.resetBlock_textLen (s : State) : s.resetBlock.textLen = 0#32 := rfl
@[simp] theorem State.resetBlock_alphaLen (s : State) : s.resetBlock.alphaLen = 0#32 := rfl
@[simp] theorem State.resetBlock_pending (s : State) : s.resetBlock.pending = 0#32 := rfl
@[simp] theorem State.resetBlock_mem (s : State) : s.resetBlock.mem = [] := rfl
@[simp] theorem State.resetBlock_fwd (s : State) : s.resetBlock.fwd = stdTable := rfl
@[simp] theorem State.resetBlock_rev (s : State) : s.resetBlock.rev = inverseTable stdTable := rfl
@[simp] theorem State.resetBlock_rawCap (s : State) : s.resetBlock.rawCap = s.rawCap := rfl
@[simp] theorem State.resetBlock_resets (s : State) : s.resetBlock.resets = s.resets + 1 := rfl
@[simp] theorem State.resetBlock_draws (s : State) : s.resetBlock.draws = s.draws := rfl
@[simp] theorem State.resetBlock_delay (s : State) : s.resetBlock.delay = 0 := rfl
@[simp] theorem State.resetBlock_latencies (s : State) : s.resetBlock.latencies = s.latencies := rfl
@[simp] theorem State.resetBlock_host (s : State) : s.resetBlock.host = s.host := rfl

/-! ### `State.setDropped` -/

@[simp] theorem State.setDropped_busy (s : State) : s.setDropped.busy = s.busy := rfl
@[simp] theorem State.setDropped_dropped (s : State) : s.setDropped.dropped = true := rfl
@[simp] theorem State.setDropped_lastOp (s : State) : s.setDropped.lastOp = s.lastOp := rfl
@[simp] theorem State.setDropped_errCode (s : State) : s.setDropped.errCode = s.errCode := rfl
@[simp] theorem State.setDropped_errInfo (s : State) : s.setDropped.errInfo = s.errInfo := rfl
@[simp] theorem State.setDropped_irqDone (s : State) : s.setDropped.irqDone = s.irqDone := rfl
@[simp] theorem State.setDropped_irqError (s : State) : s.setDropped.irqError = s.irqError := rfl
@[simp] theorem State.setDropped_doneEn (s : State) : s.setDropped.doneEn = s.doneEn := rfl
@[simp] theorem State.setDropped_errorEn (s : State) : s.setDropped.errorEn = s.errorEn := rfl
@[simp] theorem State.setDropped_rawLen (s : State) : s.setDropped.rawLen = s.rawLen := rfl
@[simp] theorem State.setDropped_unitLen (s : State) : s.setDropped.unitLen = s.unitLen := rfl
@[simp] theorem State.setDropped_textLen (s : State) : s.setDropped.textLen = s.textLen := rfl
@[simp] theorem State.setDropped_alphaLen (s : State) : s.setDropped.alphaLen = s.alphaLen := rfl
@[simp] theorem State.setDropped_pending (s : State) : s.setDropped.pending = s.pending := rfl
@[simp] theorem State.setDropped_mem (s : State) : s.setDropped.mem = s.mem := rfl
@[simp] theorem State.setDropped_fwd (s : State) : s.setDropped.fwd = s.fwd := rfl
@[simp] theorem State.setDropped_rev (s : State) : s.setDropped.rev = s.rev := rfl
@[simp] theorem State.setDropped_rawCap (s : State) : s.setDropped.rawCap = s.rawCap := rfl
@[simp] theorem State.setDropped_resets (s : State) : s.setDropped.resets = s.resets := rfl
@[simp] theorem State.setDropped_draws (s : State) : s.setDropped.draws = s.draws := rfl
@[simp] theorem State.setDropped_delay (s : State) : s.setDropped.delay = s.delay := rfl
@[simp] theorem State.setDropped_latencies (s : State) : s.setDropped.latencies = s.latencies := rfl
@[simp] theorem State.setDropped_host (s : State) : s.setDropped.host = s.host := rfl

/-! ### `State.writeStatus` -/

@[simp] theorem State.writeStatus_busy (s : State) (d : Word) : (s.writeStatus d).busy = s.busy := rfl
@[simp] theorem State.writeStatus_dropped (s : State) (d : Word) :
    (s.writeStatus d).dropped = (s.dropped && !d.getLsbD 2) := rfl
@[simp] theorem State.writeStatus_lastOp (s : State) (d : Word) : (s.writeStatus d).lastOp = s.lastOp := rfl
@[simp] theorem State.writeStatus_errCode (s : State) (d : Word) : (s.writeStatus d).errCode = s.errCode := rfl
@[simp] theorem State.writeStatus_errInfo (s : State) (d : Word) : (s.writeStatus d).errInfo = s.errInfo := rfl
@[simp] theorem State.writeStatus_irqDone (s : State) (d : Word) : (s.writeStatus d).irqDone = s.irqDone := rfl
@[simp] theorem State.writeStatus_irqError (s : State) (d : Word) : (s.writeStatus d).irqError = s.irqError := rfl
@[simp] theorem State.writeStatus_doneEn (s : State) (d : Word) : (s.writeStatus d).doneEn = s.doneEn := rfl
@[simp] theorem State.writeStatus_errorEn (s : State) (d : Word) : (s.writeStatus d).errorEn = s.errorEn := rfl
@[simp] theorem State.writeStatus_rawLen (s : State) (d : Word) : (s.writeStatus d).rawLen = s.rawLen := rfl
@[simp] theorem State.writeStatus_unitLen (s : State) (d : Word) : (s.writeStatus d).unitLen = s.unitLen := rfl
@[simp] theorem State.writeStatus_textLen (s : State) (d : Word) : (s.writeStatus d).textLen = s.textLen := rfl
@[simp] theorem State.writeStatus_alphaLen (s : State) (d : Word) : (s.writeStatus d).alphaLen = s.alphaLen := rfl
@[simp] theorem State.writeStatus_pending (s : State) (d : Word) : (s.writeStatus d).pending = s.pending := rfl
@[simp] theorem State.writeStatus_mem (s : State) (d : Word) : (s.writeStatus d).mem = s.mem := rfl
@[simp] theorem State.writeStatus_fwd (s : State) (d : Word) : (s.writeStatus d).fwd = s.fwd := rfl
@[simp] theorem State.writeStatus_rev (s : State) (d : Word) : (s.writeStatus d).rev = s.rev := rfl
@[simp] theorem State.writeStatus_rawCap (s : State) (d : Word) : (s.writeStatus d).rawCap = s.rawCap := rfl
@[simp] theorem State.writeStatus_resets (s : State) (d : Word) : (s.writeStatus d).resets = s.resets := rfl
@[simp] theorem State.writeStatus_draws (s : State) (d : Word) : (s.writeStatus d).draws = s.draws := rfl
@[simp] theorem State.writeStatus_delay (s : State) (d : Word) : (s.writeStatus d).delay = s.delay := rfl
@[simp] theorem State.writeStatus_latencies (s : State) (d : Word) :
    (s.writeStatus d).latencies = s.latencies := rfl
@[simp] theorem State.writeStatus_host (s : State) (d : Word) : (s.writeStatus d).host = s.host := rfl

/-! ### `State.writeIrqStatus` -/

@[simp] theorem State.writeIrqStatus_busy (s : State) (d : Word) : (s.writeIrqStatus d).busy = s.busy := rfl
@[simp] theorem State.writeIrqStatus_dropped (s : State) (d : Word) :
    (s.writeIrqStatus d).dropped = s.dropped := rfl
@[simp] theorem State.writeIrqStatus_lastOp (s : State) (d : Word) : (s.writeIrqStatus d).lastOp = s.lastOp := rfl
@[simp] theorem State.writeIrqStatus_errCode (s : State) (d : Word) :
    (s.writeIrqStatus d).errCode = s.errCode := rfl
@[simp] theorem State.writeIrqStatus_errInfo (s : State) (d : Word) :
    (s.writeIrqStatus d).errInfo = s.errInfo := rfl
@[simp] theorem State.writeIrqStatus_irqDone (s : State) (d : Word) :
    (s.writeIrqStatus d).irqDone = (s.irqDone && !d.getLsbD 0) := rfl
@[simp] theorem State.writeIrqStatus_irqError (s : State) (d : Word) :
    (s.writeIrqStatus d).irqError = (s.irqError && !d.getLsbD 1) := rfl
@[simp] theorem State.writeIrqStatus_doneEn (s : State) (d : Word) : (s.writeIrqStatus d).doneEn = s.doneEn := rfl
@[simp] theorem State.writeIrqStatus_errorEn (s : State) (d : Word) :
    (s.writeIrqStatus d).errorEn = s.errorEn := rfl
@[simp] theorem State.writeIrqStatus_rawLen (s : State) (d : Word) : (s.writeIrqStatus d).rawLen = s.rawLen := rfl
@[simp] theorem State.writeIrqStatus_unitLen (s : State) (d : Word) :
    (s.writeIrqStatus d).unitLen = s.unitLen := rfl
@[simp] theorem State.writeIrqStatus_textLen (s : State) (d : Word) :
    (s.writeIrqStatus d).textLen = s.textLen := rfl
@[simp] theorem State.writeIrqStatus_alphaLen (s : State) (d : Word) :
    (s.writeIrqStatus d).alphaLen = s.alphaLen := rfl
@[simp] theorem State.writeIrqStatus_pending (s : State) (d : Word) :
    (s.writeIrqStatus d).pending = s.pending := rfl
@[simp] theorem State.writeIrqStatus_mem (s : State) (d : Word) : (s.writeIrqStatus d).mem = s.mem := rfl
@[simp] theorem State.writeIrqStatus_fwd (s : State) (d : Word) : (s.writeIrqStatus d).fwd = s.fwd := rfl
@[simp] theorem State.writeIrqStatus_rev (s : State) (d : Word) : (s.writeIrqStatus d).rev = s.rev := rfl
@[simp] theorem State.writeIrqStatus_rawCap (s : State) (d : Word) : (s.writeIrqStatus d).rawCap = s.rawCap := rfl
@[simp] theorem State.writeIrqStatus_resets (s : State) (d : Word) : (s.writeIrqStatus d).resets = s.resets := rfl
@[simp] theorem State.writeIrqStatus_draws (s : State) (d : Word) : (s.writeIrqStatus d).draws = s.draws := rfl
@[simp] theorem State.writeIrqStatus_delay (s : State) (d : Word) : (s.writeIrqStatus d).delay = s.delay := rfl
@[simp] theorem State.writeIrqStatus_latencies (s : State) (d : Word) :
    (s.writeIrqStatus d).latencies = s.latencies := rfl
@[simp] theorem State.writeIrqStatus_host (s : State) (d : Word) : (s.writeIrqStatus d).host = s.host := rfl

/-! ### `State.writeIrqEnable` -/

@[simp] theorem State.writeIrqEnable_busy (s : State) (d : Word) : (s.writeIrqEnable d).busy = s.busy := rfl
@[simp] theorem State.writeIrqEnable_dropped (s : State) (d : Word) :
    (s.writeIrqEnable d).dropped = s.dropped := rfl
@[simp] theorem State.writeIrqEnable_lastOp (s : State) (d : Word) : (s.writeIrqEnable d).lastOp = s.lastOp := rfl
@[simp] theorem State.writeIrqEnable_errCode (s : State) (d : Word) :
    (s.writeIrqEnable d).errCode = s.errCode := rfl
@[simp] theorem State.writeIrqEnable_errInfo (s : State) (d : Word) :
    (s.writeIrqEnable d).errInfo = s.errInfo := rfl
@[simp] theorem State.writeIrqEnable_irqDone (s : State) (d : Word) :
    (s.writeIrqEnable d).irqDone = s.irqDone := rfl
@[simp] theorem State.writeIrqEnable_irqError (s : State) (d : Word) :
    (s.writeIrqEnable d).irqError = s.irqError := rfl
@[simp] theorem State.writeIrqEnable_doneEn (s : State) (d : Word) :
    (s.writeIrqEnable d).doneEn = d.getLsbD 0 := rfl
@[simp] theorem State.writeIrqEnable_errorEn (s : State) (d : Word) :
    (s.writeIrqEnable d).errorEn = d.getLsbD 1 := rfl
@[simp] theorem State.writeIrqEnable_rawLen (s : State) (d : Word) : (s.writeIrqEnable d).rawLen = s.rawLen := rfl
@[simp] theorem State.writeIrqEnable_unitLen (s : State) (d : Word) :
    (s.writeIrqEnable d).unitLen = s.unitLen := rfl
@[simp] theorem State.writeIrqEnable_textLen (s : State) (d : Word) :
    (s.writeIrqEnable d).textLen = s.textLen := rfl
@[simp] theorem State.writeIrqEnable_alphaLen (s : State) (d : Word) :
    (s.writeIrqEnable d).alphaLen = s.alphaLen := rfl
@[simp] theorem State.writeIrqEnable_pending (s : State) (d : Word) :
    (s.writeIrqEnable d).pending = s.pending := rfl
@[simp] theorem State.writeIrqEnable_mem (s : State) (d : Word) : (s.writeIrqEnable d).mem = s.mem := rfl
@[simp] theorem State.writeIrqEnable_fwd (s : State) (d : Word) : (s.writeIrqEnable d).fwd = s.fwd := rfl
@[simp] theorem State.writeIrqEnable_rev (s : State) (d : Word) : (s.writeIrqEnable d).rev = s.rev := rfl
@[simp] theorem State.writeIrqEnable_rawCap (s : State) (d : Word) : (s.writeIrqEnable d).rawCap = s.rawCap := rfl
@[simp] theorem State.writeIrqEnable_resets (s : State) (d : Word) : (s.writeIrqEnable d).resets = s.resets := rfl
@[simp] theorem State.writeIrqEnable_draws (s : State) (d : Word) : (s.writeIrqEnable d).draws = s.draws := rfl
@[simp] theorem State.writeIrqEnable_delay (s : State) (d : Word) : (s.writeIrqEnable d).delay = s.delay := rfl
@[simp] theorem State.writeIrqEnable_latencies (s : State) (d : Word) :
    (s.writeIrqEnable d).latencies = s.latencies := rfl
@[simp] theorem State.writeIrqEnable_host (s : State) (d : Word) : (s.writeIrqEnable d).host = s.host := rfl

/-! ### `State.writeWindow` -/

@[simp] theorem State.writeWindow_busy (s : State) (a : Arr) (o : Nat) (d : Word) :
    (s.writeWindow a o d).busy = s.busy := rfl
@[simp] theorem State.writeWindow_dropped (s : State) (a : Arr) (o : Nat) (d : Word) :
    (s.writeWindow a o d).dropped = s.dropped := rfl
@[simp] theorem State.writeWindow_lastOp (s : State) (a : Arr) (o : Nat) (d : Word) :
    (s.writeWindow a o d).lastOp = s.lastOp := rfl
@[simp] theorem State.writeWindow_errCode (s : State) (a : Arr) (o : Nat) (d : Word) :
    (s.writeWindow a o d).errCode = s.errCode := rfl
@[simp] theorem State.writeWindow_errInfo (s : State) (a : Arr) (o : Nat) (d : Word) :
    (s.writeWindow a o d).errInfo = s.errInfo := rfl
@[simp] theorem State.writeWindow_irqDone (s : State) (a : Arr) (o : Nat) (d : Word) :
    (s.writeWindow a o d).irqDone = s.irqDone := rfl
@[simp] theorem State.writeWindow_irqError (s : State) (a : Arr) (o : Nat) (d : Word) :
    (s.writeWindow a o d).irqError = s.irqError := rfl
@[simp] theorem State.writeWindow_doneEn (s : State) (a : Arr) (o : Nat) (d : Word) :
    (s.writeWindow a o d).doneEn = s.doneEn := rfl
@[simp] theorem State.writeWindow_errorEn (s : State) (a : Arr) (o : Nat) (d : Word) :
    (s.writeWindow a o d).errorEn = s.errorEn := rfl
@[simp] theorem State.writeWindow_rawLen (s : State) (a : Arr) (o : Nat) (d : Word) :
    (s.writeWindow a o d).rawLen = s.rawLen := rfl
@[simp] theorem State.writeWindow_unitLen (s : State) (a : Arr) (o : Nat) (d : Word) :
    (s.writeWindow a o d).unitLen = s.unitLen := rfl
@[simp] theorem State.writeWindow_textLen (s : State) (a : Arr) (o : Nat) (d : Word) :
    (s.writeWindow a o d).textLen = s.textLen := rfl
@[simp] theorem State.writeWindow_alphaLen (s : State) (a : Arr) (o : Nat) (d : Word) :
    (s.writeWindow a o d).alphaLen = s.alphaLen := rfl
@[simp] theorem State.writeWindow_pending (s : State) (a : Arr) (o : Nat) (d : Word) :
    (s.writeWindow a o d).pending = s.pending := rfl
@[simp] theorem State.writeWindow_mem (s : State) (a : Arr) (o : Nat) (d : Word) :
    (s.writeWindow a o d).mem = s.mem.store (a.base + o) ((lanes d).take (s.cap a - o)) := rfl
@[simp] theorem State.writeWindow_fwd (s : State) (a : Arr) (o : Nat) (d : Word) :
    (s.writeWindow a o d).fwd = s.fwd := rfl
@[simp] theorem State.writeWindow_rev (s : State) (a : Arr) (o : Nat) (d : Word) :
    (s.writeWindow a o d).rev = s.rev := rfl
@[simp] theorem State.writeWindow_rawCap (s : State) (a : Arr) (o : Nat) (d : Word) :
    (s.writeWindow a o d).rawCap = s.rawCap := rfl
@[simp] theorem State.writeWindow_resets (s : State) (a : Arr) (o : Nat) (d : Word) :
    (s.writeWindow a o d).resets = s.resets := rfl
@[simp] theorem State.writeWindow_draws (s : State) (a : Arr) (o : Nat) (d : Word) :
    (s.writeWindow a o d).draws = s.draws := rfl
@[simp] theorem State.writeWindow_delay (s : State) (a : Arr) (o : Nat) (d : Word) :
    (s.writeWindow a o d).delay = s.delay := rfl
@[simp] theorem State.writeWindow_latencies (s : State) (a : Arr) (o : Nat) (d : Word) :
    (s.writeWindow a o d).latencies = s.latencies := rfl
@[simp] theorem State.writeWindow_host (s : State) (a : Arr) (o : Nat) (d : Word) :
    (s.writeWindow a o d).host = s.host := rfl

/-! ### `State.countDown` -/

@[simp] theorem State.countDown_busy (s : State) : s.countDown.busy = s.busy := rfl
@[simp] theorem State.countDown_dropped (s : State) : s.countDown.dropped = s.dropped := rfl
@[simp] theorem State.countDown_lastOp (s : State) : s.countDown.lastOp = s.lastOp := rfl
@[simp] theorem State.countDown_errCode (s : State) : s.countDown.errCode = s.errCode := rfl
@[simp] theorem State.countDown_errInfo (s : State) : s.countDown.errInfo = s.errInfo := rfl
@[simp] theorem State.countDown_irqDone (s : State) : s.countDown.irqDone = s.irqDone := rfl
@[simp] theorem State.countDown_irqError (s : State) : s.countDown.irqError = s.irqError := rfl
@[simp] theorem State.countDown_doneEn (s : State) : s.countDown.doneEn = s.doneEn := rfl
@[simp] theorem State.countDown_errorEn (s : State) : s.countDown.errorEn = s.errorEn := rfl
@[simp] theorem State.countDown_rawLen (s : State) : s.countDown.rawLen = s.rawLen := rfl
@[simp] theorem State.countDown_unitLen (s : State) : s.countDown.unitLen = s.unitLen := rfl
@[simp] theorem State.countDown_textLen (s : State) : s.countDown.textLen = s.textLen := rfl
@[simp] theorem State.countDown_alphaLen (s : State) : s.countDown.alphaLen = s.alphaLen := rfl
@[simp] theorem State.countDown_pending (s : State) : s.countDown.pending = s.pending := rfl
@[simp] theorem State.countDown_mem (s : State) : s.countDown.mem = s.mem := rfl
@[simp] theorem State.countDown_fwd (s : State) : s.countDown.fwd = s.fwd := rfl
@[simp] theorem State.countDown_rev (s : State) : s.countDown.rev = s.rev := rfl
@[simp] theorem State.countDown_rawCap (s : State) : s.countDown.rawCap = s.rawCap := rfl
@[simp] theorem State.countDown_resets (s : State) : s.countDown.resets = s.resets := rfl
@[simp] theorem State.countDown_draws (s : State) : s.countDown.draws = s.draws := rfl
@[simp] theorem State.countDown_delay (s : State) : s.countDown.delay = s.delay - 1 := rfl
@[simp] theorem State.countDown_latencies (s : State) : s.countDown.latencies = s.latencies := rfl
@[simp] theorem State.countDown_host (s : State) : s.countDown.host = s.host := rfl

/-! ### `State.placeCommand` -/

@[simp] theorem State.placeCommand_busy (s : State) (w : Word) : (s.placeCommand w).busy = true := rfl
@[simp] theorem State.placeCommand_dropped (s : State) (w : Word) : (s.placeCommand w).dropped = s.dropped := rfl
@[simp] theorem State.placeCommand_lastOp (s : State) (w : Word) : (s.placeCommand w).lastOp = opField w := rfl
@[simp] theorem State.placeCommand_errCode (s : State) (w : Word) : (s.placeCommand w).errCode = s.errCode := rfl
@[simp] theorem State.placeCommand_errInfo (s : State) (w : Word) : (s.placeCommand w).errInfo = s.errInfo := rfl
@[simp] theorem State.placeCommand_irqDone (s : State) (w : Word) : (s.placeCommand w).irqDone = s.irqDone := rfl
@[simp] theorem State.placeCommand_irqError (s : State) (w : Word) : (s.placeCommand w).irqError = s.irqError := rfl
@[simp] theorem State.placeCommand_doneEn (s : State) (w : Word) : (s.placeCommand w).doneEn = s.doneEn := rfl
@[simp] theorem State.placeCommand_errorEn (s : State) (w : Word) : (s.placeCommand w).errorEn = s.errorEn := rfl
@[simp] theorem State.placeCommand_rawLen (s : State) (w : Word) : (s.placeCommand w).rawLen = s.rawLen := rfl
@[simp] theorem State.placeCommand_unitLen (s : State) (w : Word) : (s.placeCommand w).unitLen = s.unitLen := rfl
@[simp] theorem State.placeCommand_textLen (s : State) (w : Word) : (s.placeCommand w).textLen = s.textLen := rfl
@[simp] theorem State.placeCommand_alphaLen (s : State) (w : Word) : (s.placeCommand w).alphaLen = s.alphaLen := rfl
@[simp] theorem State.placeCommand_pending (s : State) (w : Word) : (s.placeCommand w).pending = w := rfl
@[simp] theorem State.placeCommand_mem (s : State) (w : Word) : (s.placeCommand w).mem = s.mem := rfl
@[simp] theorem State.placeCommand_fwd (s : State) (w : Word) : (s.placeCommand w).fwd = s.fwd := rfl
@[simp] theorem State.placeCommand_rev (s : State) (w : Word) : (s.placeCommand w).rev = s.rev := rfl
@[simp] theorem State.placeCommand_rawCap (s : State) (w : Word) : (s.placeCommand w).rawCap = s.rawCap := rfl
@[simp] theorem State.placeCommand_resets (s : State) (w : Word) : (s.placeCommand w).resets = s.resets := rfl
@[simp] theorem State.placeCommand_draws (s : State) (w : Word) : (s.placeCommand w).draws = s.draws := rfl
@[simp] theorem State.placeCommand_delay (s : State) (w : Word) : (s.placeCommand w).delay = 0 := rfl
@[simp] theorem State.placeCommand_latencies (s : State) (w : Word) :
    (s.placeCommand w).latencies = s.latencies := rfl
@[simp] theorem State.placeCommand_host (s : State) (w : Word) : (s.placeCommand w).host = s.host := rfl

/-! ### The completion step, by the result of the command's function -/

@[simp] theorem State.complete_ok (s : State) (u : Updates) : s.complete (.ok u) = (s.apply u).succeed := rfl

@[simp] theorem State.complete_error (s : State) (e : CmdError) : s.complete (.error e) = s.fail e := rfl

@[simp] theorem newLength_none (old : Word) : newLength old none = old := rfl

@[simp] theorem newLength_some (old : Word) (v : List Byte) : newLength old (some v) = BitVec.ofNat 32 v.length := rfl

@[simp] theorem newReverse_none (old : ReverseTable) : newReverse old none = old := rfl

@[simp] theorem newReverse_some (old : ReverseTable) (f : ForwardTable) :
    newReverse old (some f) = inverseTable f := rfl

/-- The reset after the first leaves what the first left, but for the parameter, the counters and the host (R240). -/
theorem State.resetBlock_eq (s : State) :
    s.resetBlock = { State.reset with
      rawCap := s.rawCap, resets := s.resets + 1, draws := s.draws, latencies := s.latencies, host := s.host } :=
  rfl

end Sys2Proof.Machine
end

