-- ==== Sys2Proof/Laws/Exec.lean ====
section
/-! SUPPORT. What the shared operations and a step can do, said once: the source operand, the completion step, `exec` as
the completion of the command's function, and the cases of `step`.
-/

namespace Sys2Proof.Machine

/-! ### The source operand -/

theorem State.source_overflow {s : State} {a : Arr} (h : s.cap a < (s.len a).toNat) :
    s.source a = .error ⟨.lengthOverflow, s.len a⟩ := by
  simp [State.source, checkLen, h]

theorem State.source_ok {s : State} {a : Arr} (h : (s.len a).toNat ≤ s.cap a) : s.source a = .ok (s.content a) := by
  have : ¬ s.cap a < (s.len a).toNat := by omega
  simp [State.source, checkLen, this]

/-- The source operand is the array's valid content when the length is within the capacity, else LENGTH_OVERFLOW (R119). -/
theorem State.source_cases (s : State) (a : Arr) :
    ((s.len a).toNat ≤ s.cap a ∧ s.source a = .ok (s.content a)) ∨
    (s.cap a < (s.len a).toNat ∧ s.source a = .error ⟨.lengthOverflow, s.len a⟩) := by
  rcases Nat.lt_or_ge (s.cap a) (s.len a).toNat with h | h
  · exact .inr ⟨h, State.source_overflow h⟩
  · exact .inl ⟨h, State.source_ok h⟩

/-! ### The completion step -/

/-- The result of a command's function, by the command (R112). -/
def commandResult (i : Instr) (s : State) : Checked Updates :=
  match i with
  | .nop => .ok {}
  | .pack => packExec s
  | .unpack => unpackExec s
  | .toText => toTextExec s
  | .fromText => fromTextExec s
  | .encode => encodeExec s
  | .decode => decodeExec s
  | .buildAlphabet => buildAlphabetExec s
  | .loadStdAlphabet => loadStdExec

/-- `exec` is the completion step of the command's function. -/
theorem exec_eq (i : Instr) (s : State) : exec i s = .next (s.complete (commandResult i s)) := by
  cases i <;> rfl

/-- What `exec` answers, by inversion. -/
theorem exec_next {i : Instr} {s t : State} (h : exec i s = .next t) : t = s.complete (commandResult i s) := by
  rw [exec_eq] at h
  injection h with h
  exact h.symm

/-- A completion step is a success that applies its updates, or a failure that writes the status alone (R111, R113). -/
theorem State.complete_cases (s : State) (r : Checked Updates) :
    (∃ u, r = .ok u ∧ s.complete r = (s.apply u).succeed) ∨ (∃ e, r = .error e ∧ s.complete r = s.fail e) := by
  cases r with
  | ok u => exact .inl ⟨u, rfl, rfl⟩
  | error e => exact .inr ⟨e, rfl, rfl⟩

theorem ErrCode.bits_ne_zero (c : ErrCode) : c.bits ≠ 0#4 := by cases c <;> decide

/-- `ERR_CODE` is 0 after a completion step exactly when the command succeeded. -/
theorem State.complete_errCode_zero {s : State} {r : Checked Updates} (h : (s.complete r).errCode = 0#4) :
    ∃ u, r = .ok u ∧ s.complete r = (s.apply u).succeed := by
  rcases s.complete_cases r with hu | ⟨e, rfl, -⟩
  · exact hu
  · exact absurd h e.code.bits_ne_zero

/-- The array a length register of an update's array belongs to. -/
def Updates.get (u : Updates) : Arr → Option (List Byte)
  | .stage => none
  | .raw => u.raw
  | .unit => u.unit
  | .text => u.text

theorem State.apply_len (s : State) (u : Updates) (a : Arr) : (s.apply u).len a = newLength (s.len a) (u.get a) := by
  cases a <;> rfl

/-- The update fits: each new content is within its array's capacity. -/
def Updates.Fits (u : Updates) (c : Config.RawCap) : Prop := ∀ a v, u.get a = some v → v.length ≤ a.cap c

/-- An address that an update does not write reads as before. -/
theorem State.apply_byteAt_outside (s : State) (u : Updates) (x : Nat)
    (h : ∀ a v, u.get a = some v → x < a.base ∨ a.base + v.length ≤ x) : (s.apply u).byteAt x = s.byteAt x := by
  have keep (m : Memory) (a : Arr) (v : Option (List Byte))
      (hv : ∀ w, v = some w → x < a.base ∨ a.base + w.length ≤ x) : (m.update a v).find x = m.find x := by
    cases v with
    | none => rfl
    | some w => exact Memory.find_store_outside m a.base w x (hv w rfl)
  refine State.byteAt_congr (s := s) ?_ rfl
  rw [State.apply_mem, keep _ .raw u.raw (h .raw), keep _ .text u.text (h .text), keep _ .unit u.unit (h .unit)]

/-- The array an address of a fitting update belongs to is unique: the arrays' windows do not overlap. -/
theorem Arr.disjoint (a b : Arr) (h : a ≠ b) : a.base + a.window ≤ b.base ∨ b.base + b.window ≤ a.base := by
  cases a <;> cases b <;> first | exact absurd rfl h | decide

/-- An element of a written array is the new content's, below its length. -/
theorem State.apply_elem_inside (s : State) (u : Updates) (a : Arr) (v : List Byte) (hu : u.get a = some v)
    (hw : ∀ b w, u.get b = some w → w.length ≤ b.window) (i : Nat) (hi : i < v.length) :
    (s.apply u).elem a i = v[i] := by
  apply State.byteAt_of_find
  have hv := hw a v hu
  have out (m : Memory) (b : Arr) (hb : b ≠ a) : (m.update b (u.get b)).find (a.base + i) = m.find (a.base + i) := by
    cases hg : u.get b with
    | none => rfl
    | some w =>
      have h1 := hw b w hg
      have h2 := Arr.disjoint b a hb
      exact Memory.find_store_outside m b.base w _ (by omega)
  have inn (m : Memory) : (m.update a (u.get a)).find (a.base + i) = some v[i] := by
    rw [hu, Memory.update_some, Memory.find_store_inside _ _ _ _ hi]
  have hm : (s.apply u).mem =
      ((s.mem.update .unit (u.get .unit)).update .text (u.get .text)).update .raw (u.get .raw) := rfl
  rw [hm]
  cases a with
  | stage => cases hu
  | raw => exact inn _
  | unit => rw [out _ .raw (by decide), out _ .text (by decide), inn]
  | text => rw [out _ .raw (by decide), inn]

/-- The new content of a written array is the update's. -/
theorem State.apply_content (s : State) (u : Updates) (a : Arr) (v : List Byte) (hu : u.get a = some v)
    (hw : ∀ b w, u.get b = some w → w.length ≤ b.window) : (s.apply u).content a = v := by
  have hv := hw a v hu
  have ha : a.window ≤ 65536 := by cases a <;> decide
  have hl : ((s.apply u).len a).toNat = v.length := by
    rw [State.apply_len, hu, newLength_some, BitVec.toNat_ofNat, Nat.mod_eq_of_lt (by omega)]
  rw [State.content, hl]
  exact State.slice_eq _ _ _ fun i hi => State.apply_elem_inside s u a v hu hw i hi

/-- An array that an update does not write keeps its elements, within its window. -/
theorem State.apply_elem_other (s : State) (u : Updates) (a : Arr) (hu : u.get a = none)
    (hw : ∀ b w, u.get b = some w → w.length ≤ b.window) (i : Nat) (hi : i < a.window) :
    (s.apply u).elem a i = s.elem a i := by
  apply State.apply_byteAt_outside
  intro b w hb
  have hne : b ≠ a := by
    rintro rfl
    rw [hu] at hb
    cases hb
  have h1 := hw b w hb
  have h2 := Arr.disjoint b a hne
  omega

/-! ### The status of a completion leaves memory alone -/

@[simp] theorem State.succeed_byteAt (s : State) (x : Nat) : s.succeed.byteAt x = s.byteAt x := rfl

@[simp] theorem State.succeed_elem (s : State) (a : Arr) (i : Nat) : s.succeed.elem a i = s.elem a i := rfl

@[simp] theorem State.succeed_len (s : State) (a : Arr) : s.succeed.len a = s.len a := by cases a <;> rfl

@[simp] theorem State.succeed_slice (s : State) (a : Arr) (i n : Nat) : s.succeed.slice a i n = s.slice a i n := by
  induction n generalizing i with
  | zero => rfl
  | succ n ih => simp [State.slice, ih]

@[simp] theorem State.succeed_content (s : State) (a : Arr) : s.succeed.content a = s.content a := by
  simp [State.content]

@[simp] theorem State.fail_byteAt (s : State) (e : CmdError) (x : Nat) : (s.fail e).byteAt x = s.byteAt x := rfl

@[simp] theorem State.fail_elem (s : State) (e : CmdError) (a : Arr) (i : Nat) : (s.fail e).elem a i = s.elem a i := rfl

@[simp] theorem State.fail_len (s : State) (e : CmdError) (a : Arr) : (s.fail e).len a = s.len a := by cases a <;> rfl

/-! ### The step -/

/-- Everything a step can do (R5, R6, R112). -/
theorem step_cases (s : State) :
    (∃ i, s.engineTurn = true ∧ decode s.pending = .ok i ∧ step s = .next (s.complete (commandResult i s))) ∨
    (∃ r, s.engineTurn = true ∧ decode s.pending = .error r ∧ step s = .next (s.completeIllegal s.pending)) ∨
    (s.engineTurn = false ∧ step s = .next s.hostStep) := by
  unfold step State.engineStep
  cases ht : s.engineTurn with
  | false => exact .inr (.inr ⟨rfl, rfl⟩)
  | true =>
    cases hd : decode s.pending with
    | ok i => exact .inl ⟨i, rfl, rfl, by simp [exec_eq]⟩
    | error r => exact .inr (.inl ⟨r, rfl, rfl, rfl⟩)

end Sys2Proof.Machine
end

