-- ==== Sys2Proof/Laws/Host.lean ====
section
/-! SUPPORT. What one host write can do while the block is busy, and what the host's statements leave of the state, said once.
-/

namespace Sys2Proof.Machine

theorem State.hostWr_eq (s : State) (a : HostAddr) (d : Word) :
    s.hostWr a d = { (s.memWrite a d).1 with
      host := (s.memWrite a d).1.host.record ⟨⟨.write, a, d⟩, (s.memWrite a d).2⟩ } :=
  rfl

theorem State.hostRd_eq (s : State) (a : HostAddr) (name : Option Nat) :
    s.hostRd a name = { s with
      draws := s.draws + 1
      host := (s.host.bind name (s.memRead a).2).record ⟨⟨.read, a, (s.memRead a).2⟩, (s.memRead a).1⟩ } :=
  rfl

theorem HostAgent.current_eq_none (h : HostAgent) : h.current = none ↔ h.finished = true := by
  simp [HostAgent.current, HostAgent.finished]

/-- The host's step when it has a statement left, and when it has none. -/
theorem State.hostStep_cases (s : State) :
    (s.host.finished = true ∧ s.hostStep = s) ∨
    (∃ st, s.host.finished = false ∧ s.host.current = some st ∧ s.hostStep = s.countDown.perform st) := by
  cases hc : s.host.current with
  | none => exact .inl ⟨s.host.current_eq_none.mp hc, by simp [State.hostStep, hc]⟩
  | some st =>
    refine .inr ⟨st, ?_, rfl, by simp [State.hostStep, hc]⟩
    cases hf : s.host.finished with
    | false => rfl
    | true => rw [s.host.current_eq_none.mpr hf] at hc; cases hc

/-- Everything a host write can do while busy (R72, R28): nothing, a drop, the soft reset, or a write to STATUS, IRQ_STATUS or
IRQ_ENABLE. -/
theorem State.memWrite_busy_cases (s : State) (a : HostAddr) (d : Word) (hb : s.busy = true) :
    (s.memWrite a d).1 = s ∨ (s.memWrite a d).1 = s.setDropped ∨
    (a = 0x00010#18 ∧ d.getLsbD 0 = true ∧ (s.memWrite a d).1 = s.resetBlock) ∨
    (s.memWrite a d).1 = s.writeStatus d ∨ (s.memWrite a d).1 = s.writeIrqStatus d ∨
    (s.memWrite a d).1 = s.writeIrqEnable d := by
  rcases s.memWrite_cases a d with h | ⟨-, h⟩ | ⟨r, hr, hp, h⟩ | ⟨arr, o, hf, -, -⟩
  · exact .inl h
  · exact .inr (.inl h)
  · have hp := hp hb
    rw [h]
    cases r with
    | cmd => cases hp
    | rawLen => cases hp
    | unitLen => cases hp
    | textLen => cases hp
    | alphaLen => cases hp
    | ctrl =>
      by_cases hd : d.getLsbD 0 = true
      · exact .inr (.inr (.inl ⟨BitVec.eq_of_toNat_eq hr, hd, if_pos hd⟩))
      · exact .inl (if_neg hd)
    | status => exact .inr (.inr (.inr (.inl rfl)))
    | irqStatus => exact .inr (.inr (.inr (.inr (.inl rfl))))
    | irqEnable => exact .inr (.inr (.inr (.inr (.inr rfl))))
    | _ => exact .inl rfl
  · rw [hb] at hf
    cases hf

end Sys2Proof.Machine
end

