-- ==== Sys2Proof/Laws/PerInstr.lean ====
section
/-! SUPPORT. The per-instruction families. `EncodeLegal`: the command word of each command is legal and carries its opcode.
-/

namespace Sys2Proof.Laws

/-- The command word of `i` is legal, its OP field is the opcode of `i`, and `i` is well formed (R90 to R92). -/
def EncodeLegal.Statement (i : Instr) : Prop :=
  wordLegal (encode i) = true ∧ opField (encode i) = opcode i ∧ i.wellFormed = true

theorem EncodeLegal.nop : EncodeLegal.Statement .nop := ⟨rfl, rfl, rfl⟩
theorem EncodeLegal.pack : EncodeLegal.Statement .pack := ⟨rfl, rfl, rfl⟩
theorem EncodeLegal.unpack : EncodeLegal.Statement .unpack := ⟨rfl, rfl, rfl⟩
theorem EncodeLegal.toText : EncodeLegal.Statement .toText := ⟨rfl, rfl, rfl⟩
theorem EncodeLegal.fromText : EncodeLegal.Statement .fromText := ⟨rfl, rfl, rfl⟩
theorem EncodeLegal.encode : EncodeLegal.Statement .encode := ⟨rfl, rfl, rfl⟩
theorem EncodeLegal.decode : EncodeLegal.Statement .decode := ⟨rfl, rfl, rfl⟩
theorem EncodeLegal.buildAlphabet : EncodeLegal.Statement .buildAlphabet := ⟨rfl, rfl, rfl⟩
theorem EncodeLegal.loadStdAlphabet : EncodeLegal.Statement .loadStdAlphabet := ⟨rfl, rfl, rfl⟩

end Sys2Proof.Laws
end

