-- ==== Sys2Proof/Laws/Tables.lean ====
section
/-! SUPPORT. The inverse table, said once: what `inverseTable f` holds at each code, for a table of distinct codes.
-/

namespace Sys2Proof.Machine

theorem validEntry_toNat (i : Nat) (h : i < 94) : (validEntry i).toNat = 128 + i := by
  have : ∀ i : Fin 94, (validEntry i.val).toNat = 128 + i.val := by decide
  exact this ⟨i, h⟩

theorem validEntry_valid (i : Nat) (h : i < 94) : (validEntry i).getLsbD 7 = true := by
  have : ∀ i : Fin 94, (validEntry i.val).getLsbD 7 = true := by decide
  exact this ⟨i, h⟩

theorem validEntry_idx (i : Nat) (h : i < 94) : ((validEntry i).extractLsb' 0 7).toNat = i := by
  have : ∀ i : Fin 94, ((validEntry i.val).extractLsb' 0 7).toNat = i.val := by decide
  exact this ⟨i, h⟩

/-- A code that no entry has keeps its entry of REV. -/
theorem fillReverse_absent (cs : List Code) (i : Nat) (r : ReverseTable) (c : Nat) (hc : c < 128)
    (h : ∀ x ∈ cs, x.toNat ≠ c) : (fillReverse i cs r)[c] = r[c] := by
  induction cs generalizing i r with
  | nil => rfl
  | cons x cs ih =>
    rw [fillReverse, ih _ _ (fun y hy => h y (by simp [hy])), Vector.getElem_set_ne]
    exact h x (by simp)

/-- A code that one entry has gets that entry's index. -/
theorem fillReverse_present (cs : List Code) (i : Nat) (r : ReverseTable) (hd : cs.Nodup) (k : Nat)
    (hk : k < cs.length) : (fillReverse i cs r)[(cs[k]).toNat]'(cs[k]).isLt = validEntry (i + k) := by
  induction cs generalizing i r k with
  | nil => simp at hk
  | cons x cs ih =>
    rw [List.nodup_cons] at hd
    cases k with
    | zero =>
      simp only [List.getElem_cons_zero, fillReverse, Nat.add_zero]
      rw [fillReverse_absent cs _ _ _ x.isLt, Vector.getElem_set_self]
      intro y hy he
      exact hd.1 (BitVec.eq_of_toNat_eq he ▸ hy)
    | succ k =>
      simp only [List.getElem_cons_succ, fillReverse]
      rw [ih _ _ hd.2 k (by simpa using hk)]
      congr 1
      omega

/-- `REV[F[i]] = 0x80 | i` after `Inverse` (R46). -/
theorem inverseTable_present (f : ForwardTable) (hd : f.toList.Nodup) (i : Fin 94) :
    (inverseTable f)[(f[i.val]).toNat]'(f[i.val]).isLt = validEntry i.val := by
  have h := fillReverse_present f.toList 0 (Vector.replicate 128 0x00#8) hd i.val (by simp)
  simpa [inverseTable] using h

/-- `REV[c] = 0` after `Inverse` for a code that is no symbol (R46). -/
theorem inverseTable_absent (f : ForwardTable) (c : Nat) (hc : c < 128) (h : ∀ i : Fin 94, (f[i.val]).toNat ≠ c) :
    (inverseTable f)[c] = 0x00#8 := by
  rw [inverseTable, fillReverse_absent _ _ _ _ hc, Vector.getElem_replicate]
  intro x hx
  rw [Vector.mem_toList_iff, Vector.mem_iff_getElem] at hx
  obtain ⟨i, hi, rfl⟩ := hx
  exact h ⟨i, hi⟩

/-- The entries of a list of distinct codes are distinct. -/
theorem toList_nodup_of_injective (f : ForwardTable)
    (h : ∀ i j : Fin 94, f[i.val] = f[j.val] → i = j) : f.toList.Nodup := by
  rw [List.nodup_iff_injective_getElem]
  intro i j hij
  have hi : i.val < 94 := by simpa using i.isLt
  have hj : j.val < 94 := by simpa using j.isLt
  have := h ⟨i.val, hi⟩ ⟨j.val, hj⟩ (by simpa using hij)
  exact Fin.ext (by simpa using this)

theorem stdTable_toNat (i : Fin 94) : (stdTable[i.val]).toNat = 33 + (Config.stdOrder i).val := by
  have : (Config.stdOrder i).val < 94 := (Config.stdOrder i).isLt
  simp only [stdTable, Vector.getElem_ofFn, BitVec.toNat_ofNat]
  exact Nat.mod_eq_of_lt (by omega)

theorem stdTable_injective (i j : Fin 94) (h : stdTable[i.val] = stdTable[j.val]) : i = j := by
  have h' := congrArg BitVec.toNat h
  rw [stdTable_toNat, stdTable_toNat] at h'
  exact Config.stdOrder.injective (Fin.ext (by omega))

/-! ### Lookups -/

theorem symbolAt_toNat (f : ForwardTable) (i : Fin 94) : (symbolAt f i).toNat = (f[i.val]).toNat := by
  have := (f[i.val]).isLt
  simp only [symbolAt, BitVec.toNat_setWidth]
  omega

theorem revEntry_of_lt (r : ReverseTable) (c : Byte) (h : c.toNat < 128) : revEntry r c = r[c.toNat] := by
  simp [revEntry, h]

theorem revIdx_lt (r : ReverseTable) (c : Byte) : revIdx r c < 128 := by
  unfold revIdx
  exact BitVec.isLt _

end Sys2Proof.Machine
end

