-- ==== Sys2Proof/Tests/Slice0.lean ====
section
/-! SUPPORT. Tests. Expected results are the spec's: its encodings (spec/30_encoding.md), its vectors and examples
(spec/95_test_vectors.md, named at each test), or hand calculation from a rule. After them, a witness for the hypotheses of each
statement that has some.
-/

namespace Sys2Proof.Tests

-- One thread for this file: its many kernel evaluations, each with a thread of its own, would ask for too many stacks.
set_option Elab.async false

open Sys2Proof.Machine

/-! ### Helpers -/

/-- The test alphabet of spec/95_test_vectors.md: `FWD[i] = 33 + i`. -/
def testTable : ForwardTable := Vector.ofFn fun i => BitVec.ofNat 7 (33 + i.val)

/-- A state right after reset but for its memory, its lengths and the test alphabet. -/
def small (mem : Memory) (raw unit text alpha : Nat) : State :=
  { State.reset with
    mem := mem, rawLen := BitVec.ofNat 32 raw, unitLen := BitVec.ofNat 32 unit
    textLen := BitVec.ofNat 32 text, alphaLen := BitVec.ofNat 32 alpha
    fwd := testTable, rev := inverseTable testTable }

/-- `RAW[0..)` holds the bytes, `RAW_LEN` their number. -/
def withRaw (b : List Byte) : State := small (cellsFrom Arr.raw.base b) b.length 0 0 0

/-- `UNIT[0..)` holds the units, `UNIT_LEN` their number. -/
def withUnits (u : List Byte) : State := small (cellsFrom Arr.unit.base u) 0 u.length 0 0

/-- `TEXT[0..)` holds the codes, `TEXT_LEN` their number. -/
def withText (t : List Byte) : State := small (cellsFrom Arr.text.base t) 0 0 t.length 0

/-- `STAGE[0..)` holds the symbols, `ALPHA_LEN` their number. -/
def withStage (c : List Byte) : State := small (cellsFrom Arr.stage.base c) 0 0 0 c.length

/-- The state after a command's completion. -/
def after (i : Instr) (s : State) : State :=
  match exec i s with
  | .next t => t
  | _ => s

/-- The codes 33..126 in ascending order: the staged test alphabet. -/
def staged : List Byte := (List.range 94).map fun i => BitVec.ofNat 8 (33 + i)

/-! ### WellFormed: each check refuses an ill-formed term -/

theorem test_reserved_bit_ill_formed : wordLegal 0x00000010#32 = false := by decide
theorem test_reserved_opcode_ill_formed : wordLegal 0x00000009#32 = false := by decide
theorem test_word_well_formed : wordLegal 0x00000008#32 = true := by decide
theorem test_93_symbols_ill_formed : symbolsValid (staged.take 93) = false := by decide +kernel
theorem test_space_symbol_ill_formed : symbolsValid (0x20#8 :: staged.drop 1) = false := by decide +kernel
theorem test_repeated_symbol_ill_formed : symbolsValid (0x22#8 :: staged.drop 1) = false := by decide +kernel
theorem test_symbols_well_formed : symbolsValid staged = true := by decide +kernel
theorem test_jump_past_end_ill_formed : programWellFormed [.rd 0x18#18 (some 0), .bnz 0 1#32 3] = false := by decide
theorem test_wait_loop_well_formed : programWellFormed [.rd 0x18#18 (some 0), .bnz 0 1#32 0] = true := by decide

/-! ### Decode: each command's word, written out from R90 and R91 (RSVD, then OP) -/

theorem test_decode_nop : decode 0b0000000000000000000000000000_0000#32 = .ok .nop := rfl
theorem test_decode_pack : decode 0b0000000000000000000000000000_0001#32 = .ok .pack := rfl
theorem test_decode_unpack : decode 0b0000000000000000000000000000_0010#32 = .ok .unpack := rfl
theorem test_decode_to_text : decode 0b0000000000000000000000000000_0011#32 = .ok .toText := rfl
theorem test_decode_from_text : decode 0b0000000000000000000000000000_0100#32 = .ok .fromText := rfl
theorem test_decode_encode : decode 0b0000000000000000000000000000_0101#32 = .ok .encode := rfl
theorem test_decode_decode : decode 0b0000000000000000000000000000_0110#32 = .ok .decode := rfl
theorem test_decode_build : decode 0b0000000000000000000000000000_0111#32 = .ok .buildAlphabet := rfl
theorem test_decode_load_std : decode 0b0000000000000000000000000000_1000#32 = .ok .loadStdAlphabet := rfl
theorem test_decode_reserved_opcode : decode 0b0000000000000000000000000000_1111#32 = .error .reservedOpcode := rfl
theorem test_decode_reserved_field : decode 0b1000000000000000000000000000_0001#32 = .error .reservedField := rfl
theorem test_decode_table_word : decodeTableWord 32 0x00000006 = some .decode := by decide

/-! ### One step of each command -/

/-- R192: a NOP after a failed command clears the error but not `IRQ_STATUS.ERROR`. -/
theorem test_nop_clears_error :
    (after .nop (failedWith State.reset 9#4 0x10#32)).statusWord = 0#32 ∧
    (after .nop (failedWith State.reset 9#4 0x10#32)).irqStatusWord = 3#32 := by decide +kernel

/-- V-PK-05: band D. -/
theorem test_pack_band_d : (after .pack (withRaw [0x12, 0x34, 0x56])).content .unit = [0x02, 0x46, 0x04, 0x56] := by
  decide +kernel

/-- V-PK-12: band C, seven leftover bits. -/
theorem test_pack_band_c : (after .pack (withRaw (List.replicate 9 0x80))).content .unit =
    [0x10, 0x10, 0x02, 0x02, 0x00, 0x40, 0x08, 0x08, 0x01, 0x01, 0x00, 0x80] := by decide +kernel

/-- V-UP-21: the top two bits of the last byte come from the group. -/
theorem test_unpack_band_b : (after .unpack (withUnits [0x1F, 0xFF, 0x1F, 0xFF, 0x00])).content .raw =
    [0xFF, 0xFF, 0xFF, 0xC0] := by decide +kernel

/-- V-UP-16: MALFORMED_REDUNDANT at 2. -/
theorem test_unpack_redundant : (after .unpack (withUnits [0x02, 0x46, 0x0C, 0x56])).errCode = 6#4 ∧
    (after .unpack (withUnits [0x02, 0x46, 0x0C, 0x56])).errInfo = 2#32 := by decide +kernel

/-- V-TT-05: the largest pair. -/
theorem test_to_text_largest : (after .toText (withUnits [0x22, 0x83])).content .text = [0x7E, 0x7E] := by
  decide +kernel

/-- V-TT-06: INDEX_RANGE at 0. -/
theorem test_to_text_range : (after .toText (withUnits [0x22, 0x84])).errCode = 7#4 := by decide +kernel

/-- R173's example. -/
theorem test_from_text : (after .fromText (withText [0x5B, 0x4E, 0x2E])).content .unit = [0x15, 0x79, 0x0D] := by
  decide +kernel

/-- S7: DEL is illegal, at 1. -/
theorem test_from_text_del : (after .fromText (withText [0x61, 0x7F])).errCode = 3#4 ∧
    (after .fromText (withText [0x61, 0x7F])).errInfo = 1#32 := by decide +kernel

/-- V-PK-04: the units and the text. -/
theorem test_encode : (after .encode (withRaw [0xAB, 0xCD])).content .unit = [0x15, 0x79, 0x0D] ∧
    (after .encode (withRaw [0xAB, 0xCD])).content .text = [0x5B, 0x4E, 0x2E] := by decide +kernel

/-- V-PK-19's length, for ENCODE: one over the capacity. -/
theorem test_encode_overflow : (after .encode (small [] 8193 7 7 0)).errCode = 8#4 ∧
    (after .encode (small [] 8193 7 7 0)).unitLen = 7#32 := by decide +kernel

/-- R191's example. -/
theorem test_decode_text : (after .decode (withText [0x5B, 0x4E, 0x2E])).content .raw = [0xAB, 0xCD] := by
  decide +kernel

/-- R191's corner case: MALFORMED_VALUE at 0, and UNIT is not written. -/
theorem test_decode_value : (after .decode (withText [0x7E, 0x7E])).errCode = 5#4 ∧
    (after .decode (withText [0x7E, 0x7E])).unitLen = 0#32 := by decide +kernel

/-- V-AL-10: the reversed order. -/
theorem test_build_reversed : (after .buildAlphabet (withStage staged.reverse)).fwd[0] = 126#7 ∧
    (after .buildAlphabet (withStage staged.reverse)).rev[33] = 0xDD#8 := by decide +kernel

/-- S6: the second '0' is at 20. -/
theorem test_build_duplicate : (after .buildAlphabet (withStage (staged.set 20 48))).errInfo = 20#32 := by
  decide +kernel

/-- V-AL-11. -/
theorem test_load_std : (after .loadStdAlphabet (withStage staged)).fwd = stdTable := rfl

/-! ### The host port -/

/-- R69's example: the word at offset 10080 of UNIT reaches three bytes. -/
theorem test_last_word_of_unit :
    ((small [] 0 0 0 0).memWrite 0x22760#18 0xDDCCBBAA#32).1.mem = [(0x22760, 0xAA), (0x22761, 0xBB), (0x22762, 0xCC)] := by
  decide +kernel

/-- The host's first transaction of a program, then the engine's step: `cmd PACK` from reset, with no latency. -/
theorem test_command_write_then_step :
    ((small [] 0 0 0 0).withProgram [issueCommand .pack] [0]).hostStep.engineTurn = true := by decide +kernel

/-! ### Witnesses: for each statement that has hypotheses, states and operands that meet them all together

Each is named after its statement, with the clause where a statement has several; boundary values where a clause has a range. -/

/-- `exec` answers the state `after` names. -/
theorem exec_after (i : Instr) (s : State) : exec i s = .next (after i s) := by
  simp [after, exec_eq]

/-- A state in which a command waits on its latency while the host still has statements to issue. -/
def waiting (st : HostStmt) (delay : Nat) : State :=
  { (withRaw [0xAB, 0xCD]).placeCommand 0x1#32 with
    delay := delay, host := { prog := [st], next := 0, names := [(0, 0x10#32)], last := none } }

/-- `w` is the pending word, at the engine's turn. -/
def placed (w : Word) : State := (withRaw [0xAB, 0xCD]).placeCommand w

/-- A state in which nothing is pending, with the lengths given and nothing written. -/
def lengths (raw unit text alpha : Nat) : State := small [] raw unit text alpha

theorem witness_PseudoInstructionsExpand_wrbytes :
    0x7F % 4 ≠ 0 ∧ 0x7C % 4 = 0 ∧ 0x7C + [1#8, 2, 3, 4].length ≤ (Win.ram .stage).size ∧ 0 < (4 + 3) / 4 := by decide

theorem witness_PseudoInstructionsExpand_rdbytes : 0x5D + 3 ≤ Win.std.size ∧ 0 < (3 + 3) / 4 := by decide

theorem witness_StepRunsTheDecodedCommand :
    (placed 0x8#32).busy = true ∧ (placed 0x8#32).delay = 0 ∧ decode (placed 0x8#32).pending = .ok .loadStdAlphabet := by
  decide

/-- The host has finished, so the engine's turn has come although the latency has not passed. -/
theorem witness_StepRunsTheDecodedCommand_finished :
    let s := { placed 0x0#32 with delay := 9 }
    s.busy = true ∧ s.host.finished = true ∧ decode s.pending = .ok .nop := by decide

theorem witness_StepRunsTheDecodedCommand_host :
    (lengths 0 0 0 0).busy = false ∧ (waiting .resetPin 1).delay ≠ 0 ∧ (waiting .resetPin 1).host.finished = false := by
  decide

theorem witness_HostStepPerformsOneTransaction :
    (waiting (.wr 0x00018#18 4#32) 1).host.current = some (.wr 0x00018#18 4#32) ∧
    (waiting (.rd 0x00018#18 (some 0)) 1).host.current = some (.rd 0x00018#18 (some 0)) ∧
    (waiting (.bnz 0 0x10#32 0) 1).host.current = some (.bnz 0 0x10#32 0) ∧
    (waiting (.bnz 0 0x20#32 0) 1).host.current = some (.bnz 0 0x20#32 0) ∧
    (placed 0x0#32).host.finished = true := by decide

/-- The first reserved opcode, the last one, and a word whose reserved field alone is wrong. -/
theorem witness_IllegalWordCompletesBadCommand :
    (placed 0x9#32).busy = true ∧ (placed 0x9#32).delay = 0 ∧ 9 ≤ (placed 0x9#32).pending.toNat % 16 ∧
    9 ≤ (placed 0xF#32).pending.toNat % 16 ∧ (placed 0x10#32).pending.toNat / 16 ≠ 0 := by decide

theorem witness_CommandWriteAccepts : (lengths 0 0 0 0).busy = false ∧ (placed 0x1#32).busy = true := by decide

theorem witness_FailingCommandWritesOnlyStatus :
    exec .pack (lengths 8193 0 0 0) = .next (after .pack (lengths 8193 0 0 0)) ∧
    (after .pack (lengths 8193 0 0 0)).errCode ≠ 0#4 ∧
    (placed 0x9#32).engineStep = .next (failedWith (placed 0x9#32) 9#4 0x9#32) := by
  exact ⟨exec_after _ _, by decide +kernel, rfl⟩

theorem witness_SourcesAreNotModified :
    exec .encode (withRaw [0xAB, 0xCD]) = .next (after .encode (withRaw [0xAB, 0xCD])) ∧
    .raw ∈ sourcesOf .encode ∧ 8191 < (withRaw [0xAB, 0xCD]).cap .raw ∧ Instr.encode ≠ .buildAlphabet ∧
    Instr.encode ≠ .loadStdAlphabet := by
  refine ⟨exec_after _ _, ?_⟩; decide

/-- Two states with one source, which differ in what is no source of TO_TEXT: REV, and UNIT past its length, among others. -/
theorem witness_ResultsDependOnSourcesOnly :
    let s := withUnits [0x15, 0x79, 0x0D]
    let s' := { s with
      mem := s.mem ++ [(0x20003, 0xEE)], rev := Vector.replicate 128 0#8, rawLen := 5#32, textLen := 9#32, errCode := 4#4 }
    SameSources .toText s s' ∧ exec .toText s = .next (after .toText s) ∧ exec .toText s' = .next (after .toText s') ∧
    (after .toText s).errCode = 0#4 ∧ .text ∈ destinationsOf .toText := by
  refine ⟨⟨rfl, fun a ha => ?_, fun a ha j hj => ?_, fun _ => rfl, fun h => ?_⟩, exec_after _ _, exec_after _ _, ?_, ?_⟩
  · rw [List.mem_singleton.mp ha]; rfl
  · obtain rfl := List.mem_singleton.mp ha
    have hj : j < 3 := hj
    interval_cases j <;> decide +kernel
  · rcases h with h | h <;> cases h
  · decide +kernel
  · decide

/-- The other rows of R93: STAGE read to 94, at the one length BUILD_ALPHABET takes, and REV for FROM_TEXT. -/
theorem witness_ResultsDependOnSourcesOnly_rows :
    SameSources .buildAlphabet (withStage staged) { withStage staged with fwd := stdTable, unitLen := 3#32 } ∧
    93 < (withStage staged).readCount .stage ∧ (lengths 0 0 0 95).readCount .stage = 0 ∧
    SameSources .fromText (withText [0x61]) { withText [0x61] with fwd := stdTable, rawLen := 3#32 } := by
  refine ⟨⟨rfl, fun a ha => ?_, fun _ _ _ _ => rfl, fun h => ?_, fun _ => rfl⟩, ?_, ?_,
    ⟨rfl, fun a ha => ?_, fun _ _ _ _ => rfl, fun h => ?_, fun _ => rfl⟩⟩
  · rw [List.mem_singleton.mp ha]; rfl
  · rcases h with h | h <;> cases h
  · decide +kernel
  · decide
  · rw [List.mem_singleton.mp ha]; rfl
  · rcases h with h | h <;> cases h

/-- One over each capacity. -/
theorem witness_LengthOverflowReported :
    (lengths 8193 10084 10084 0).cap .raw < ((lengths 8193 10084 10084 0).len .raw).toNat ∧
    (lengths 8193 10084 10084 0).cap .unit < ((lengths 8193 10084 10084 0).len .unit).toNat ∧
    (lengths 8193 10084 10084 0).cap .text < ((lengths 8193 10084 10084 0).len .text).toNat := by decide

theorem witness_EmptySourceSucceeds :
    (lengths 0 7 7 0).len .raw = 0#32 ∧ (lengths 7 0 7 0).len .unit = 0#32 ∧ (lengths 7 7 0 0).len .text = 0#32 ∧
    (lengths 0 7 7 0).mem.wf := by
  decide

theorem witness_DestinationsNeverOverflow :
    exec .decode (withText [0x5B, 0x4E, 0x2E]) = .next (after .decode (withText [0x5B, 0x4E, 0x2E])) ∧
    (after .decode (withText [0x5B, 0x4E, 0x2E])).errCode = 0#4 ∧ .raw ∈ destinationsOf .decode := by
  refine ⟨exec_after _ _, ?_⟩; decide +kernel

theorem witness_PendingCommandCompletes : (waiting .resetPin 1).busy = true ∧ (waiting .resetPin 1).delay = 1 := by decide

/-- A host that writes CTRL with bit 0 clear does not reset the block. -/
theorem witness_PendingCommandCompletes_no_reset :
    let s := waiting (.wr 0x00010#18 2#32) 1
    s.busy = true ∧ ∀ st ∈ s.host.prog, resets st = false := by
  refine ⟨rfl, fun st h => ?_⟩
  rw [List.mem_singleton.mp h]
  rfl

/-- A write that is dropped, a read, and a write to CTRL with bit 0 clear. -/
theorem witness_PendingCommandInputsAreStable :
    let s := waiting (.wr 0x00010#18 2#32) 1
    s.busy = true ∧ s.delay ≠ 0 ∧ s.host.finished = false ∧ s.host.current ≠ some .resetPin ∧
    (∀ d, s.host.current = some (.wr 0x00010#18 d) → d.getLsbD 0 = false) ∧ step s = .next s.hostStep := by
  refine ⟨rfl, by decide, rfl, by decide, ?_, rfl⟩
  intro d h
  have h : some (HostStmt.wr 0x00010#18 2#32) = some (.wr 0x00010#18 d) := h
  simp only [Option.some.injEq, HostStmt.wr.injEq, true_and] at h
  subst h
  rfl

/-- The whole of RAW, and UNIT and TEXT filled by it: the capacities. -/
theorem witness_PackCompletes : (lengths 8192 0 0 0).rawLen.toNat ≤ (lengths 8192 0 0 0).rawCap.val ∧
    unitLength 8192 = unitCap (lengths 8192 0 0 0).rawCap := by decide

theorem witness_EncodeCompletes : (lengths 8192 0 0 0).rawLen.toNat ≤ (lengths 8192 0 0 0).rawCap.val := by decide

/-- The fault predicates on the three units of V-PK-04. -/
theorem unpackable_sample : Unpackable 2 [0x15, 0x79, 0x0D] := by
  refine ⟨by decide, by decide, ?_, ?_⟩
  · rintro q (⟨k, hk, rfl, h⟩ | ⟨h, -⟩ | ⟨-, -, rfl, h⟩ | ⟨h, -⟩ | ⟨h, -⟩)
    · obtain rfl : k = 0 := by omega
      revert h; decide
    · revert h; decide
    · revert h; decide
    · revert h; decide
    · revert h; decide
  · rintro q (⟨-, -, rfl, j, hj, hj', h⟩ | ⟨h, -⟩ | ⟨h, -⟩)
    · have : 3 ≤ j := hj
      interval_cases j <;> revert h <;> decide
    · revert h; decide
    · revert h; decide

theorem units_content : (withUnits [0x15, 0x79, 0x0D]).content .unit = [0x15, 0x79, 0x0D] := by decide +kernel

theorem text_content : (withText [0x5B, 0x4E, 0x2E]).content .text = [0x5B, 0x4E, 0x2E] := by decide +kernel

theorem witness_UnpackCompletes :
    (withUnits [0x15, 0x79, 0x0D]).unitLen.toNat ≤ unitCap (withUnits [0x15, 0x79, 0x0D]).rawCap ∧
    Unpackable 2 ((withUnits [0x15, 0x79, 0x0D]).content .unit) :=
  ⟨by decide, by rw [units_content]; exact unpackable_sample⟩

theorem witness_ToTextCompletes :
    (withUnits [0x15, 0x79, 0x0D]).unitLen.toNat ≤ unitCap (withUnits [0x15, 0x79, 0x0D]).rawCap ∧
    ∀ p, ¬ IndexFault ((withUnits [0x15, 0x79, 0x0D]).content .unit) p := by
  refine ⟨by decide, ?_⟩
  rw [units_content]
  rintro p (⟨h2, hp, h⟩ | ⟨-, hp, h⟩)
  · have hp : p + 1 < 3 := hp
    obtain rfl : p = 0 := by omega
    revert h; decide
  · have hp : p + 1 = 3 := hp
    obtain rfl : p = 2 := by omega
    revert h; decide

/-- Every character of a text within 33..126 is a symbol of the test alphabet. -/
theorem no_charFault (t : List Byte) (h : ∀ c ∈ t, illegalChar (inverseTable testTable) c = false) (p : Nat) :
    ¬ CharFault (inverseTable testTable) t p := by
  rintro ⟨hp, hf⟩
  have h := h (nth t p) (by rw [nth_eq_getElem t p hp]; exact List.getElem_mem hp)
  simp only [illegalChar, Bool.or_eq_false_iff, decide_eq_false_iff_not, Bool.not_eq_false'] at h
  rcases hf with hf | hf | hf
  · exact h.1.1 hf
  · exact h.1.2 hf
  · rw [h.2] at hf; cases hf

theorem witness_FromTextCompletes :
    (withText [0x5B, 0x4E, 0x2E]).textLen.toNat ≤ unitCap (withText [0x5B, 0x4E, 0x2E]).rawCap ∧
    ∀ p, ¬ CharFault (withText [0x5B, 0x4E, 0x2E]).rev ((withText [0x5B, 0x4E, 0x2E]).content .text) p := by
  refine ⟨by decide, fun p => ?_⟩
  rw [text_content]
  exact no_charFault _ (by decide +kernel) p

/-- The units of a text, from its first pair, or pair and last character. -/
theorem unitsOf_three (r : ReverseTable) (a b c x y z : Byte)
    (h : x = BitVec.ofNat 8 ((revIdx r a * 94 + revIdx r b) / 256) ∧
      y = BitVec.ofNat 8 ((revIdx r a * 94 + revIdx r b) % 256) ∧ z = BitVec.ofNat 8 (revIdx r c)) :
    UnitsOf r [a, b, c] [x, y, z] := by
  refine ⟨rfl, fun i hi => ?_, fun _ => h.2.2⟩
  have hi : 2 * i + 1 < 3 := hi
  obtain rfl : i = 0 := by omega
  exact ⟨h.1, h.2.1⟩

theorem witness_DecodeCompletes :
    let s := withText [0x5B, 0x4E, 0x2E]
    s.textLen.toNat ≤ unitCap s.rawCap ∧ (∀ p, ¬ CharFault s.rev (s.content .text) p) ∧
    UnitsOf s.rev (s.content .text) [0x15, 0x79, 0x0D] ∧ Unpackable 2 [0x15, 0x79, 0x0D] := by
  refine ⟨witness_FromTextCompletes.1, witness_FromTextCompletes.2, ?_, unpackable_sample⟩
  rw [text_content]
  exact unitsOf_three _ _ _ _ _ _ _ (by decide +kernel)

/-- A staged symbol fault, decided over the indices below 94. -/
theorem no_symbolFault (st : Nat → Byte)
    (h : ∀ i, i < 94 → 33 ≤ (st i).toNat ∧ (st i).toNat ≤ 126 ∧ ∀ j, j < i → st j ≠ st i) (i : Nat) :
    ¬ SymbolFault st i := by
  rintro ⟨hi, hf⟩
  have h := h i hi
  rcases hf with hf | hf | ⟨j, hj, hf⟩
  · omega
  · omega
  · exact h.2.2 j hj hf

theorem staged_elem : ∀ i, i < 94 → (withStage staged).elem .stage i = BitVec.ofNat 8 (33 + i) := by decide +kernel

theorem witness_BuildAlphabetCompletes :
    (withStage staged).alphaLen = 94#32 ∧ ∀ i, ¬ SymbolFault ((withStage staged).elem .stage) i := by
  refine ⟨by decide +kernel, no_symbolFault _ fun i hi => ?_⟩
  rw [staged_elem i hi]
  refine ⟨by simp; omega, by simp; omega, fun j hj => ?_⟩
  rw [staged_elem j (by omega)]
  intro h
  have := congrArg BitVec.toNat h
  simp only [BitVec.toNat_ofNat] at this
  omega

/-- The sizes on each side of 94. -/
theorem witness_BuildAlphabetErrors_size : (lengths 0 0 0 93).alphaLen ≠ 94#32 ∧ (lengths 0 0 0 95).alphaLen ≠ 94#32 := by
  decide

/-- The lowest code above the range, at the last index. -/
theorem witness_BuildAlphabetErrors_symbol :
    let s := withStage (staged.set 93 127)
    s.alphaLen = 94#32 ∧ SymbolFault (s.elem .stage) 93 ∧ ∀ j, j < 93 → ¬ SymbolFault (s.elem .stage) j := by
  have he : ∀ i, i < 93 → (withStage (staged.set 93 127)).elem .stage i = BitVec.ofNat 8 (33 + i) := by decide +kernel
  refine ⟨by decide +kernel, ⟨by decide, .inr (.inl (by decide +kernel))⟩, ?_⟩
  rintro j hj ⟨-, hf⟩
  rw [he j hj] at hf
  rcases hf with hf | hf | ⟨k, hk, hf⟩
  · simp at hf; omega
  · simp at hf; omega
  · rw [he k (by omega)] at hf
    have := congrArg BitVec.toNat hf
    simp only [BitVec.toNat_ofNat] at this
    omega

theorem del_content : (withText [0x61, 0x7F]).content .text = [0x61, 0x7F] := by decide +kernel

theorem witness_IllegalCharacterReported :
    let s := withText [0x61, 0x7F]
    s.textLen.toNat ≤ unitCap s.rawCap ∧ CharFault s.rev (s.content .text) 1 ∧
    ∀ q, q < 1 → ¬ CharFault s.rev (s.content .text) q := by
  refine ⟨by decide, ?_⟩
  rw [del_content]
  refine ⟨⟨by decide, .inr (.inl (by decide))⟩, ?_⟩
  rintro q hq ⟨-, hf⟩
  obtain rfl : q = 0 := by omega
  revert hf; decide +kernel

/-- Length 6 is that of no pack (R160), nor is 1. -/
theorem not_unitLength (n : Nat) : 1 ≤ n → 1 ≠ unitLength n ∧ 6 ≠ unitLength n := by
  intro hn
  have h := unitLength_pos n hn
  constructor <;> (rw [h]; split <;> omega)

theorem witness_MalformedLengthReported :
    (lengths 0 1 0 0).unitLen.toNat ≤ unitCap (lengths 0 1 0 0).rawCap ∧ (lengths 0 1 0 0).unitLen ≠ 0#32 ∧
    ∀ n, 1 ≤ n → (lengths 0 1 0 0).unitLen.toNat ≠ unitLength n :=
  ⟨by decide, by decide, fun n hn => (not_unitLength n hn).1⟩

theorem witness_MalformedLengthReported_decode :
    let s := withText [0x21, 0x21, 0x21, 0x21, 0x21, 0x21]
    s.textLen.toNat ≤ unitCap s.rawCap ∧ s.textLen ≠ 0#32 ∧ (∀ p, ¬ CharFault s.rev (s.content .text) p) ∧
    ∀ n, 1 ≤ n → s.textLen.toNat ≠ unitLength n := by
  refine ⟨by decide, by decide, fun p => ?_, fun n hn => (not_unitLength n hn).2⟩
  have hc : (withText [0x21, 0x21, 0x21, 0x21, 0x21, 0x21]).content .text = [0x21, 0x21, 0x21, 0x21, 0x21, 0x21] := by
    decide +kernel
  rw [hc]
  exact no_charFault _ (by decide +kernel) p

/-- V-UP-10's range, at its edge: 32 in a group's high unit, the first position. -/
theorem witness_MalformedValueReported :
    let s := withUnits [0x20, 0x00, 0x00]
    s.unitLen.toNat = unitLength 2 ∧ s.unitLen.toNat ≤ unitCap s.rawCap ∧ ValueFault 2 (s.content .unit) 0 ∧
    ∀ q, q < 0 → ¬ ValueFault 2 (s.content .unit) q := by
  have hc : (withUnits [0x20, 0x00, 0x00]).content .unit = [0x20, 0x00, 0x00] := by decide +kernel
  refine ⟨by decide, by decide, ?_, fun q hq => absurd hq (Nat.not_lt_zero q)⟩
  rw [hc]
  exact .inl ⟨0, by decide, rfl, by decide⟩

/-- 64 in the tail unit, the lowest value out of range. -/
theorem witness_MalformedValueReported_decode :
    let s := withText [0x21, 0x21, 0x61]
    s.textLen.toNat = unitLength 2 ∧ s.textLen.toNat ≤ unitCap s.rawCap ∧ (∀ q, ¬ CharFault s.rev (s.content .text) q) ∧
    UnitsOf s.rev (s.content .text) [0x00, 0x00, 0x40] ∧ ValueFault 2 [0x00, 0x00, 0x40] 2 ∧
    ∀ q, q < 2 → ¬ ValueFault 2 [0x00, 0x00, 0x40] q := by
  have hc : (withText [0x21, 0x21, 0x61]).content .text = [0x21, 0x21, 0x61] := by decide +kernel
  refine ⟨by decide, by decide, fun q => ?_, ?_, .inr (.inr (.inl ⟨by decide, by decide, rfl, by decide⟩)), ?_⟩
  · rw [hc]; exact no_charFault _ (by decide +kernel) q
  · rw [hc]; exact unitsOf_three _ _ _ _ _ _ _ (by decide +kernel)
  · rintro q hq (⟨k, hk, rfl, h⟩ | ⟨h, -⟩ | ⟨-, -, rfl, -⟩ | ⟨h, -⟩ | ⟨h, -⟩)
    · obtain rfl : k = 0 := by omega
      revert h; decide
    · revert h; decide
    · revert hq; decide
    · revert h; decide
    · revert h; decide

/-- A tail unit of the units of V-PK-04 with bit 5, which repeats a group bit, changed. -/
theorem redundant_sample : (∀ q, ¬ ValueFault 2 [0x15, 0x79, 0x2D] q) ∧
    RedundancyFault 2 [0x15, 0x79, 0x2D] (unpackBytes (geometry (unitLength 2)) [0x15, 0x79, 0x2D]) 2 := by
  constructor
  · rintro q (⟨k, hk, rfl, h⟩ | ⟨h, -⟩ | ⟨-, -, rfl, h⟩ | ⟨h, -⟩ | ⟨h, -⟩)
    · obtain rfl : k = 0 := by omega
      revert h; decide
    · revert h; decide
    · revert h; decide
    · revert h; decide
    · revert h; decide
  · exact .inl ⟨by decide, by decide, rfl, 5, by decide, by decide, by decide +kernel⟩

theorem witness_MalformedRedundantReported :
    let s := withUnits [0x15, 0x79, 0x2D]
    s.unitLen.toNat = unitLength 2 ∧ s.unitLen.toNat ≤ unitCap s.rawCap ∧ (∀ q, ¬ ValueFault 2 (s.content .unit) q) ∧
    RedundancyFault 2 (s.content .unit) (unpackBytes (geometry (unitLength 2)) (s.content .unit)) 2 := by
  have hc : (withUnits [0x15, 0x79, 0x2D]).content .unit = [0x15, 0x79, 0x2D] := by decide +kernel
  refine ⟨by decide, by decide, ?_⟩
  rw [hc]
  exact redundant_sample

theorem witness_MalformedRedundantReported_decode :
    let s := withText [0x5B, 0x4E, 0x4E]
    s.textLen.toNat = unitLength 2 ∧ s.textLen.toNat ≤ unitCap s.rawCap ∧ (∀ q, ¬ CharFault s.rev (s.content .text) q) ∧
    UnitsOf s.rev (s.content .text) [0x15, 0x79, 0x2D] ∧ (∀ q, ¬ ValueFault 2 [0x15, 0x79, 0x2D] q) ∧
    RedundancyFault 2 [0x15, 0x79, 0x2D] (unpackBytes (geometry (unitLength 2)) [0x15, 0x79, 0x2D]) 2 := by
  have hc : (withText [0x5B, 0x4E, 0x4E]).content .text = [0x5B, 0x4E, 0x4E] := by decide +kernel
  refine ⟨by decide, by decide, fun q => ?_, ?_, redundant_sample⟩
  · rw [hc]; exact no_charFault _ (by decide +kernel) q
  · rw [hc]; exact unitsOf_three _ _ _ _ _ _ _ (by decide +kernel)

/-- V-TT-06: 8836, the lowest pair without a symbol; and 94, the lowest lone unit without one. -/
theorem witness_IndexRangeReported :
    let s := withUnits [0x22, 0x84]
    s.unitLen.toNat ≤ unitCap s.rawCap ∧ IndexFault (s.content .unit) 0 ∧
    ∀ q, q < 0 → ¬ IndexFault (s.content .unit) q := by
  have hc : (withUnits [0x22, 0x84]).content .unit = [0x22, 0x84] := by decide +kernel
  refine ⟨by decide, ?_, fun q hq => absurd hq (Nat.not_lt_zero q)⟩
  rw [hc]
  exact .inl ⟨rfl, by decide, by decide⟩

theorem witness_IndexRangeReported_lone :
    let s := withUnits [0x5E]
    s.unitLen.toNat ≤ unitCap s.rawCap ∧ IndexFault (s.content .unit) 0 := by
  have hc : (withUnits [0x5E]).content .unit = [0x5E] := by decide +kernel
  refine ⟨by decide, ?_⟩
  rw [hc]
  exact .inr ⟨rfl, rfl, by decide⟩

theorem witness_IndexRangeReported_encode :
    exec .encode (withRaw [0xFF]) = .next (after .encode (withRaw [0xFF])) := exec_after _ _

theorem witness_StreamIsMostSignificantFirst : 15 < 8 * [0xAB#8, 0xCD].length ∧ 12 < (bitsOf 13 0x1579).length := by
  decide

theorem witness_PackEmitsGroupPairs : 0 < 8 * [0xAB#8, 0xCD].length / 13 := by decide

/-- A length of each band: 13 (m=0), 2 (3), 9 (7), 1 (8), 3 (11). -/
theorem witness_PackEmitsTailBand :
    8 * 13 % 13 = 0 ∧ 1 ≤ 8 * 2 % 13 ∧ 8 * 2 % 13 ≤ 6 ∧ 8 * 9 % 13 = 7 ∧ 8 * 1 % 13 = 8 ∧ 9 ≤ 8 * 3 % 13 := by decide

/-- The least length, and residues on each side of 6 and 7. -/
theorem witness_GeometryInvertsUnitLength : 1 ≤ 1 ∧ 8 * 4 % 13 = 6 ∧ 8 * 9 % 13 = 7 := by decide

/-- 1, the least length of a pack, and a length of each invalid residue. -/
theorem witness_ValidLengthsAreThoseOfPack :
    lengthValid (geometry 1) = false ∧ lengthValid (geometry 2) = true ∧ unitLength 1 = 2 ∧
    lengthValid (geometry 16) = false ∧ lengthValid (geometry 6) = false ∧ lengthValid (geometry 11) = false := by decide

/-- `g` stays from 3 to 4 bytes and rises from 1 to 2; the capacity itself fits. -/
theorem witness_UnitLengthStrictlyIncreases :
    groupCount (8 + 1) = groupCount 8 + 1 ∧ groupCount (2 + 1) = groupCount 2 ∧
    unitLength 8192 ≤ unitCap Config.defaultRawCap := by decide

theorem witness_UnpackBuildsTheStream :
    [0x15#8, 0x79, 0x0D].length = unitLength 2 ∧ (∀ q, ¬ ValueFault 2 [0x15, 0x79, 0x0D] q) ∧ 0 < 8 * 2 / 13 ∧
    2 < 8 * 2 % 13 ∧ 8 * 2 % 13 ≤ 8 := ⟨rfl, unpackable_sample.2.2.1, by decide⟩

/-- A residue of 9 or more: band D. -/
theorem witness_UnpackBuildsTheStream_band_d :
    [0x02#8, 0x46, 0x04, 0x56].length = unitLength 3 ∧ (∀ q, ¬ ValueFault 3 [0x02, 0x46, 0x04, 0x56] q) ∧
    9 ≤ 8 * 3 % 13 := by
  refine ⟨rfl, ?_, by decide⟩
  rintro q (⟨k, hk, rfl, h⟩ | ⟨h, -⟩ | ⟨-, h, -⟩ | ⟨-, h, -⟩ | ⟨-, rfl, h⟩)
  · obtain rfl : k = 0 := by omega
    revert h; decide
  · revert h; decide
  · revert h; decide
  · revert h; decide
  · revert h; decide

theorem witness_UnpackInvertsPack : unpackUnits [0x15, 0x79, 0x0D] = .ok [0xAB, 0xCD] := by decide +kernel

/-- The test alphabet is one (R46). -/
theorem testTable_ok : AlphabetOk testTable (inverseTable testTable) := by
  have hv : ∀ i : Fin 94, (testTable[i.val]).toNat = 33 + i.val := by decide +kernel
  have hd : ∀ i j : Fin 94, testTable[i.val] = testTable[j.val] → i = j := fun i j h => by
    have h := congrArg BitVec.toNat h
    rw [hv, hv] at h
    omega
  exact ⟨fun i => by rw [hv]; omega, hd, inverseTable_present _ (toList_nodup_of_injective _ hd),
    fun c hc => inverseTable_absent _ _ c.isLt hc⟩

theorem witness_TextIsBijective :
    AlphabetOk testTable (inverseTable testTable) ∧
    toText testTable [0x15, 0x79, 0x0D] = .ok [0x5B, 0x4E, 0x2E] ∧
    fromText (inverseTable testTable) [0x5B, 0x4E, 0x2E] = .ok [0x15, 0x79, 0x0D] ∧
    (∀ p, ¬ IndexFault [0x15, 0x79, 0x0D] p) := by
  refine ⟨testTable_ok, by decide +kernel, by decide +kernel, ?_⟩
  have h := witness_ToTextCompletes.2
  rwa [units_content] at h

/-- The largest symbol, alone. -/
theorem witness_TextIsBijective_symbols :
    ∀ p, p < [0x7E#8].length → ∃ i : Fin 94, symbolAt testTable i = nth [0x7E#8] p := by
  intro p hp
  have hp : p < 1 := hp
  obtain rfl : p = 0 := by omega
  exact ⟨93, by decide +kernel⟩

/-- A pack with pairs and a lone tail unit, and one with a pair alone. -/
theorem witness_PackOutputHasSymbols :
    0 + 1 < (packUnits [0xAB, 0xCD]).length ∧ (packUnits [0xAB, 0xCD]).length % 2 = 1 := by decide +kernel

theorem witness_AlphabetIsAPermutation : AlphabetOk testTable (inverseTable testTable) ∧ 33 ≤ 33 ∧ 126 ≤ 126 :=
  ⟨testTable_ok, by decide, by decide⟩

theorem witness_CompositesAreTheirStages :
    let s := withText [0x5B, 0x4E, 0x2E]
    (withRaw [0xAB, 0xCD]).rawLen.toNat ≤ (withRaw [0xAB, 0xCD]).rawCap.val ∧
    exec .pack (withRaw [0xAB, 0xCD]) = .next (after .pack (withRaw [0xAB, 0xCD])) ∧
    exec .fromText s = .next (after .fromText s) ∧ (after .fromText s).errCode = 0#4 ∧
    exec .unpack (after .fromText s) = .next (after .unpack (after .fromText s)) ∧
    (after .unpack (after .fromText s)).errCode = 0#4 := by
  refine ⟨by decide, exec_after _ _, exec_after _ _, ?_, exec_after _ _, ?_⟩ <;> decide +kernel

/-- The greatest length. -/
theorem witness_EncodeDecodeRoundTrip :
    AlphabetOk (lengths 8192 0 0 0).fwd (lengths 8192 0 0 0).rev ∧
    (lengths 8192 0 0 0).rawLen.toNat ≤ (lengths 8192 0 0 0).rawCap.val := ⟨testTable_ok, by decide⟩

/-- The first and last words of each read-only window, and a read-only register. -/
theorem witness_ReadOnlyTargets :
    ∀ a ∈ [0x00500#18, 0x0055C#18, 0x00600#18, 0x0067C#18, 0x00700#18, 0x0075C#18, 0x0001C#18],
      a.toNat % 4 = 0 ∧ (a.toNat ∈ [0x00, 0x04, 0x08, 0x1C, 0x20] ∨ (0x500 ≤ a.toNat ∧ a.toNat < 0x560) ∨
        (0x600 ≤ a.toNat ∧ a.toNat < 0x680) ∨ (0x700 ≤ a.toNat ∧ a.toNat < 0x760)) := by
  simp

theorem witness_RefusedTransactionsHaveNoEffect : (0x00001#18).toNat % 4 ≠ 0 ∧ (0x3FFFF#18).toNat % 4 ≠ 0 := by decide

/-- The first and last words of the holes of R61's map. -/
theorem witness_RefusedTransactionsHaveNoEffect_unmapped :
    ∀ a ∈ [0x0000C#18, 0x0002C#18, 0x00040#18, 0x003FC#18, 0x00480#18, 0x004FC#18, 0x00560#18, 0x005FC#18, 0x00680#18,
        0x006FC#18, 0x00760#18, 0x0FFFC#18],
      a.toNat % 4 = 0 ∧
        a.toNat ∉ [0x00, 0x04, 0x08, 0x10, 0x14, 0x18, 0x1C, 0x20, 0x24, 0x28, 0x30, 0x34, 0x38, 0x3C] ∧
        ¬ (0x400 ≤ a.toNat ∧ a.toNat < 0x480) ∧ ¬ (0x500 ≤ a.toNat ∧ a.toNat < 0x560) ∧
        ¬ (0x600 ≤ a.toNat ∧ a.toNat < 0x680) ∧ ¬ (0x700 ≤ a.toNat ∧ a.toNat < 0x760) ∧ a.toNat < 0x10000 := by
  simp

/-- UNIT's last backed word and the first beyond it, while busy. -/
theorem witness_BusyWritesAreDropped :
    (placed 0x1#32).busy = true ∧ 10080 % 4 = 0 ∧ 10080 < (placed 0x1#32).cap .unit ∧ 10084 % 4 = 0 ∧
    (placed 0x1#32).cap .unit ≤ 10084 ∧ 10084 < Arr.unit.window := by decide

theorem witness_IdleWindowWrite :
    (lengths 0 0 0 0).busy = false ∧ 10080 % 4 = 0 ∧ 10080 < (lengths 0 0 0 0).cap .unit ∧
    10080 + 2 < (lengths 0 0 0 0).cap .unit ∧ (lengths 0 0 0 0).cap .unit ≤ 0xFFFC ∧ 0xFFFC < Arr.unit.window := by decide

/-- The last word of each window, and lane 3 of it, which FWD and STD do not back. -/
theorem witness_IdleWindowRead :
    (lengths 0 0 0 0).busy = false ∧ 0x5C % 4 = 0 ∧ 0x5C < 0x60 ∧ 94 ≤ 0x5C + 3 ∧ 0x7C % 4 = 0 ∧ 0x7C < 0x80 ∧
    0x7C < (lengths 0 0 0 0).cap .stage ∧ (lengths 0 0 0 0).cap .raw ≤ 0x2000 ∧ 0x2000 < Arr.raw.window := by decide

theorem witness_BusyReads :
    (placed 0x1#32).busy = true ∧ 0x5C < 0x60 ∧ 0x7C < 0x80 ∧ 10080 < (placed 0x1#32).cap .text := by decide

/-- The ROM's last word, which a read answers while busy too. -/
theorem witness_ReadsHaveNoEffect :
    (lengths 0 0 0 0).busy = false ∧ (placed 0x1#32).busy = true ∧
    (∀ w o, targetAt (0x0075C#18).toNat = .win w o → w = .std) ∧ (lengths 0 0 0 0).host.finished = true := by
  refine ⟨rfl, rfl, ?_, rfl⟩
  intro w o h
  have h : Target.win .std 0x5C = .win w o := h
  injection h with h
  exact h.symm

theorem witness_LengthRegistersHoldAnyValue : (lengths 0 0 0 0).busy = false := by decide

theorem witness_ControlRegister : (1#32).getLsbD 0 = true ∧ (0xFFFFFFFE#32).getLsbD 0 = false := by decide

theorem witness_ResetState : ∃ s t : State, s.busy = true ∧ t = s.resetBlock ∧ t = (s.memWrite 0x00010#18 1#32).1 :=
  ⟨placed 0x1#32, _, rfl, rfl, rfl⟩

theorem witness_ResetDiscardsPendingCommand :
    (placed 0x1#32).busy = true ∧ ∃ t, t = (placed 0x1#32).perform (.wr 0x00010#18 1#32) := ⟨rfl, _, rfl⟩

/-- A pending ENCODE with bytes written at RAW's first addresses. -/
theorem witness_EveryStepKeepsTheInvariant : Inv (placed 0x5#32) ∧ step (placed 0x5#32) = .next (after .encode (placed 0x5#32)) where
  left := {
    memory := by decide
    inside := fun a ha => by
      have ha : a ∈ [0x10000, 0x10001] := ha
      simp only [List.mem_cons, List.not_mem_nil, or_false] at ha
      exact ⟨.raw, by rcases ha with rfl | rfl <;> decide⟩
    alphabet := testTable_ok
    code := by decide
    info := fun _ => rfl
    source := fun h => by cases h
    pendingOp := fun _ => rfl }
  right := by rw [← exec_after]; rfl

end Sys2Proof.Tests
end

/-! PROOFS. The family `00_scope`: the order of a byte buffer's bits (R15), whose turn a step is (R6), and what one statement of
the host does (R5, R97). The rules about the operations come first, then the obligations.
-/

namespace Sys2Proof.Machine

/-! ### The bits of a buffer and of a value -/

/-- The first eight stream bits are the first byte's, bit 7 first (R15). -/
theorem streamBit_cons_of_lt (x : Byte) (b : List Byte) (s : Nat) (h : s < 8) :
    streamBit (x :: b) s = x.getLsbD (7 - s) := by
  rw [streamBit, Nat.div_eq_of_lt h, Nat.mod_eq_of_lt h]
  rfl

theorem streamBit_cons_add_eight (x : Byte) (b : List Byte) (s : Nat) :
    streamBit (x :: b) (s + 8) = streamBit b s := by
  rw [streamBit, Nat.add_div_right s (by decide), Nat.add_mod_right, nth_cons_succ]
  rfl

theorem bitStream_cons (x : Byte) (b : List Byte) : bitStream (x :: b) = bitsOf 8 x.toNat ++ bitStream b := rfl

/-- The stream's bit `s` is the spec's `S(B, s)` (R15). -/
theorem bitStream_getElem? (b : List Byte) (s : Nat) (h : s < 8 * b.length) :
    (bitStream b)[s]? = some (streamBit b s) := by
  induction b generalizing s with
  | nil => simp at h
  | cons x b ih =>
    rw [bitStream_cons]
    by_cases hs : s < 8
    · rw [List.getElem?_append_left (by simpa using hs), bitsOf_getElem? _ _ _ hs, streamBit_cons_of_lt x b s hs]
      rfl
    · obtain ⟨k, rfl⟩ : ∃ k, s = k + 8 := ⟨s - 8, by omega⟩
      rw [List.getElem?_append_right (by simp), bitsOf_length, Nat.add_sub_cancel, streamBit_cons_add_eight]
      rw [List.length_cons] at h
      exact ih k (by omega)

/-- The first bit of a sequence is the most significant of its value (R15). -/
theorem getElem?_eq_testBit_valueOf (bs : List Bool) (j : Nat) (h : j < bs.length) :
    bs[j]? = some ((valueOf bs).testBit (bs.length - 1 - j)) := by
  have hbit := bitsOf_getElem? bs.length (valueOf bs) j h
  rwa [bitsOf_valueOf] at hbit

/-! ### Whose turn it is -/

theorem State.engineTurn_iff (s : State) :
    s.engineTurn = true ↔ s.busy = true ∧ (s.delay = 0 ∨ s.host.finished = true) := by
  simp [State.engineTurn]

theorem State.engineTurn_eq_false_iff (s : State) :
    s.engineTurn = false ↔ s.busy = false ∨ (s.delay ≠ 0 ∧ s.host.finished = false) := by
  cases hb : s.busy <;> simp [State.engineTurn, hb]

theorem State.engineStep_of_decode {s : State} {i : Instr} (h : decode s.pending = .ok i) : s.engineStep = exec i s := by
  rw [State.engineStep, h]

theorem step_of_engineTurn {s : State} (h : s.engineTurn = true) : step s = s.engineStep := by rw [step, if_pos h]

theorem step_of_hostTurn {s : State} (h : s.engineTurn = false) : step s = .next s.hostStep := by simp [step, h]

/-! ### The block and the model's own fields -/

/-- The schedule, the draws and the host are no state of the block (R20). -/
theorem sameBlock_of_ownFields (s : State) (draws delay : Nat) (latencies : List Nat) (host : HostAgent) :
    SameBlock s { s with draws := draws, delay := delay, latencies := latencies, host := host } := by
  constructor <;> rfl

/-! ### The host's side of a transaction -/

@[simp] theorem HostAgent.record_last (h : HostAgent) (c : Completed) : (h.record c).last = some c := rfl
@[simp] theorem HostAgent.record_next (h : HostAgent) (c : Completed) : (h.record c).next = h.next + 1 := rfl
@[simp] theorem HostAgent.record_prog (h : HostAgent) (c : Completed) : (h.record c).prog = h.prog := rfl
@[simp] theorem HostAgent.record_names (h : HostAgent) (c : Completed) : (h.record c).names = h.names := rfl

@[simp] theorem HostAgent.bind_next (h : HostAgent) (name : Option Nat) (d : Word) : (h.bind name d).next = h.next := by
  cases name <;> rfl

@[simp] theorem HostAgent.bind_prog (h : HostAgent) (name : Option Nat) (d : Word) : (h.bind name d).prog = h.prog := by
  cases name <;> rfl

/-- A bound name is looked up as the data just read (R97). -/
@[simp] theorem HostAgent.lookup_bind_self (h : HostAgent) (n : Nat) (d : Word) :
    (h.bind (some n) d).names.lookup n = some d := List.lookup_cons_self

/-- A name that the host holds a word for is no free value. -/
theorem State.named_of_lookup {s : State} {n : Nat} {d : Word} (h : s.host.names.lookup n = some d) : s.named n = d := by
  rw [State.named, h]

@[simp] theorem State.writeReg_host (s : State) (r : Reg) (d : Word) : (s.writeReg r d).host = s.host := by
  cases r with
  | ctrl =>
    rw [State.writeReg]
    split
    · exact s.resetBlock_host
    · rfl
  | _ => rfl

/-- The host port's writes leave the host as it is: it records the transaction itself. -/
@[simp] theorem State.memWrite_host (s : State) (a : HostAddr) (d : Word) : (s.memWrite a d).1.host = s.host := by
  rcases s.memWrite_cases a d with h | ⟨-, h⟩ | ⟨r, -, -, h⟩ | ⟨arr, o, -, -, h⟩
  · rw [h]
  · rw [h, State.setDropped_host]
  · rw [h, State.writeReg_host]
  · rw [h, State.writeWindow_host]

/-- A read does not see the latency (R62). -/
@[simp] theorem State.countDown_memRead (s : State) (a : HostAddr) : s.countDown.memRead a = s.memRead a := rfl

@[simp] theorem State.countDown_named (s : State) (n : Nat) : s.countDown.named n = s.named n := rfl

theorem State.hostStep_of_current {s : State} {st : HostStmt} (h : s.host.current = some st) :
    s.hostStep = s.countDown.perform st := by
  rw [State.hostStep, h]

theorem State.hostStep_of_finished {s : State} (h : s.host.finished = true) : s.hostStep = s := by
  rw [State.hostStep, s.host.current_eq_none.mpr h]

/-! ### The statements of the host -/

/-- `wr` is one write transaction, recorded with its response (R97). -/
theorem State.hostWr_transaction (s : State) (a : HostAddr) (d : Word) :
    (s.hostWr a d).host = s.host.record ⟨⟨.write, a, d⟩, (s.memWrite a d).2⟩ ∧
    SameBlock (s.memWrite a d).1 (s.hostWr a d) := by
  rw [State.hostWr_eq, State.memWrite_host]
  exact ⟨rfl, sameBlock_of_ownFields _ _ _ _ _⟩

/-- `rd` is one read transaction, recorded with its response and data; it changes nothing of the block (R74, R97). -/
theorem State.hostRd_transaction (s : State) (a : HostAddr) (name : Option Nat) :
    (s.hostRd a name).host =
      (s.host.bind name (s.memRead a).2).record ⟨⟨.read, a, (s.memRead a).2⟩, (s.memRead a).1⟩ ∧
    SameBlock s (s.hostRd a name) := by
  rw [State.hostRd_eq]
  exact ⟨rfl, sameBlock_of_ownFields _ _ _ _ _⟩

/-- `rd … -> NAME` names the data read (R97). -/
theorem State.hostRd_named (s : State) (a : HostAddr) (n : Nat) :
    (s.hostRd a (some n)).named n = (s.memRead a).2 := by
  apply State.named_of_lookup
  rw [(s.hostRd_transaction a (some n)).1, HostAgent.record_names, HostAgent.lookup_bind_self]

/-- `bnz` moves the host in its program and changes nothing of the block (R97). -/
theorem State.hostBnz_moves (s : State) (n : Nat) (mask : Word) (target : Nat) :
    (s.hostBnz n mask target).host =
      s.host.goto (if s.named n &&& mask = 0#32 then s.host.next + 1 else target) ∧
    SameBlock s (s.hostBnz n mask target) :=
  ⟨congrArg s.host.goto (ite_not ..), sameBlock_of_ownFields _ _ _ _ _⟩

/-- The host step's count of the latency is no change of the block. -/
theorem SameBlock.of_countDown {s t : State} (h : SameBlock s.countDown t) : SameBlock s t :=
  { h with }

/-! ### The obligations -/

/-- Settles O4: the turn is the engine's exactly under the first clause's premises, and the host's under the second's. -/
theorem stepRunsTheDecodedCommand : Obligations.StepRunsTheDecodedCommand := by
  refine ⟨fun s i hbusy hturn hdec => ?_, fun s hturn => ?_⟩
  · rw [step_of_engineTurn (s.engineTurn_iff.mpr ⟨hbusy, hturn⟩), State.engineStep_of_decode hdec]
  · exact step_of_hostTurn (s.engineTurn_eq_false_iff.mpr hturn)

/-- Settles O5: the step is the current statement's, performed after one count of the latency; each kind of statement has
its rule above. -/
theorem hostStepPerformsOneTransaction : Obligations.HostStepPerformsOneTransaction := by
  refine fun s => ⟨fun a d hcur => ?wr, fun a name hcur => ?rd, fun n mask target hcur => ?bnz,
    State.hostStep_of_finished⟩
  case wr =>
    obtain ⟨hhost, hblock⟩ := s.countDown.hostWr_transaction a d
    rw [State.hostStep_of_current hcur, State.perform, hhost]
    exact ⟨rfl, rfl, rfl, hblock⟩
  case rd =>
    obtain ⟨hhost, hblock⟩ := s.countDown.hostRd_transaction a name
    rw [State.hostStep_of_current hcur, State.perform, hhost]
    refine ⟨rfl, by simp, by simp, hblock.of_countDown, fun n hn => ?_⟩
    rw [hn, State.hostRd_named, State.countDown_memRead]
  case bnz =>
    obtain ⟨hhost, hblock⟩ := s.countDown.hostBnz_moves n mask target
    rw [State.hostStep_of_current hcur, State.perform, hhost]
    exact ⟨rfl, rfl, hblock.of_countDown⟩

/-- Settles O32: the length, the stream's bits byte by byte, and a value's bits read back from its own writing. -/
theorem streamIsMostSignificantFirst : Obligations.StreamIsMostSignificantFirst :=
  ⟨bitStream_length, bitStream_getElem?, getElem?_eq_testBit_valueOf⟩

end Sys2Proof.Machine

/-! PROOFS. The family `10_state`: the registers (R24 to R39), the alphabet (R46, R47) and the invariant that every step keeps.
The rules about registers, tables and the results of the commands' functions come first, then the obligations.
-/

namespace Sys2Proof.Machine

/-! ### The port at a register or at a read-only window -/

/-- A write to a register that is not protected is never dropped (R72). -/
theorem State.memWrite_unprotected (s : State) (r : Reg) (d : Word) (hr : r.protected = false) :
    s.memWrite (BitVec.ofNat 18 r.offset) d = (s.writeReg r d, .okay) := by
  rw [State.memWrite_reg, hr, Bool.and_false]
  rfl

/-- While idle no write to a register is dropped (R71). -/
theorem State.memWrite_idle_reg (s : State) (r : Reg) (d : Word) (hidle : s.busy = false) :
    s.memWrite (BitVec.ofNat 18 r.offset) d = (s.writeReg r d, .okay) := by
  rw [State.memWrite_reg, hidle, Bool.false_and]
  rfl

/-- A write to a window onto a table or onto the ROM has no effect, busy or not (R66). -/
theorem State.memWrite_table (s : State) (w : Win) (hw : ∀ arr, w ≠ .ram arr) (o : Nat) (d : Word) (h : o < w.size)
    (h4 : o % 4 = 0) : s.memWrite (BitVec.ofNat 18 (w.base + o)) d = (s, .okay) := by
  rw [State.memWrite, aligned_winAddr w o h h4, toNat_winAddr w o h, targetAt_win w o h]
  cases w with
  | ram arr => exact absurd rfl (hw arr)
  | fwd => rfl
  | rev => rfl
  | std => rfl

/-- An aligned address in a window is the window's base and a word offset. -/
theorem exists_offset_of_mem_window (w : Win) (a : HostAddr) (h4 : a.toNat % 4 = 0) (hlo : w.base ≤ a.toNat)
    (hhi : a.toNat < w.base + w.size) : ∃ o, o < w.size ∧ o % 4 = 0 ∧ a = BitVec.ofNat 18 (w.base + o) := by
  have hbase := w.base_mod
  refine ⟨a.toNat - w.base, by omega, by omega, ?_⟩
  rw [Nat.add_sub_cancel' hlo, BitVec.ofNat_toNat, BitVec.setWidth_eq]

theorem State.memWrite_in_table (s : State) (w : Win) (hw : ∀ arr, w ≠ .ram arr) (a : HostAddr) (d : Word)
    (h4 : a.toNat % 4 = 0) (hlo : w.base ≤ a.toNat) (hhi : a.toNat < w.base + w.size) :
    s.memWrite a d = (s, .okay) := by
  obtain ⟨o, ho, ho4, rfl⟩ := exists_offset_of_mem_window w a h4 hlo hhi
  exact s.memWrite_table w hw o d ho ho4

/-- The registers of R66. -/
def Reg.readOnly : List Reg := [.id, .rawCapReg, .unitCapReg, .errCode, .errInfo]

/-- A write to a read-only register has no effect, busy or not (R66). -/
theorem State.memWrite_readOnly (s : State) (r : Reg) (d : Word) (hr : r ∈ Reg.readOnly) :
    s.memWrite (BitVec.ofNat 18 r.offset) d = (s, .okay) := by
  simp only [Reg.readOnly, List.mem_cons, List.not_mem_nil, or_false] at hr
  rcases hr with rfl | rfl | rfl | rfl | rfl <;> exact s.memWrite_unprotected _ d rfl

theorem exists_readOnly_of_mem_offsets {a : HostAddr} (h : a.toNat ∈ [0x00, 0x04, 0x08, 0x1C, 0x20]) :
    ∃ r ∈ Reg.readOnly, a = BitVec.ofNat 18 r.offset := by
  have hoff : [0x00, 0x04, 0x08, 0x1C, 0x20] = Reg.readOnly.map Reg.offset := rfl
  rw [hoff, List.mem_map] at h
  obtain ⟨r, hr, ha⟩ := h
  exact ⟨r, hr, BitVec.eq_of_toNat_eq (by rw [toNat_regAddr, ha])⟩

/-! ### The words of the status and interrupt registers -/

/-- A flag's register word has that one bit (R30, R33, R34). -/
theorem flagBit_getLsbD (b : Bool) (pos j : Nat) (h : pos < 32) :
    (flagBit b pos).getLsbD j = (b && decide (j = pos)) := by
  cases b with
  | false => simp [flagBit]
  | true =>
    simp only [flagBit, if_true, BitVec.getLsbD_shiftLeft, BitVec.getLsbD_one, Bool.true_and]
    by_cases hj : j = pos
    · simp [hj, h]
    · simp [hj]
      omega

/-- Each bit of `STATUS` (R30). -/
theorem State.statusWord_getLsbD (s : State) (j : Nat) : s.statusWord.getLsbD j =
    (s.busy && decide (j = 0) || s.err && decide (j = 1) || s.dropped && decide (j = 2) ||
      decide (4 ≤ j) && s.lastOp.getLsbD (j - 4)) := by
  simp only [State.statusWord, BitVec.getLsbD_or, BitVec.getLsbD_shiftLeft, BitVec.getLsbD_setWidth]
  rw [flagBit_getLsbD _ _ _ (by decide), flagBit_getLsbD _ _ _ (by decide), flagBit_getLsbD _ _ _ (by decide)]
  congr 1
  rcases Nat.lt_or_ge j 8 with hj | hj
  · by_cases h4 : j < 4
    · simp [h4]
    · simp [h4, show j < 32 by omega, show j - 4 < 32 by omega, show 4 ≤ j by omega]
  · rw [s.lastOp.getLsbD_of_ge (j - 4) (by omega)]
    simp only [Bool.and_false]

/-- `STATUS.LAST_OP` is bits [7:4] (R30). -/
theorem State.statusWord_lastOp (s : State) : s.statusWord.extractLsb' 4 4 = s.lastOp := by
  apply BitVec.eq_of_getLsbD_eq
  intro j hj
  rw [BitVec.getLsbD_extractLsb', s.statusWord_getLsbD]
  simp [hj, show 4 + j ≠ 1 by omega, show 4 + j ≠ 2 by omega]

/-- The bits of `STATUS` above `LAST_OP` read 0 (R67). -/
theorem State.statusWord_high (s : State) : s.statusWord.extractLsb' 8 24 = 0#24 := by
  apply BitVec.eq_of_getLsbD_eq
  intro j hj
  rw [BitVec.getLsbD_extractLsb', s.statusWord_getLsbD, s.lastOp.getLsbD_of_ge (8 + j - 4) (by omega)]
  simp [show 8 + j ≠ 1 by omega, show 8 + j ≠ 2 by omega]

theorem two_flags_toNat (b0 b1 : Bool) : (flagBit b0 0 ||| flagBit b1 1).toNat = b0.toNat + 2 * b1.toNat := by
  cases b0 <;> cases b1 <;> rfl

theorem State.irqStatusWord_getLsbD (s : State) (j : Nat) :
    s.irqStatusWord.getLsbD j = (s.irqDone && decide (j = 0) || s.irqError && decide (j = 1)) := by
  rw [State.irqStatusWord, BitVec.getLsbD_or, flagBit_getLsbD _ _ _ (by decide), flagBit_getLsbD _ _ _ (by decide)]

theorem State.irqEnableWord_getLsbD (s : State) (j : Nat) :
    s.irqEnableWord.getLsbD j = (s.doneEn && decide (j = 0) || s.errorEn && decide (j = 1)) := by
  rw [State.irqEnableWord, BitVec.getLsbD_or, flagBit_getLsbD _ _ _ (by decide), flagBit_getLsbD _ _ _ (by decide)]

/-- The interrupt output as a function of the two registers' bits (R35). -/
theorem State.irq_eq_register_bits (s : State) : s.irq =
    ((s.readReg .irqStatus).getLsbD 0 && (s.readReg .irqEnable).getLsbD 0 ||
      (s.readReg .irqStatus).getLsbD 1 && (s.readReg .irqEnable).getLsbD 1) := by
  simp only [State.readReg, State.irqStatusWord_getLsbD, State.irqEnableWord_getLsbD]
  simp [State.irq]

/-! ### The alphabet -/

/-- `Inverse` of distinct codes in 33..126 gives the alphabet invariant (R46). -/
theorem alphabetOk_inverseTable (f : ForwardTable)
    (hrange : ∀ i : Fin 94, 33 ≤ (f[i.val]).toNat ∧ (f[i.val]).toNat ≤ 126)
    (hinj : ∀ i j : Fin 94, f[i.val] = f[j.val] → i = j) : AlphabetOk f (inverseTable f) where
  range := hrange
  distinct := hinj
  present := inverseTable_present f (toList_nodup_of_injective f hinj)
  absent := fun c hc => inverseTable_absent f c.val c.isLt hc

/-- The standard alphabet is one (R48). -/
theorem alphabetOk_stdTable : AlphabetOk stdTable (inverseTable stdTable) := by
  refine alphabetOk_inverseTable stdTable (fun i => ?_) stdTable_injective
  have hi := (Config.stdOrder i).isLt
  rw [stdTable_toNat]
  omega

/-- Every code of 33..126 is a symbol: 94 distinct ones fill the 94 places (R47). -/
theorem AlphabetOk.surjective {f : ForwardTable} {r : ReverseTable} (h : AlphabetOk f r) (c : Nat) (hlo : 33 ≤ c)
    (hhi : c ≤ 126) : ∃ i : Fin 94, (f[i.val]).toNat = c := by
  have place (i : Fin 94) : (f[i.val]).toNat - 33 < 94 := by
    have hi := h.range i
    omega
  have hinj : Function.Injective fun i : Fin 94 => (⟨(f[i.val]).toNat - 33, place i⟩ : Fin 94) := by
    intro i j hij
    have hi := h.range i
    have hj := h.range j
    have heq : (f[i.val]).toNat - 33 = (f[j.val]).toNat - 33 := congrArg Fin.val hij
    exact h.distinct i j (BitVec.eq_of_toNat_eq (by omega))
  obtain ⟨i, hi⟩ := Finite.surjective_of_injective hinj ⟨c - 33, by omega⟩
  have hi' : (f[i.val]).toNat - 33 = c - 33 := congrArg Fin.val hi
  have hrange := h.range i
  exact ⟨i, by omega⟩

/-- The entry of REV for symbol `i` (R46). -/
theorem AlphabetOk.revEntry_symbol {f : ForwardTable} {r : ReverseTable} (h : AlphabetOk f r) (i : Fin 94) (c : Byte)
    (hc : (f[i.val]).toNat = c.toNat) : revEntry r c = validEntry i.val := by
  have hlt := (f[i.val]).isLt
  rw [revEntry_of_lt r c (by omega), ← h.present i]
  simp only [hc]

/-- Outside 33..126 every entry of REV is 0 (R46). -/
theorem AlphabetOk.revEntry_outside {f : ForwardTable} {r : ReverseTable} (h : AlphabetOk f r) (c : Byte)
    (hc : ¬ (33 ≤ c.toNat ∧ c.toNat ≤ 126)) : revEntry r c = 0x00#8 := by
  by_cases hlt : c.toNat < 128
  · rw [revEntry_of_lt r c hlt]
    refine h.absent ⟨c.toNat, hlt⟩ fun i hi => hc ?_
    rw [← show (f[i.val]).toNat = c.toNat from hi]
    exact h.range i
  · simp [revEntry, hlt]

/-- `REV[c].VALID = 1` exactly for the codes 33..126 (R47). -/
theorem AlphabetOk.revValid_iff {f : ForwardTable} {r : ReverseTable} (h : AlphabetOk f r) (c : Byte) :
    revValid r c = true ↔ 33 ≤ c.toNat ∧ c.toNat ≤ 126 := by
  by_cases hc : 33 ≤ c.toNat ∧ c.toNat ≤ 126
  · obtain ⟨i, hi⟩ := h.surjective c.toNat hc.1 hc.2
    simp [revValid, h.revEntry_symbol i c hi, validEntry_valid i.val i.isLt, hc]
  · simp [revValid, h.revEntry_outside c hc, hc]

/-- The two failure conditions of FROM_TEXT select the same characters (R47). -/
theorem AlphabetOk.illegalChar_iff {f : ForwardTable} {r : ReverseTable} (h : AlphabetOk f r) (c : Byte) :
    illegalChar r c = true ↔ c.toNat < 33 ∨ 126 < c.toNat := by
  have hvalid := h.revValid_iff c
  rw [illegalChar, Bool.or_eq_true, Bool.or_eq_true, decide_eq_true_iff, decide_eq_true_iff, Bool.not_eq_true',
    ← Bool.not_eq_true, hvalid]
  omega

/-! ### What a command's function yields -/

/-- The result is a value with the property, or an error with one of the codes: the form in which the functions of the
commands are specified here. -/
def Yields {α : Type} (codes : List (BitVec 4)) (P : α → Prop) : Checked α → Prop
  | .ok a => P a
  | .error e => e.code.bits ∈ codes

@[simp] theorem yields_ok {α : Type} {codes : List (BitVec 4)} {P : α → Prop} {a : α} :
    Yields codes P (.ok a) ↔ P a := Iff.rfl

@[simp] theorem yields_error {α : Type} {codes : List (BitVec 4)} {P : α → Prop} {e : CmdError} :
    Yields codes P (.error e) ↔ e.code.bits ∈ codes := Iff.rfl

/-- A longer list of codes is a weaker statement. -/
theorem Yields.widen {α : Type} {codes codes' : List (BitVec 4)} {P : α → Prop} {x : Checked α}
    (h : Yields codes P x) (hcodes : codes ⊆ codes') : Yields codes' P x := by
  cases x with
  | ok a => exact h
  | error e => exact hcodes h

/-- A value goes to the next stage, an error is passed on. -/
theorem Yields.bind {α β : Type} {codes : List (BitVec 4)} {P : α → Prop} {Q : β → Prop} {x : Checked α}
    {f : α → Checked β} (h : Yields codes P x) (hf : ∀ a, P a → Yields codes Q (f a)) : Yields codes Q (x.bind f) := by
  cases x with
  | ok a => exact hf a h
  | error e => exact h

theorem Yields.map {α β : Type} {codes : List (BitVec 4)} {P : α → Prop} {Q : β → Prop} {x : Checked α}
    {f : α → β} (h : Yields codes P x) (hf : ∀ a, P a → Q (f a)) : Yields codes Q (x.map f) := by
  cases x with
  | ok a => exact hf a h
  | error e => exact h

/-! ### The commands as their stages (R190, R191) -/

theorem packExec_eq (s : State) : packExec s = (s.source .raw).map fun b => { unit := some (packUnits b) } := by
  rw [packExec]
  cases s.source .raw <;> rfl

theorem unpackExec_eq (s : State) :
    unpackExec s = (s.source .unit).bind fun u => (unpackUnits u).map fun b => { raw := some b } := by
  rw [unpackExec]
  cases s.source .unit with
  | error e => rfl
  | ok u =>
    dsimp only [Except.bind]
    cases unpackUnits u <;> rfl

theorem toTextExec_eq (s : State) :
    toTextExec s = (s.source .unit).bind fun u => (toText s.fwd u).map fun t => { text := some t } := by
  rw [toTextExec]
  cases s.source .unit with
  | error e => rfl
  | ok u =>
    dsimp only [Except.bind]
    cases toText s.fwd u <;> rfl

theorem fromTextExec_eq (s : State) :
    fromTextExec s = (s.source .text).bind fun t => (fromText s.rev t).map fun u => { unit := some u } := by
  rw [fromTextExec]
  cases s.source .text with
  | error e => rfl
  | ok t =>
    dsimp only [Except.bind]
    cases fromText s.rev t <;> rfl

theorem encodeExec_eq (s : State) : encodeExec s = (s.source .raw).bind fun b =>
    (toText s.fwd (packUnits b)).map fun t => { unit := some (packUnits b), text := some t } := by
  rw [encodeExec]
  cases s.source .raw with
  | error e => rfl
  | ok b =>
    dsimp only [Except.bind]
    cases toText s.fwd (packUnits b) <;> rfl

theorem decodeExec_eq (s : State) : decodeExec s = (s.source .text).bind fun t =>
    (fromText s.rev t).bind fun u => (unpackUnits u).map fun b => { unit := some u, raw := some b } := by
  rw [decodeExec]
  cases s.source .text with
  | error e => rfl
  | ok t =>
    dsimp only [Except.bind]
    cases fromText s.rev t with
    | error e => rfl
    | ok u =>
      dsimp only
      cases unpackUnits u <;> rfl

/-! ### Lengths of the stages' values, and their error codes -/

/-- A source operand is within its array's capacity, or the error is LENGTH_OVERFLOW (R119). -/
theorem State.source_yields (s : State) (a : Arr) : Yields [8#4] (fun b => b.length ≤ s.cap a) (s.source a) := by
  rcases s.source_cases a with ⟨hlen, hsrc⟩ | ⟨-, hsrc⟩
  · rw [hsrc, yields_ok, State.content_length]
    exact hlen
  · rw [hsrc, yields_error]
    exact List.mem_singleton_self _

/-- `UnitLen` is strictly increasing (R150). -/
theorem unitLength_lt_of_lt {n n' : Nat} (h : n < n') : unitLength n < unitLength n' := by
  rw [unitLength_pos n' (by omega)]
  rcases Nat.eq_zero_or_pos n with rfl | hn
  · rw [show unitLength 0 = 0 from rfl]
    split <;> omega
  · rw [unitLength_pos n hn]
    split <;> split <;> omega

theorem unitLength_le_unitLength_iff {n n' : Nat} : unitLength n ≤ unitLength n' ↔ n ≤ n' :=
  StrictMono.le_iff_le fun _ _ => unitLength_lt_of_lt

/-- The band of a residue (R142). -/
theorem bandOf_cases (m : Nat) : (m = 0 ∧ bandOf m = .a) ∨ (1 ≤ m ∧ m ≤ 6 ∧ bandOf m = .b) ∨
    (7 ≤ m ∧ m ≤ 8 ∧ bandOf m = .c) ∨ (9 ≤ m ∧ bandOf m = .d) := by
  unfold bandOf
  split_ifs <;> simp <;> omega

/-- The shapes of the tail that PACK emits (R145): one unit of at most 6 bits, or a pair of at most 12. -/
theorem packTail_cases (b : List Byte) :
    (residue b.length ≤ 6 ∧ ∃ x : Byte, x.toNat ≤ 63 ∧ packTail b = [x]) ∨
    (7 ≤ residue b.length ∧ ∃ hi lo : Byte, hi.toNat ≤ 15 ∧ packTail b = [hi, lo]) := by
  have hmask (x : Byte) (k : Nat) (hk : k < 2 ^ 8) : (x &&& BitVec.ofNat 8 k).toNat ≤ k := by
    rw [BitVec.toNat_and, BitVec.toNat_ofNat, Nat.mod_eq_of_lt hk]
    exact Nat.and_le_right
  rcases bandOf_cases (residue b.length) with ⟨hm, hband⟩ | ⟨-, hm, hband⟩ | ⟨hm, -, hband⟩ | ⟨hm, hband⟩
  · exact .inl ⟨by omega, 0x00#8, by decide, by rw [packTail, hband]⟩
  · exact .inl ⟨hm, _, hmask _ 0x3F (by decide), by rw [packTail, hband]⟩
  · exact .inr ⟨hm, 0x00#8, _, by decide, by rw [packTail, hband]⟩
  · exact .inr ⟨by omega, _, _, hmask _ 0x0F (by decide), by rw [packTail, hband]⟩

theorem packTail_length (b : List Byte) : (packTail b).length = if residue b.length ≤ 6 then 1 else 2 := by
  rcases packTail_cases b with ⟨hm, x, -, htail⟩ | ⟨hm, hi, lo, -, htail⟩
  · rw [htail, if_pos hm]; rfl
  · rw [htail, if_neg (by omega)]; rfl

/-- `PackUnits` gives `UnitLen(N)` units (R143). -/
theorem packUnits_length (b : List Byte) : (packUnits b).length = unitLength b.length := by
  unfold packUnits unitLength
  split
  · rfl
  · rw [List.length_append, flatMap_groupPair_length, chunks_length, packTail_length]
    split <;> rfl

/-- How the quantities of `Geometry(L)` hang together: the units are the pairs and the tail, and the output bits are the
pairs' and the tail's (R149). -/
theorem geometry_sums {len : Nat} (hpos : len ≠ 0) :
    len = 2 * (geometry len).groups + (geometry len).tailLen ∧
    8 * (geometry len).outLen = 13 * (geometry len).groups + (geometry len).tailBits := by
  simp only [geometry]
  constructor
  · split <;> omega
  · split_ifs <;> omega

theorem lengthValid_iff (q : UnpackGeometry) : lengthValid q = true ↔
    1 ≤ q.outLen ∧ ((q.tailLen = 1 ∧ q.tailBits ≤ 6) ∨ (q.tailLen = 2 ∧ 7 ≤ q.tailBits ∧ q.tailBits ≤ 12)) := by
  simp [lengthValid]

/-- A buffer of a valid length has `UnitLen` of its output's length (R149, R151). -/
theorem unitLength_outLen {len : Nat} (hpos : len ≠ 0) (hvalid : lengthValid (geometry len) = true) :
    unitLength (geometry len).outLen = len := by
  obtain ⟨hunits, hbits⟩ := geometry_sums hpos
  obtain ⟨hout, htail⟩ := (lengthValid_iff _).mp hvalid
  rw [unitLength_pos _ hout]
  split <;> omega

theorem unpackBytes_length (q : UnpackGeometry) (u : List Byte) : (unpackBytes q u).length = q.outLen := by
  simp [unpackBytes]

/-- What UNPACK yields: bytes whose `UnitLen` is the buffer's length, or one of its three errors (R155). -/
theorem unpackUnits_yields (u : List Byte) :
    Yields [4#4, 5#4, 6#4] (fun b => unitLength b.length = u.length) (unpackUnits u) := by
  unfold unpackUnits
  split
  · next hempty => exact hempty.symm
  · next hpos =>
    dsimp only
    split
    · next hvalid =>
      split
      · exact .tail _ (.head _)
      · split
        · exact .tail _ (.tail _ (.head _))
        · rw [yields_ok, unpackBytes_length]
          exact unitLength_outLen hpos hvalid
    · exact .head _

/-- `ToText` keeps the length, or fails with INDEX_RANGE (R170). -/
theorem toTextFrom_yields (f : ForwardTable) (i : Nat) (u : List Byte) :
    Yields [7#4] (fun t => t.length = u.length) (toTextFrom f i u) := by
  induction i, u using toTextFrom.induct f with
  | case1 => rfl
  | case2 i u hnone => simp [toTextFrom, hnone, errAt, ErrCode.bits]
  | case3 i u c hsome => simp [toTextFrom, hsome]
  | case4 i hi lo rest val hnone => simp [toTextFrom, val, hnone, errAt, ErrCode.bits]
  | case5 i hi lo rest val c hsome e herr ih =>
    rw [herr] at ih
    simpa [toTextFrom, val, hsome, herr] using ih
  | case6 i hi lo rest val c hsome t hok ih =>
    rw [hok] at ih
    simpa [toTextFrom, val, hsome, hok] using ih

theorem textUnits_length (r : ReverseTable) (t : List Byte) : (textUnits r t).length = t.length := by
  induction t using textUnits.induct r with
  | case1 => rfl
  | case2 c => rfl
  | case3 c0 c1 rest ih => simp [textUnits, ih]

/-- `FromText` keeps the length, or fails with ILLEGAL_CHARACTER (R172). -/
theorem fromText_yields (r : ReverseTable) (t : List Byte) :
    Yields [3#4] (fun u => u.length = t.length) (fromText r t) := by
  unfold fromText
  split
  · exact .head _
  · exact textUnits_length r t

/-! ### PACK emits units that have symbols (R176) -/

/-- A pair whose value is below 8836 has its two symbols (R170). -/
theorem toTextFrom_cons_cons_ok {f : ForwardTable} {i : Nat} {hi lo : Byte} {rest t : List Byte}
    (hval : hi.toNat * 256 + lo.toNat < 8836) (hrest : toTextFrom f (i + 2) rest = .ok t) :
    ∃ t', toTextFrom f i (hi :: lo :: rest) = .ok t' := by
  simp [toTextFrom, symbolOf_of_lt f ((hi.toNat * 256 + lo.toNat) / 94) (by omega), hrest]

/-- The pairs of 13-bit groups have symbols, whatever follows them. -/
theorem toTextFrom_groupPairs_ok {f : ForwardTable} {vs : List Nat} {rest : List Byte} (hvs : ∀ v ∈ vs, v < 2 ^ 13)
    (hrest : ∀ i, ∃ t, toTextFrom f i rest = .ok t) (i : Nat) :
    ∃ t, toTextFrom f i (vs.flatMap groupPair ++ rest) = .ok t := by
  induction vs generalizing i with
  | nil => exact hrest i
  | cons v vs ih =>
    have hv : v < 2 ^ 13 := hvs v List.mem_cons_self
    obtain ⟨t, ht⟩ := ih (fun x hx => hvs x (List.mem_cons_of_mem v hx)) (i + 2)
    refine toTextFrom_cons_cons_ok ?_ ht
    rw [BitVec.toNat_ofNat, BitVec.toNat_ofNat]
    omega

theorem toTextFrom_packTail_ok (f : ForwardTable) (b : List Byte) (i : Nat) :
    ∃ t, toTextFrom f i (packTail b) = .ok t := by
  rcases packTail_cases b with ⟨-, x, hx, htail⟩ | ⟨-, hi, lo, hhi, htail⟩
  · rw [htail]
    simp [toTextFrom, symbolOf_of_lt f x.toNat (by omega)]
  · rw [htail]
    have hlo := lo.isLt
    exact toTextFrom_cons_cons_ok (by omega) rfl

/-- `ToText` cannot fail on what PACK emits (R176). -/
theorem toText_packUnits_ok (f : ForwardTable) (b : List Byte) : ∃ t, toText f (packUnits b) = .ok t := by
  unfold toText packUnits
  split
  · exact ⟨[], rfl⟩
  · have hbits : 13 * groupCount b.length ≤ (bitStream b).length := by
      rw [bitStream_length, groupCount]
      exact Nat.mul_div_le _ _
    exact toTextFrom_groupPairs_ok (chunks_lt 13 _ _ hbits) (toTextFrom_packTail_ok f b) 0

theorem toText_packUnits_yields (f : ForwardTable) (b : List Byte) :
    Yields [] (fun t => t.length = (packUnits b).length) (toText f (packUnits b)) := by
  obtain ⟨t, ht⟩ := toText_packUnits_ok f b
  have hlen := toTextFrom_yields f 0 (packUnits b)
  rw [← toText, ht] at hlen
  rw [ht]
  exact hlen

/-! ### BUILD_ALPHABET's table -/

theorem State.stagedTable_toNat (s : State) (i : Fin 94) (h : (s.elem .stage i.val).toNat ≤ 126) :
    (s.stagedTable[i.val]).toNat = (s.elem .stage i.val).toNat := by
  simp only [State.stagedTable, Vector.getElem_ofFn, BitVec.toNat_setWidth]
  exact Nat.mod_eq_of_lt (by omega)

/-- A staged alphabet that passes the symbol check is one (R46, R130). -/
theorem State.alphabetOk_stagedTable (s : State)
    (h : firstBadSymbol 0 [] (s.slice .stage 0 Config.alphabetSize) = none) :
    AlphabetOk s.stagedTable (inverseTable s.stagedTable) := by
  have hnth (k : Fin 94) : nth (s.slice .stage 0 Config.alphabetSize) k.val = s.elem .stage k.val := by
    rw [nth, List.getD_eq_getElem?_getD, State.slice_getElem? s .stage 0 Config.alphabetSize k.val k.isLt, Nat.zero_add]
    rfl
  have hgood (k : Fin 94) : 33 ≤ (s.elem .stage k.val).toNat ∧ (s.elem .stage k.val).toNat ≤ 126 ∧
      ∀ j : Fin 94, j < k → s.elem .stage j.val ≠ s.elem .stage k.val := by
    obtain ⟨hlo, hhi, -, hnew⟩ := (firstBadSymbol_eq_none _ _ _).mp h k.val (by simp [Config.alphabetSize])
    rw [hnth] at hlo hhi hnew
    exact ⟨hlo, hhi, fun j hj => hnth j ▸ hnew j.val hj⟩
  have hcode (i : Fin 94) := s.stagedTable_toNat i (hgood i).2.1
  refine alphabetOk_inverseTable _ (fun i => ?_) fun i j hij => ?_
  · rw [hcode]
    exact ⟨(hgood i).1, (hgood i).2.1⟩
  · have heq : s.elem .stage i.val = s.elem .stage j.val := by
      apply BitVec.eq_of_toNat_eq
      rw [← hcode, ← hcode, hij]
    rcases lt_trichotomy i j with hlt | heq' | hlt
    · exact absurd heq ((hgood j).2.2 i hlt)
    · exact heq'
    · exact absurd heq.symm ((hgood i).2.2 j hlt)

/-! ### What each command yields -/

/-- Updates that keep the invariant: each new content fits its array, and a new FWD is an alphabet (R46, R120). -/
structure Updates.Sound (u : Updates) (c : Config.RawCap) : Prop where
  fits : u.Fits c
  alphabet : ∀ f, u.fwd = some f → AlphabetOk f (inverseTable f)

/-- Array contents alone are sound when each fits. -/
theorem Updates.Sound.of_lengths {raw unit text : Option (List Byte)} {c : Config.RawCap}
    (hraw : ∀ v ∈ raw, v.length ≤ c.val) (hunit : ∀ v ∈ unit, v.length ≤ unitCap c)
    (htext : ∀ v ∈ text, v.length ≤ unitCap c) : Updates.Sound { raw := raw, unit := unit, text := text } c where
  fits := fun a v hv => by
    cases a with
    | stage => cases hv
    | raw => exact hraw v hv
    | unit => exact hunit v hv
    | text => exact htext v hv
  alphabet := nofun

/-- New tables alone are sound when FWD is an alphabet. -/
theorem Updates.Sound.of_table {f : ForwardTable} (h : AlphabetOk f (inverseTable f)) (c : Config.RawCap) :
    Updates.Sound { fwd := some f } c where
  fits := fun a v hv => by cases a <;> cases hv
  alphabet := fun g hg => by cases hg; exact h

/-- PACK's units fit: `UnitLen` is monotone (R120, R150). -/
theorem packUnits_length_le {c : Config.RawCap} {b : List Byte} (h : b.length ≤ c.val) :
    (packUnits b).length ≤ unitCap c := by
  rw [packUnits_length, unitCap]
  exact unitLength_le_unitLength_iff.mpr h

/-- UNPACK's bytes fit: `UnitLen` of their length is that of the units, and it is strictly increasing (R120, R150). -/
theorem length_le_of_unitLength {c : Config.RawCap} {u b : List Byte} (hu : u.length ≤ unitCap c)
    (hb : unitLength b.length = u.length) : b.length ≤ c.val := by
  rw [← hb, unitCap] at hu
  exact unitLength_le_unitLength_iff.mp hu

theorem packExec_yields (s : State) :
    Yields (codesOf (opcode .pack)) (Updates.Sound · s.rawCap) (packExec s) := by
  rw [packExec_eq]
  refine ((s.source_yields .raw).widen (by decide)).map fun b hb => ?_
  exact .of_lengths (by simp) (by simpa using packUnits_length_le hb) (by simp)

theorem unpackExec_yields (s : State) :
    Yields (codesOf (opcode .unpack)) (Updates.Sound · s.rawCap) (unpackExec s) := by
  rw [unpackExec_eq]
  refine ((s.source_yields .unit).widen (by decide)).bind fun u hu => ?_
  refine ((unpackUnits_yields u).widen (by decide)).map fun b hb => ?_
  exact .of_lengths (by simpa using length_le_of_unitLength hu hb) (by simp) (by simp)

theorem toTextExec_yields (s : State) :
    Yields (codesOf (opcode .toText)) (Updates.Sound · s.rawCap) (toTextExec s) := by
  rw [toTextExec_eq]
  refine ((s.source_yields .unit).widen (by decide)).bind fun u hu => ?_
  refine ((toTextFrom_yields s.fwd 0 u).widen (by decide)).map fun t ht => ?_
  have hcap : t.length ≤ unitCap s.rawCap := ht.trans_le hu
  exact .of_lengths (by simp) (by simp) (by simpa using hcap)

theorem fromTextExec_yields (s : State) :
    Yields (codesOf (opcode .fromText)) (Updates.Sound · s.rawCap) (fromTextExec s) := by
  rw [fromTextExec_eq]
  refine ((s.source_yields .text).widen (by decide)).bind fun t ht => ?_
  refine ((fromText_yields s.rev t).widen (by decide)).map fun u hu => ?_
  have hcap : u.length ≤ unitCap s.rawCap := hu.trans_le ht
  exact .of_lengths (by simp) (by simpa using hcap) (by simp)

/-- ENCODE has no code 7: its text stage cannot fail (R176, R201). -/
theorem encodeExec_yields (s : State) :
    Yields (codesOf (opcode .encode)) (Updates.Sound · s.rawCap) (encodeExec s) := by
  rw [encodeExec_eq]
  refine ((s.source_yields .raw).widen (by decide)).bind fun b hb => ?_
  refine ((toText_packUnits_yields s.fwd b).widen (by decide)).map fun t ht => ?_
  have hu : (packUnits b).length ≤ unitCap s.rawCap := packUnits_length_le hb
  exact .of_lengths (by simp) (by simpa using hu) (by simpa using ht.trans_le hu)

theorem decodeExec_yields (s : State) :
    Yields (codesOf (opcode .decode)) (Updates.Sound · s.rawCap) (decodeExec s) := by
  rw [decodeExec_eq]
  refine ((s.source_yields .text).widen (by decide)).bind fun t ht => ?_
  refine ((fromText_yields s.rev t).widen (by decide)).bind fun u hu => ?_
  refine ((unpackUnits_yields u).widen (by decide)).map fun b hb => ?_
  have hcap : u.length ≤ unitCap s.rawCap := hu.trans_le ht
  exact .of_lengths (by simpa using length_le_of_unitLength hcap hb) (by simpa using hcap) (by simp)

theorem buildAlphabetExec_yields (s : State) :
    Yields (codesOf (opcode .buildAlphabet)) (Updates.Sound · s.rawCap) (buildAlphabetExec s) := by
  unfold buildAlphabetExec
  split
  · exact yields_error.mpr (show 1#4 ∈ codesOf (opcode .buildAlphabet) by decide)
  · split
    · exact yields_error.mpr (show 2#4 ∈ codesOf (opcode .buildAlphabet) by decide)
    · next hgood => exact Updates.Sound.of_table (s.alphabetOk_stagedTable hgood) s.rawCap

/-- Every command's function yields sound updates, or an error that the command can raise (R120, R201). -/
theorem commandResult_yields (i : Instr) (s : State) :
    Yields (codesOf (opcode i)) (Updates.Sound · s.rawCap) (commandResult i s) := by
  cases i with
  | nop => exact Updates.Sound.of_lengths (by simp) (by simp) (by simp)
  | pack => exact packExec_yields s
  | unpack => exact unpackExec_yields s
  | toText => exact toTextExec_yields s
  | fromText => exact fromTextExec_yields s
  | encode => exact encodeExec_yields s
  | decode => exact decodeExec_yields s
  | buildAlphabet => exact buildAlphabetExec_yields s
  | loadStdAlphabet => exact Updates.Sound.of_table alphabetOk_stdTable s.rawCap

/-! ### The addresses a store lists are backed (R69, R120) -/

theorem Memory.store_backed {c : Config.RawCap} {m : Memory} {arr : Arr} {o : Nat} {bs : List Byte}
    (hm : ∀ x ∈ m.map Prod.fst, backed c x) (hbs : o + bs.length ≤ arr.cap c) :
    ∀ x ∈ (m.store (arr.base + o) bs).map Prod.fst, backed c x := by
  intro x hx
  rcases Memory.store_listed m _ bs x hx with hold | ⟨hlo, hhi⟩
  · exact hm x hold
  · exact ⟨arr, by omega, by omega⟩

theorem Memory.update_backed {c : Config.RawCap} {m : Memory} {arr : Arr} {v : Option (List Byte)}
    (hm : ∀ x ∈ m.map Prod.fst, backed c x) (hv : ∀ w, v = some w → w.length ≤ arr.cap c) :
    ∀ x ∈ (m.update arr v).map Prod.fst, backed c x := by
  cases v with
  | none => exact hm
  | some w => exact Memory.store_backed (o := 0) hm (by simpa using hv w rfl)

/-! ### The invariant under the state's operations -/

/-- The machine right after reset has the invariant (R241). -/
theorem reset_inv : Inv State.reset where
  memory := List.Pairwise.nil
  inside := nofun
  alphabet := alphabetOk_stdTable
  code := by decide
  info := fun _ => rfl
  source := fun _ => by decide
  pendingOp := nofun

/-- Each later reset leaves the first one's values, and no byte that could be beyond the capacity (R240). -/
theorem State.resetBlock_inv (s : State) : Inv s.resetBlock := { reset_inv with inside := nofun }

theorem State.accept_inv {s : State} (h : Inv s) (w : Word) : Inv (s.accept w) :=
  { h with
    source := nofun
    pendingOp := fun _ => rfl }

theorem ErrCode.bits_le (c : ErrCode) : c.bits.toNat ≤ 9 := by cases c <;> decide

/-- A failing completion keeps the invariant when its code is one of the command's (R113, R201). -/
theorem State.fail_inv {s : State} (h : Inv s) (e : CmdError) (he : e.code.bits ∈ codesOf s.lastOp) : Inv (s.fail e) :=
  { h with
    code := e.code.bits_le
    info := fun h0 => absurd h0 e.code.bits_ne_zero
    source := fun _ => he
    pendingOp := nofun }

/-- The tables after a sound update are an alphabet (R45, R46). -/
theorem State.apply_alphabetOk {s : State} (h : AlphabetOk s.fwd s.rev) {u : Updates} (hu : u.Sound s.rawCap) :
    AlphabetOk (s.apply u).fwd (s.apply u).rev := by
  rw [State.apply_fwd, State.apply_rev]
  cases hf : u.fwd with
  | none => exact h
  | some f => exact hu.alphabet f hf

/-- A successful completion keeps the invariant when its updates are sound (R114, R120). -/
theorem State.succeed_apply_inv {s : State} (h : Inv s) {u : Updates} (hu : u.Sound s.rawCap)
    (h0 : 0#4 ∈ codesOf s.lastOp) : Inv (s.apply u).succeed where
  memory := Memory.update_wf _ _ _ (Memory.update_wf _ _ _ (Memory.update_wf _ _ _ h.memory))
  inside := Memory.update_backed (Memory.update_backed (Memory.update_backed h.inside (hu.fits .unit)) (hu.fits .text))
    (hu.fits .raw)
  alphabet := State.apply_alphabetOk h.alphabet hu
  code := Nat.zero_le 9
  info := fun _ => rfl
  source := fun _ => h0
  pendingOp := nofun

theorem zero_mem_codesOf_opcode (i : Instr) : 0#4 ∈ codesOf (opcode i) := by cases i <;> decide

theorem badCommand_mem_codesOf (op : BitVec 4) : 9#4 ∈ codesOf op := by
  revert op
  decide

/-- The command a word decodes to has the word's opcode (R91, R92). -/
theorem opField_of_decode {w : Word} {i : Instr} (h : decode w = .ok i) : opField w = opcode i := by
  unfold decode at h
  split at h
  · cases h
  · unfold decodeOp at h
    split at h <;> cases h <;> exact BitVec.eq_of_toNat_eq ‹_›

/-- The completion of a command keeps the invariant, in a state whose `LAST_OP` is the command's (R111). -/
theorem State.complete_inv {s : State} (h : Inv s) {i : Instr} (hop : s.lastOp = opcode i) :
    Inv (s.complete (commandResult i s)) := by
  have hyields := commandResult_yields i s
  rcases s.complete_cases (commandResult i s) with ⟨u, hu, hdone⟩ | ⟨e, he, hdone⟩
  · rw [hu] at hyields
    rw [hdone]
    exact State.succeed_apply_inv h hyields (hop ▸ zero_mem_codesOf_opcode i)
  · rw [he] at hyields
    rw [hdone]
    exact State.fail_inv h e (hop ▸ hyields)

/-- A store to a backed word of a window keeps the invariant: lanes beyond the capacity are discarded (R69). -/
theorem State.writeWindow_inv {s : State} (h : Inv s) {arr : Arr} {o : Nat} (ho : o < s.cap arr) (d : Word) :
    Inv (s.writeWindow arr o d) :=
  { h with
    memory := Memory.store_wf _ _ _ h.memory
    inside := by
      refine Memory.store_backed h.inside ?_
      have htake : ((lanes d).take (s.cap arr - o)).length ≤ s.cap arr - o := List.length_take_le _ _
      change o + _ ≤ s.cap arr
      omega }

/-- A write to a register keeps the invariant: only `CTRL` and `CMD` touch what it speaks of. -/
theorem State.writeReg_inv {s : State} (h : Inv s) (r : Reg) (d : Word) : Inv (s.writeReg r d) := by
  cases r with
  | ctrl =>
    rw [State.writeReg]
    split
    · exact s.resetBlock_inv
    · exact h
  | cmd => exact State.accept_inv h d
  | id | rawCapReg | unitCapReg | errCode | errInfo => exact h
  | status | irqStatus | irqEnable | rawLen | unitLen | textLen | alphaLen => exact { h with }

/-- Every host write keeps the invariant. -/
theorem State.memWrite_inv {s : State} (h : Inv s) (a : HostAddr) (d : Word) : Inv (s.memWrite a d).1 := by
  rcases s.memWrite_cases a d with hs | ⟨-, hs⟩ | ⟨r, -, -, hs⟩ | ⟨arr, o, -, ho, hs⟩
  · rwa [hs]
  · rw [hs]
    exact { h with }
  · rw [hs]
    exact State.writeReg_inv h r d
  · rw [hs]
    exact State.writeWindow_inv h ho d

/-- The invariant speaks of the block alone (R20). -/
theorem Inv.of_sameBlock {s t : State} (h : Inv s) (hst : SameBlock s t) : Inv t where
  memory := by rw [hst.mem]; exact h.memory
  inside := by rw [hst.mem, hst.rawCap]; exact h.inside
  alphabet := by rw [hst.fwd, hst.rev]; exact h.alphabet
  code := by rw [hst.errCode]; exact h.code
  info := by rw [hst.errCode, hst.errInfo]; exact h.info
  source := by rw [hst.busy, hst.errCode, hst.lastOp]; exact h.source
  pendingOp := by rw [hst.busy, hst.lastOp, hst.pending]; exact h.pendingOp

/-- Every statement of the host keeps the invariant (R97). -/
theorem State.perform_inv {s : State} (h : Inv s) (st : HostStmt) : Inv (s.perform st) := by
  cases st with
  | wr a d => exact (State.memWrite_inv h a d).of_sameBlock (s.hostWr_transaction a d).2
  | rd a name => exact h.of_sameBlock (s.hostRd_transaction a name).2
  | bnz n mask target => exact h.of_sameBlock (s.hostBnz_moves n mask target).2
  | resetPin => exact { s.resetBlock_inv with }

theorem State.hostStep_inv {s : State} (h : Inv s) : Inv s.hostStep := by
  rcases s.hostStep_cases with ⟨-, hs⟩ | ⟨st, -, -, hs⟩
  · rwa [hs]
  · have hdown : Inv s.countDown := { h with }
    rw [hs]
    exact State.perform_inv hdown st

/-! ### The obligations -/

/-- Settles O45: the constants are `readReg`'s, and every address named is a read-only register's or in a table's window. -/
theorem readOnlyTargets : Obligations.ReadOnlyTargets := by
  refine ⟨fun s d => ⟨s.memRead_reg .id, s.memWrite_readOnly .id d (by decide),
    s.memRead_reg .rawCapReg, s.memWrite_readOnly .rawCapReg d (by decide),
    s.memRead_reg .unitCapReg, s.memWrite_readOnly .unitCapReg d (by decide), rfl, rfl⟩, ?_⟩
  rintro s a d h4 (hreg | ⟨hlo, hhi⟩ | ⟨hlo, hhi⟩ | ⟨hlo, hhi⟩)
  · obtain ⟨r, hr, rfl⟩ := exists_readOnly_of_mem_offsets hreg
    exact s.memWrite_readOnly r d hr
  · exact s.memWrite_in_table .fwd nofun a d h4 hlo hhi
  · exact s.memWrite_in_table .rev nofun a d h4 hlo hhi
  · exact s.memWrite_in_table .std nofun a d h4 hlo hhi

/-- Settles O54: neither register is protected, so no write to them is dropped. -/
theorem interruptRegistersAndOutput : Obligations.InterruptRegistersAndOutput := by
  refine ⟨fun s d => ⟨⟨_, s.memRead_reg .irqStatus, two_flags_toNat _ _⟩,
    ⟨_, s.memRead_reg .irqEnable, two_flags_toNat _ _⟩,
    s.memWrite_unprotected .irqStatus d rfl, s.memWrite_unprotected .irqEnable d rfl⟩,
    State.irq_eq_register_bits, rfl, fun s => ?_⟩
  simp [State.irq]

/-- Settles O52: the block is idle, so no write is dropped. -/
theorem lengthRegistersHoldAnyValue : Obligations.LengthRegistersHoldAnyValue := fun s d hidle =>
  ⟨s.memWrite_idle_reg .rawLen d hidle, s.memWrite_idle_reg .unitLen d hidle, s.memWrite_idle_reg .textLen d hidle,
    s.memWrite_idle_reg .alphaLen d hidle, s.memRead_reg .rawLen, s.memRead_reg .unitLen, s.memRead_reg .textLen,
    s.memRead_reg .alphaLen⟩

/-- Settles O53: the bits of `STATUS` one by one, the other registers by their own words. -/
theorem statusRegister : Obligations.StatusRegister := by
  refine fun s d => ⟨⟨s.statusWord, s.memRead_reg .status, ?_, ?_, ?_, ?_, s.statusWord_lastOp, s.statusWord_high⟩,
    ⟨s.errCodeWord, s.memRead_reg .errCode, ?_⟩, s.memRead_reg .errInfo, s.memRead_reg .cmd,
    s.memWrite_unprotected .status d rfl⟩
  · rw [s.statusWord_getLsbD]; simp
  · rw [s.statusWord_getLsbD]; simp [State.err]
  · rw [s.statusWord_getLsbD]; simp
  · rw [s.statusWord_getLsbD]; simp
  · exact BitVec.toNat_setWidth_of_le (by decide)

/-- Settles O55: `CTRL` is not protected; bit 0 of the word decides. -/
theorem controlRegister : Obligations.ControlRegister := by
  have hwrite (s : State) (d : Word) : s.memWrite 0x00010#18 d = (s.writeReg .ctrl d, .okay) :=
    s.memWrite_unprotected .ctrl d rfl
  refine fun s d => ⟨fun hd => ?_, fun hd => ?_, s.memRead_reg .ctrl⟩
  · rw [hwrite, State.writeReg, if_pos hd]
  · rw [hwrite, State.writeReg, hd]
    rfl

/-- Settles O42, by counting: an injection of the 94 indices into 94 codes. -/
theorem alphabetIsAPermutation : Obligations.AlphabetIsAPermutation :=
  fun _ _ h => ⟨h.surjective, h.revValid_iff, h.illegalChar_iff⟩

/-- Settles O58. -/
theorem invariantHoldsAtReset : Obligations.InvariantHoldsAtReset := reset_inv

/-- Settles O59, by the cases of `step`: a command's completion, an illegal word's, or a statement of the host. -/
theorem everyStepKeepsTheInvariant : Obligations.EveryStepKeepsTheInvariant := by
  intro s t h hstep
  rcases step_cases s with ⟨i, hturn, hdec, hs⟩ | ⟨r, -, -, hs⟩ | ⟨-, hs⟩
  · have hbusy := (s.engineTurn_iff.mp hturn).1
    cases hs.symm.trans hstep
    exact State.complete_inv h ((h.pendingOp hbusy).trans (opField_of_decode hdec))
  · cases hs.symm.trans hstep
    exact State.fail_inv h _ (badCommand_mem_codesOf s.lastOp)
  · cases hs.symm.trans hstep
    exact State.hostStep_inv h

end Sys2Proof.Machine

/-! PROOFS. The family `20_memory`: what the host port answers at each target of the address map (R60 to R74), and what a host
step leaves of a pending command's inputs (R79). The rules about the windows and about refused and dropped transactions come
first, then the obligations.
-/

namespace Sys2Proof.Machine

/-! ### The address map -/

/-- Every array fits in its window, whatever the capacity parameter (R10, R61). -/
theorem Arr.cap_le_window (c : Config.RawCap) (a : Arr) : a.cap c ≤ a.window := by
  have hunit : unitCap c ≤ 0x10000 := (unitLength_le_unitLength_iff.mpr c.le).trans (by decide)
  cases a with
  | stage => exact le_refl 0x80
  | raw => exact c.le.trans (by decide)
  | unit | text => exact hunit

/-- A backed byte of a window lies in it (R61). -/
theorem Win.cap_le_size (c : Config.RawCap) (w : Win) : w.cap c ≤ w.size := by
  cases w with
  | ram a => exact a.cap_le_window c
  | rev => exact le_refl 0x80
  | fwd | std =>
    change 94 ≤ 0x60
    decide

/-- Every word of the tables' windows and of the ROM's has a backed byte (R61). -/
theorem Win.lt_cap_of_lt_size (c : Config.RawCap) (w : Win) (hw : ∀ a, w ≠ .ram a) (o : Nat) (h4 : o % 4 = 0)
    (ho : o < w.size) : o < w.cap c := by
  cases w with
  | ram a => exact absurd rfl (hw a)
  | rev => exact ho
  | fwd | std =>
    change o < 0x60 at ho
    change o < 94
    omega

/-- An address that is no register's offset and in no window is unmapped (R65). -/
theorem targetAt_unmapped {a : Nat} (hreg : ∀ r : Reg, a ≠ r.offset)
    (hwin : ∀ w : Win, ¬ (w.base ≤ a ∧ a < w.base + w.size)) : targetAt a = .unmapped := by
  cases h : targetAt a with
  | reg r => exact absurd (targetAt_eq_reg h) (hreg r)
  | win w o =>
    obtain ⟨rfl, ho⟩ := targetAt_eq_win h
    exact absurd ⟨by omega, by omega⟩ (hwin w)
  | unmapped => rfl

/-- The list of R24's offsets is complete. -/
theorem Reg.offset_mem (r : Reg) :
    r.offset ∈ [0x00, 0x04, 0x08, 0x10, 0x14, 0x18, 0x1C, 0x20, 0x24, 0x28, 0x30, 0x34, 0x38, 0x3C] := by
  cases r <;> decide

/-- The list of R61's windows is complete. -/
theorem Win.range_cases (w : Win) (a : Nat) (h : w.base ≤ a ∧ a < w.base + w.size) :
    (0x400 ≤ a ∧ a < 0x480) ∨ (0x500 ≤ a ∧ a < 0x560) ∨ (0x600 ≤ a ∧ a < 0x680) ∨ (0x700 ≤ a ∧ a < 0x760) ∨
      0x10000 ≤ a := by
  obtain ⟨hlo, hhi⟩ := h
  cases w with
  | ram arr =>
    cases arr with
    | stage => exact .inl ⟨hlo, hhi⟩
    | raw | unit | text =>
      simp only [Win.base, Arr.base] at hlo
      omega
  | fwd => exact .inr (.inl ⟨hlo, hhi⟩)
  | rev => exact .inr (.inr (.inl ⟨hlo, hhi⟩))
  | std => exact .inr (.inr (.inr (.inl ⟨hlo, hhi⟩)))

/-- The address of a listed register is that register's. -/
theorem exists_reg_of_mem_offsets {rs : List Reg} {a : HostAddr} (h : a.toNat ∈ rs.map Reg.offset) :
    ∃ r ∈ rs, a = BitVec.ofNat 18 r.offset := by
  obtain ⟨r, hr, ha⟩ := List.mem_map.mp h
  exact ⟨r, hr, BitVec.eq_of_toNat_eq (by rw [toNat_regAddr, ha])⟩

/-! ### Refused transactions -/

/-- A transaction is refused at a misaligned address and at an unmapped one (R63, R65). -/
def Refused (a : HostAddr) : Prop := aligned a = true → targetAt a.toNat = .unmapped

theorem State.memRead_refused (s : State) {a : HostAddr} (h : Refused a) : s.memRead a = (.slverr, 0#32) := by
  rw [State.memRead]
  split
  · next ha => rw [h ha]
  · rfl

theorem State.memWrite_refused (s : State) {a : HostAddr} (h : Refused a) (d : Word) :
    s.memWrite a d = (s, .slverr) := by
  rw [State.memWrite]
  split
  · next ha => rw [h ha]
  · rfl

/-! ### A window's bytes and words -/

theorem State.windowByte_ram (s : State) (a : Arr) (o : Nat) :
    s.windowByte (.ram a) o = if o < s.cap a then s.elem a o else 0#8 := rfl

theorem State.windowByte_fwd (s : State) (o : Nat) :
    s.windowByte .fwd o = if h : o < 94 then (s.fwd[o]).setWidth 8 else 0#8 := by
  by_cases h : o < 94 <;> simp [State.windowByte, Win.cap, symbolAt, h]

theorem State.windowByte_rev (s : State) (o : Nat) :
    s.windowByte .rev o = if h : o < 128 then s.rev[o] else 0#8 := by
  by_cases h : o < 128 <;> simp [State.windowByte, Win.cap, h]

theorem State.windowByte_std (s : State) (o : Nat) :
    s.windowByte .std o = if h : o < 94 then (stdTable[o]).setWidth 8 else 0#8 := by
  by_cases h : o < 94 <;> simp [State.windowByte, Win.cap, symbolAt, h]

/-- A byte placed at lane `k` shows at that lane and at no other (R68). -/
theorem lane_shiftLeft (b : Byte) (k j : Nat) (hj : j < 4) :
    (b.setWidth 32 <<< (8 * k)).extractLsb' (8 * j) 8 = if k = j then b else 0#8 := by
  apply BitVec.eq_of_getLsbD_eq
  intro i hi
  simp only [BitVec.getLsbD_extractLsb', BitVec.getLsbD_shiftLeft, BitVec.getLsbD_setWidth]
  rcases Nat.lt_trichotomy k j with h | rfl | h
  · rw [if_neg (by omega), b.getLsbD_of_ge (8 * j + i - 8 * k) (by omega)]
    simp
  · simp [hi, show 8 * k + i < 32 by omega, show i < 32 by omega]
  · simp [show k ≠ j by omega, show 8 * j + i < 8 * k by omega]

/-- Lane `j` of a word of four bytes is the `j`-th (R68). -/
theorem wordOf_lane (b : Nat → Byte) (j : Nat) (hj : j < 4) :
    (wordOf (b 0) (b 1) (b 2) (b 3)).extractLsb' (8 * j) 8 = b j := by
  have hword : wordOf (b 0) (b 1) (b 2) (b 3) = (b 0).setWidth 32 <<< (8 * 0) ||| (b 1).setWidth 32 <<< (8 * 1) |||
      (b 2).setWidth 32 <<< (8 * 2) ||| (b 3).setWidth 32 <<< (8 * 3) := by
    simp [wordOf]
  rw [hword]
  simp only [BitVec.extractLsb'_or, lane_shiftLeft _ _ j hj]
  interval_cases j <;> simp

/-- Lane `j` of a window's word is the window's byte at `o + j` (R68). -/
theorem State.windowWord_lane (s : State) (w : Win) (o j : Nat) (hj : j < 4) :
    (s.windowWord w o).extractLsb' (8 * j) 8 = s.windowByte w (o + j) :=
  wordOf_lane (fun k => s.windowByte w (o + k)) j hj

theorem lanes_eq_map (d : Word) : lanes d = (List.range 4).map fun j => d.extractLsb' (8 * j) 8 := rfl

@[simp] theorem lanes_length (d : Word) : (lanes d).length = 4 := rfl

theorem lanes_getElem (d : Word) (j : Nat) (hj : j < (lanes d).length) : (lanes d)[j] = d.extractLsb' (8 * j) 8 := by
  simp [lanes_eq_map]

/-- A window write stores lane `j` at offset `o + j`, below the capacity (R68, R69). -/
theorem State.writeWindow_elem (s : State) (a : Arr) (o : Nat) (d : Word) (j : Nat) (hj : j < 4) (ho : o + j < s.cap a) :
    (s.writeWindow a o d).elem a (o + j) = d.extractLsb' (8 * j) 8 := by
  have hlen : j < ((lanes d).take (s.cap a - o)).length := by simp; omega
  apply State.byteAt_of_find
  rw [State.writeWindow_mem, ← Nat.add_assoc, Memory.find_store_inside _ _ _ _ hlen, List.getElem_take, lanes_getElem]

/-- A window write changes no byte but those of its lanes below the capacity (R68, R69). -/
theorem State.writeWindow_sameOutside (s : State) (a : Arr) (o : Nat) (d : Word) :
    SameOutside s (s.writeWindow a o d) (a.base + o) (min 4 (s.cap a - o)) := by
  intro x hx
  refine State.byteAt_congr ?_ rfl
  rw [State.writeWindow_mem, Memory.find_store_outside]
  rwa [List.length_take, lanes_length, Nat.min_comm]

/-! ### Reads of a window -/

theorem State.readWindow_beyond (s : State) {w : Win} {o : Nat} (ho : w.cap s.rawCap ≤ o) :
    s.readWindow w o = (.slverr, 0#32) := by
  rw [State.readWindow, if_pos ho]

/-- A read of a backed word gets OKAY, busy or not (R70, R73). -/
theorem State.readWindow_okay (s : State) {w : Win} {o : Nat} (ho : o < w.cap s.rawCap) :
    (s.readWindow w o).1 = .okay := by
  rw [State.readWindow, if_neg (by omega)]
  split <;> rfl

/-- A read of a backed word is exact while idle, and of the ROM always (R70, R73). -/
theorem State.readWindow_exact (s : State) {w : Win} {o : Nat} (hexact : s.busy = false ∨ w = .std)
    (ho : o < w.cap s.rawCap) : s.readWindow w o = (.okay, s.windowWord w o) := by
  have hfree : (s.busy && decide (w ≠ .std)) = false := by
    rcases hexact with h | h <;> simp [h]
  rw [State.readWindow, if_neg (by omega), hfree]
  rfl

theorem State.memRead_backed_okay (s : State) (w : Win) (o : Nat) (h4 : o % 4 = 0) (ho : o < w.cap s.rawCap) :
    (s.memRead (BitVec.ofNat 18 (w.base + o))).1 = .okay := by
  rw [s.memRead_win w o (ho.trans_le (w.cap_le_size _)) h4]
  exact s.readWindow_okay ho

theorem State.memRead_backed (s : State) (w : Win) (o : Nat) (hexact : s.busy = false ∨ w = .std) (h4 : o % 4 = 0)
    (ho : o < w.cap s.rawCap) : s.memRead (BitVec.ofNat 18 (w.base + o)) = (.okay, s.windowWord w o) := by
  rw [s.memRead_win w o (ho.trans_le (w.cap_le_size _)) h4]
  exact s.readWindow_exact hexact ho

/-- A read of a backed word while idle, lane by lane (R68). -/
theorem State.memRead_lane (s : State) (w : Win) (o j : Nat) (hidle : s.busy = false) (h4 : o % 4 = 0) (hj : j < 4)
    (ho : o < w.cap s.rawCap) : ∃ d, s.memRead (BitVec.ofNat 18 (w.base + o)) = (.okay, d) ∧
      d.extractLsb' (8 * j) 8 = s.windowByte w (o + j) :=
  ⟨_, s.memRead_backed w o (.inl hidle) h4 ho, s.windowWord_lane w o j hj⟩

/-! ### Reads and the model's own fields -/

/-- A window read that is not free sees neither the draws nor the host (R73, R74). -/
theorem State.readWindow_ownFields (s : State) (draws : Nat) (host : HostAgent) {w : Win} {o : Nat}
    (hexact : s.busy = false ∨ w = .std) :
    { s with draws := draws, host := host }.readWindow w o = s.readWindow w o := by
  rcases Nat.lt_or_ge o (w.cap s.rawCap) with ho | ho
  · rw [s.readWindow_exact hexact ho]
    exact State.readWindow_exact { s with draws := draws, host := host } hexact ho
  · rw [s.readWindow_beyond ho]
    exact State.readWindow_beyond { s with draws := draws, host := host } ho

/-- A read that is not free sees neither the draws nor the host (R73, R74). -/
theorem State.memRead_ownFields (s : State) (draws : Nat) (host : HostAgent) (a : HostAddr)
    (hexact : s.busy = false ∨ ∀ w o, targetAt a.toNat = .win w o → w = .std) :
    { s with draws := draws, host := host }.memRead a = s.memRead a := by
  rw [State.memRead, State.memRead]
  split
  · cases htarget : targetAt a.toNat with
    | reg r => rfl
    | win w o => exact s.readWindow_ownFields draws host (hexact.imp_right fun h => h w o htarget)
    | unmapped => rfl
  · rfl

/-! ### Dropped writes, and writes of a RAM window -/

/-- A write to a protected register while busy is dropped (R72). -/
theorem State.memWrite_protected (s : State) (r : Reg) (d : Word) (hbusy : s.busy = true) (hr : r.protected = true) :
    s.memWrite (BitVec.ofNat 18 r.offset) d = s.dropWrite := by
  rw [State.memWrite_reg, hbusy, hr]
  rfl

/-- A write to a backed word while busy is dropped (R72). -/
theorem State.writeRam_busy (s : State) {a : Arr} {o : Nat} (d : Word) (hbusy : s.busy = true) (ho : o < s.cap a) :
    s.writeRam a o d = s.dropWrite := by
  rw [State.writeRam, if_neg (by omega), if_pos hbusy]

/-- A write to a backed word while idle stores its lanes (R68, R69, R71). -/
theorem State.writeRam_idle (s : State) {a : Arr} {o : Nat} (d : Word) (hidle : s.busy = false) (ho : o < s.cap a) :
    s.writeRam a o d = (s.writeWindow a o d, .okay) := by
  rw [State.writeRam, if_neg (by omega), if_neg (by simp [hidle])]

/-- A write beyond the capacity while busy gets SLVERR and may set `DROPPED` (R69, R72; log entry 7). -/
theorem State.writeRam_busy_beyond (s : State) {a : Arr} {o : Nat} (d : Word) (hbusy : s.busy = true) (ho : s.cap a ≤ o) :
    s.writeRam a o d = ({ s with dropped := s.dropped || Config.overCapacityDropped }, .slverr) := by
  rw [State.writeRam, if_pos ho]
  cases Config.overCapacityDropped with
  | true =>
    rw [if_pos (by simp [hbusy]), Bool.or_true]
    rfl
  | false => rw [if_neg (by simp), Bool.or_false]

/-- A write beyond the capacity while idle gets SLVERR and has no effect (R69). -/
theorem State.writeRam_idle_beyond (s : State) {a : Arr} {o : Nat} (d : Word) (hidle : s.busy = false)
    (ho : s.cap a ≤ o) : s.writeRam a o d = (s, .slverr) := by
  rw [State.writeRam, if_pos ho, if_neg (by simp [hidle])]

/-! ### What a host step leaves of a pending command's inputs -/

/-- `t` holds all that a pending command reads as `s` does: the command, the arrays, the length registers and the tables; and
the status that the last completion left (R79). -/
structure SameInputs (s t : State) : Prop where
  busy : t.busy = s.busy
  pending : t.pending = s.pending
  lastOp : t.lastOp = s.lastOp
  mem : t.mem = s.mem
  resets : t.resets = s.resets
  rawLen : t.rawLen = s.rawLen
  unitLen : t.unitLen = s.unitLen
  textLen : t.textLen = s.textLen
  alphaLen : t.alphaLen = s.alphaLen
  fwd : t.fwd = s.fwd
  rev : t.rev = s.rev
  errCode : t.errCode = s.errCode
  errInfo : t.errInfo = s.errInfo
  rawCap : t.rawCap = s.rawCap

theorem SameInputs.refl (s : State) : SameInputs s s := by constructor <;> rfl

theorem SameBlock.sameInputs {s t : State} (h : SameBlock s t) : SameInputs s t := { h with }

theorem SameInputs.trans_sameBlock {s t u : State} (h : SameInputs s t) (h' : SameBlock t u) : SameInputs s u where
  busy := h'.busy.trans h.busy
  pending := h'.pending.trans h.pending
  lastOp := h'.lastOp.trans h.lastOp
  mem := h'.mem.trans h.mem
  resets := h'.resets.trans h.resets
  rawLen := h'.rawLen.trans h.rawLen
  unitLen := h'.unitLen.trans h.unitLen
  textLen := h'.textLen.trans h.textLen
  alphaLen := h'.alphaLen.trans h.alphaLen
  fwd := h'.fwd.trans h.fwd
  rev := h'.rev.trans h.rev
  errCode := h'.errCode.trans h.errCode
  errInfo := h'.errInfo.trans h.errInfo
  rawCap := h'.rawCap.trans h.rawCap

/-- A write while busy changes flags alone, unless it is the soft reset (R28, R72). -/
theorem State.memWrite_sameInputs (s : State) (a : HostAddr) (d : Word) (hbusy : s.busy = true)
    (hreset : Machine.resets (.wr a d) = false) : SameInputs s (s.memWrite a d).1 := by
  rcases s.memWrite_busy_cases a d hbusy with h | h | ⟨rfl, hd, -⟩ | h | h | h
  · rw [h]
    exact .refl s
  · rw [h]
    constructor <;> rfl
  · rw [Machine.resets, hd] at hreset
    cases hreset
  all_goals
    rw [h]
    constructor <;> rfl

/-- While busy, a statement of the host that is no reset keeps the pending command's inputs (R79). -/
theorem State.perform_sameInputs (s : State) (st : HostStmt) (hbusy : s.busy = true) (hreset : Machine.resets st = false) :
    SameInputs s (s.perform st) := by
  cases st with
  | wr a d => exact (s.memWrite_sameInputs a d hbusy hreset).trans_sameBlock (s.hostWr_transaction a d).2
  | rd a name => exact (s.hostRd_transaction a name).2.sameInputs
  | bnz n mask target => exact (s.hostBnz_moves n mask target).2.sameInputs
  | resetPin => cases hreset

/-- The host's step while busy, when its statement is no reset (R79). -/
theorem State.hostStep_sameInputs (s : State) (hbusy : s.busy = true)
    (hreset : ∀ st, s.host.current = some st → Machine.resets st = false) : SameInputs s s.hostStep := by
  rcases s.hostStep_cases with ⟨-, h⟩ | ⟨st, -, hcur, h⟩
  · rw [h]
    exact .refl s
  · rw [h]
    exact { s.countDown.perform_sameInputs st hbusy (hreset st hcur) with }

/-- The host statements that reset the block are the reset input and a write of bit 0 to `CTRL` (R240). -/
theorem resets_eq_false {st : HostStmt} (hpin : st ≠ .resetPin)
    (hctrl : ∀ d, st = .wr 0x00010#18 d → d.getLsbD 0 = false) : resets st = false := by
  cases st with
  | wr a d =>
    by_cases ha : a = 0x00010#18
    · subst ha
      rw [resets, hctrl d rfl, Bool.and_false]
    · simp [resets, ha]
  | rd | bnz => rfl
  | resetPin => exact absurd rfl hpin

/-! ### The obligations -/

/-- Settles O46: such an address is misaligned, or the target of no register and no window. -/
theorem refusedTransactionsHaveNoEffect : Obligations.RefusedTransactionsHaveNoEffect := by
  intro s a d h
  have hrefused : Refused a := by
    intro haligned
    have h4 : a.toNat % 4 = 0 := by simpa [aligned] using haligned
    obtain ⟨-, hreg, hstage, hfwd, hrev, hstd, hhi⟩ := h.resolve_left (not_not_intro h4)
    refine targetAt_unmapped (fun r hr => hreg (hr ▸ r.offset_mem)) fun w hw => ?_
    have hrow := w.range_cases a.toNat hw
    omega
  exact ⟨s.memRead_refused hrefused, s.memWrite_refused hrefused d⟩

/-- Settles O47: the four kinds of target, by their own rules. -/
theorem busyWritesAreDropped : Obligations.BusyWritesAreDropped := by
  intro s d hbusy
  refine ⟨fun a ha => ?protectedReg, fun arr o h4 ho => ?backedWord, fun arr o h4 ho hwin => ?beyond,
    fun a ha => ?freeReg⟩
  case protectedReg =>
    obtain ⟨r, hr, rfl⟩ := exists_reg_of_mem_offsets (rs := [.cmd, .rawLen, .unitLen, .textLen, .alphaLen]) ha
    have hprot : ∀ r ∈ [Reg.cmd, .rawLen, .unitLen, .textLen, .alphaLen], r.protected = true := by decide
    exact s.memWrite_protected r d hbusy (hprot r hr)
  case backedWord =>
    rw [s.memWrite_ram arr o d (ho.trans_le (arr.cap_le_window _)) h4]
    exact s.writeRam_busy d hbusy ho
  case beyond =>
    rw [s.memWrite_ram arr o d hwin h4]
    exact ⟨_, s.writeRam_busy_beyond d hbusy ho⟩
  case freeReg =>
    obtain ⟨r, hr, rfl⟩ := exists_reg_of_mem_offsets (rs := [.ctrl, .status, .irqStatus, .irqEnable]) ha
    have hfree : ∀ r ∈ [Reg.ctrl, .status, .irqStatus, .irqEnable], r.protected = false := by decide
    rw [s.memWrite_unprotected r d (hfree r hr)]

/-- Settles O48: the store's own rules below the capacity, and no effect at or beyond it. -/
theorem idleWindowWrite : Obligations.IdleWindowWrite := by
  intro s arr o d hidle h4 hwin
  rw [s.memWrite_ram arr o d hwin h4]
  exact ⟨fun ho => ⟨_, s.writeRam_idle d hidle ho, rfl, s.writeWindow_elem arr o d, s.writeWindow_sameOutside arr o d⟩,
    s.writeRam_idle_beyond d hidle⟩

/-- Settles O49: each window's word lane by lane, with the window's own byte. -/
theorem idleWindowRead : Obligations.IdleWindowRead := by
  intro s o j hidle h4 hj
  have hlane (w : Win) (ho : o < w.cap s.rawCap) := s.memRead_lane w o j hidle h4 hj ho
  have htable (w : Win) (hw : ∀ a, w ≠ .ram a) (ho : o < w.size) := hlane w (w.lt_cap_of_lt_size _ hw o h4 ho)
  refine ⟨fun arr ho => hlane (.ram arr) ho, fun arr ho hwin => ?_, fun ho => ?_, fun ho => ?_, fun ho => ?_⟩
  · exact (s.memRead_win (.ram arr) o hwin h4).trans (s.readWindow_beyond ho)
  · rw [← s.windowByte_fwd]
    exact htable .fwd nofun ho
  · rw [← s.windowByte_rev]
    exact htable .rev nofun ho
  · rw [← s.windowByte_std]
    exact htable .std nofun ho

/-- Settles O50: a register's read does not ask for `BUSY`, the ROM's is exact, and a backed word's gets OKAY. -/
theorem busyReads : Obligations.BusyReads := by
  intro s _
  have htable (w : Win) (hw : ∀ a, w ≠ .ram a) (o : Nat) (h4 : o % 4 = 0) (ho : o < w.size) :=
    s.memRead_backed_okay w o h4 (w.lt_cap_of_lt_size _ hw o h4 ho)
  refine ⟨s.memRead_reg, s.memRead_reg .rawLen, s.memRead_reg .unitLen, s.memRead_reg .textLen, s.memRead_reg .alphaLen,
    s.memRead_reg .errCode, s.memRead_reg .errInfo, fun o h4 ho => ?_,
    fun arr o h4 ho => s.memRead_backed_okay (.ram arr) o h4 ho,
    fun o h4 => ⟨htable .fwd nofun o h4, htable .rev nofun o h4⟩⟩
  have hexact (t : State) := t.memRead_backed .std o (.inr rfl) h4 (Win.lt_cap_of_lt_size t.rawCap .std nofun o h4 ho)
  exact (hexact s).trans (hexact { s with busy := false }).symm

/-- Settles O51: a read changes the draws and the host alone, which no other read sees unless its value is free. -/
theorem readsHaveNoEffect : Obligations.ReadsHaveNoEffect := fun s =>
  ⟨fun a name => ⟨(s.hostRd_transaction a name).2, fun a' hexact => s.memRead_ownFields _ _ a' hexact⟩,
    fun n mask target => (s.hostBnz_moves n mask target).2, State.hostStep_of_finished⟩

/-- Settles O16: the step is the host's, and its statement is no reset. -/
theorem pendingCommandInputsAreStable : Obligations.PendingCommandInputsAreStable := by
  intro s t hbusy hdelay hhost hpin hctrl hstep
  have hturn : step s = .next s.hostStep := step_of_hostTurn (s.engineTurn_eq_false_iff.mpr (.inr ⟨hdelay, hhost⟩))
  cases hturn.symm.trans hstep
  have hreset (st : HostStmt) (hcur : s.host.current = some st) : resets st = false :=
    resets_eq_false (fun h => hpin (h ▸ hcur)) fun d h => hctrl d (h ▸ hcur)
  have h := s.hostStep_sameInputs hbusy hreset
  exact ⟨h.busy.trans hbusy, h.pending, h.lastOp, h.mem, h.resets, h.rawLen, h.unitLen, h.textLen, h.alphaLen, h.fwd,
    h.rev, h.errCode, h.errInfo, h.rawCap⟩

end Sys2Proof.Machine

/-! PROOFS. The family `30_encoding`: the command words and their decoder (R90 to R92, R99), and the pseudo-instructions of the
host assembly (R97, R98). The rules about a word's two fields and about the words of `wrbytes` come first, then the obligations.
-/

namespace Sys2Proof.Machine

/-! ### The fields of a command word -/

theorem opField_toNat (w : Word) : (opField w).toNat = w.toNat % 16 := by simp [opField]

theorem rsvdField_toNat (w : Word) : (rsvdField w).toNat = w.toNat / 16 := by
  rw [rsvdField, BitVec.extractLsb'_toNat, Nat.shiftRight_eq_div_pow]
  exact Nat.mod_eq_of_lt (by omega)

theorem rsvdField_eq_zero_iff (w : Word) : rsvdField w = 0#28 ↔ w.toNat / 16 = 0 := by
  rw [← BitVec.toNat_inj, rsvdField_toNat]
  rfl

/-- A command's word is its opcode, as a number (R90, R91). -/
theorem encode_toNat (i : Instr) : (encode i).toNat = (opcode i).toNat := by cases i <;> rfl

/-- A word is a command's exactly when its two fields are (R90, R91). -/
theorem eq_encode_iff (w : Word) (i : Instr) : w = encode i ↔ rsvdField w = 0#28 ∧ opField w = opcode i := by
  rw [rsvdField_eq_zero_iff, ← BitVec.toNat_inj, ← BitVec.toNat_inj, encode_toNat, opField_toNat]
  have hop : (opcode i).toNat < 16 := (opcode i).isLt
  omega

/-! ### The decoder -/

theorem decodeOp_opcode (i : Instr) : decodeOp (opcode i) = .ok i := by cases i <;> rfl

/-- The decoder's two checks: the reserved bits are 0, and the opcode is the command's (R91, R92). -/
theorem decode_eq_ok_iff (w : Word) (i : Instr) : decode w = .ok i ↔ rsvdField w = 0#28 ∧ opField w = opcode i := by
  constructor
  · intro h
    refine ⟨?_, opField_of_decode h⟩
    by_contra hrsvd
    rw [decode, if_pos hrsvd] at h
    cases h
  · rintro ⟨hrsvd, hop⟩
    rw [decode, if_neg (not_not_intro hrsvd), hop, decodeOp_opcode]

theorem decode_encode (i : Instr) : decode (encode i) = .ok i :=
  (decode_eq_ok_iff _ i).mpr ((eq_encode_iff _ i).mp rfl)

/-- The opcodes of the nine commands are the numbers up to 8 (R91). -/
theorem exists_eq_opcode_iff (op : BitVec 4) : (∃ i, op = opcode i) ↔ op.toNat ≤ 8 := by
  constructor
  · rintro ⟨i, rfl⟩
    cases i <;> decide
  · intro h
    have hop : op = BitVec.ofNat 4 op.toNat := by simp
    rw [hop]
    interval_cases op.toNat
    exacts [⟨.nop, rfl⟩, ⟨.pack, rfl⟩, ⟨.unpack, rfl⟩, ⟨.toText, rfl⟩, ⟨.fromText, rfl⟩, ⟨.encode, rfl⟩, ⟨.decode, rfl⟩,
      ⟨.buildAlphabet, rfl⟩, ⟨.loadStdAlphabet, rfl⟩]

/-! ### The words and addresses of `wrbytes` and `rdbytes` -/

/-- There is one word for each four bytes, the last word's perhaps fewer (R98). -/
theorem packWords_length (bs : List Byte) : (packWords bs).length = (bs.length + 3) / 4 := by
  induction bs using packWords.induct with
  | case1 | case2 | case3 | case4 => simp [packWords]
  | case5 b0 b1 b2 b3 rest ih =>
    simp only [packWords, List.length_cons, ih]
    omega

/-- Word `j` holds the bytes from `4 * j`, an index past the last counting as 0 (R98). -/
theorem packWords_getElem (bs : List Byte) (j : Nat) (hj : j < (packWords bs).length) :
    (packWords bs)[j] = wordOf (nth bs (4 * j)) (nth bs (4 * j + 1)) (nth bs (4 * j + 2)) (nth bs (4 * j + 3)) := by
  induction bs using packWords.induct generalizing j with
  | case1 => cases hj
  | case2 | case3 | case4 =>
    obtain rfl : j = 0 := Nat.lt_one_iff.mp hj
    rfl
  | case5 b0 b1 b2 b3 rest ih =>
    cases j with
    | zero => rfl
    | succ j => exact ih j (Nat.lt_of_succ_lt_succ hj)

/-- Each lane of word `j` is its byte (R68, R98). -/
theorem packWords_lane (bs : List Byte) (j : Nat) (hj : j < (packWords bs).length) (l : Nat) (hl : l < 4) :
    ((packWords bs)[j]).extractLsb' (8 * l) 8 = nth bs (4 * j + l) := by
  rw [packWords_getElem]
  exact wordOf_lane (fun l => nth bs (4 * j + l)) l hl

/-- The address of word `j` of `n` bytes that fit the window from offset `o` (R97, R98). -/
theorem Win.addr_word_toNat (w : Win) {o n j : Nat} (hfit : o + n ≤ w.size) (hj : j < (n + 3) / 4) :
    (w.addr (o + 4 * j)).toNat = w.base + o + 4 * j := by
  rw [Win.addr, toNat_winAddr w (o + 4 * j) (by omega), Nat.add_assoc]

/-! ### The expansions -/

/-- `wrbytes` at a word offset: each word in order, at its address (R98). -/
theorem Asm.expand_wrbytes (place : Nat → Option Nat) (pos : Nat) (w : Win) (o : Nat) (bs : List Byte) (h4 : o % 4 = 0)
    (hfit : o + bs.length ≤ w.size) :
    ∃ p, (Asm.wrbytes w o bs).expand place pos = some p ∧ p.length = (bs.length + 3) / 4 ∧
      ∀ j, j < p.length → ∃ a d, p[j]? = some (.wr a d) ∧ a.toNat = w.base + o + 4 * j ∧
        ∀ l, l < 4 → d.extractLsb' (8 * l) 8 = nth bs (4 * j + l) := by
  refine ⟨_, if_pos h4, by rw [List.length_mapIdx, packWords_length], fun j hj => ?_⟩
  rw [List.length_mapIdx] at hj
  refine ⟨w.addr (o + 4 * j), (packWords bs)[j], ?_, w.addr_word_toNat hfit (packWords_length bs ▸ hj), packWords_lane bs j hj⟩
  rw [List.getElem?_mapIdx, List.getElem?_eq_getElem hj]
  rfl

/-- `rdbytes`: one read for each four bytes, in order, at its address (R98). -/
theorem Asm.expand_rdbytes (place : Nat → Option Nat) (pos : Nat) (w : Win) (o n : Nat) (hfit : o + n ≤ w.size) :
    ∃ p, (Asm.rdbytes w o n).expand place pos = some p ∧ p.length = (n + 3) / 4 ∧
      ∀ j, j < p.length → ∃ a, p[j]? = some (.rd a none) ∧ a.toNat = w.base + o + 4 * j := by
  refine ⟨_, rfl, by rw [List.length_map, List.length_range], fun j hj => ?_⟩
  rw [List.length_map, List.length_range] at hj
  refine ⟨w.addr (o + 4 * j), ?_, w.addr_word_toNat hfit hj⟩
  rw [List.getElem?_map, List.getElem?_range hj]
  rfl

/-! ### The obligations -/

/-- Settles O2: the decoder and the encoder ask the same of a word's two fields, and the opcodes are the numbers up to 8. -/
theorem decodeExactlyTheLegalWords : Obligations.DecodeExactlyTheLegalWords := by
  refine ⟨fun w i => (decode_eq_ok_iff w i).trans (eq_encode_iff w i).symm, fun w => ?_⟩
  calc (∃ i, decode w = .ok i)
      ↔ rsvdField w = 0#28 ∧ ∃ i, opField w = opcode i := by simp only [decode_eq_ok_iff, exists_and_left]
    _ ↔ w.toNat / 16 = 0 ∧ w.toNat % 16 ≤ 8 := by
        rw [rsvdField_eq_zero_iff, exists_eq_opcode_iff, opField_toNat]

/-- Settles O3: the rows of R98, with the words of `wrbytes` and the addresses of both by their own rules. -/
theorem pseudoInstructionsExpand : Obligations.PseudoInstructionsExpand := fun place pos =>
  ⟨fun _ => rfl, ⟨statusName, rfl, fun _ => rfl⟩, Asm.expand_wrbytes place pos, fun _ _ _ h4 => if_neg h4,
    Asm.expand_rdbytes place pos, rfl, rfl, rfl⟩

/-- Settles O1: each word is the encoding of its command. -/
theorem commandWordsDecode : Obligations.CommandWordsDecode :=
  ⟨⟨rfl, decode_encode .nop⟩, ⟨rfl, decode_encode .pack⟩, ⟨rfl, decode_encode .unpack⟩, ⟨rfl, decode_encode .toText⟩,
    ⟨rfl, decode_encode .fromText⟩, ⟨rfl, decode_encode .encode⟩, ⟨rfl, decode_encode .decode⟩,
    ⟨rfl, decode_encode .buildAlphabet⟩, ⟨rfl, decode_encode .loadStdAlphabet⟩⟩

end Sys2Proof.Machine

/-! PROOFS. The family `40_command_model`: acceptance (R110), what a completion step writes and leaves alone (R111 to R117, R120),
and that every pending command is completed (R118). The rules about the completion step, about what each command's function
reads and writes, and about a host step while busy come first, then the obligations.
-/

namespace Sys2Proof.Machine

/-! ### The status after a completion step -/

/-- The engine's step is the completion step of a result, for an illegal word too (R111, R112). -/
theorem State.exists_engineStep_eq_complete (s : State) : ∃ r, s.engineStep = .next (s.complete r) := by
  unfold State.engineStep
  cases decode s.pending with
  | ok i => exact ⟨commandResult i s, exec_eq i s⟩
  | error _ => exact ⟨.error ⟨.badCommand, s.pending⟩, rfl⟩

@[simp] theorem State.complete_busy (s : State) (r : Checked Updates) : (s.complete r).busy = false := by
  cases r <;> rfl

@[simp] theorem State.complete_irqDone (s : State) (r : Checked Updates) : (s.complete r).irqDone = true := by
  cases r <;> rfl

@[simp] theorem State.complete_dropped (s : State) (r : Checked Updates) : (s.complete r).dropped = s.dropped := by
  cases r <;> rfl

@[simp] theorem State.complete_lastOp (s : State) (r : Checked Updates) : (s.complete r).lastOp = s.lastOp := by
  cases r <;> rfl

@[simp] theorem State.complete_doneEn (s : State) (r : Checked Updates) : (s.complete r).doneEn = s.doneEn := by
  cases r <;> rfl

@[simp] theorem State.complete_errorEn (s : State) (r : Checked Updates) : (s.complete r).errorEn = s.errorEn := by
  cases r <;> rfl

/-- `IRQ_STATUS.ERROR` is sticky, and a failure sets it (R116). -/
theorem State.complete_irqError_iff (s : State) (r : Checked Updates) :
    (s.complete r).irqError = true ↔ s.irqError = true ∨ (s.complete r).errCode ≠ 0#4 := by
  cases r with
  | ok u => simp
  | error e => simp [e.code.bits_ne_zero]

/-- A success clears `ERR_INFO` (R32). -/
theorem State.complete_errInfo_of_ok {s : State} {r : Checked Updates} (h : (s.complete r).errCode = 0#4) :
    (s.complete r).errInfo = 0#32 := by
  obtain ⟨u, -, hdone⟩ := State.complete_errCode_zero h
  rw [hdone, State.succeed_errInfo]

theorem State.err_iff (s : State) : s.err = true ↔ s.errCode ≠ 0#4 := by simp [State.err]

/-- A completion step that fails writes the status alone (R113). -/
theorem State.complete_eq_failedWith {s : State} {r : Checked Updates} (h : (s.complete r).errCode ≠ 0#4) :
    s.complete r = failedWith s (s.complete r).errCode (s.complete r).errInfo := by
  cases r with
  | ok u => exact absurd rfl h
  | error e => rfl

/-! ### What a command's updates write (R93) -/

theorem exists_of_map_eq_ok {α β : Type} {x : Checked α} {f : α → β} {b : β} (h : x.map f = .ok b) : ∃ a, f a = b := by
  cases x with
  | ok a => exact ⟨a, Except.ok.inj h⟩
  | error e => cases h

theorem exists_of_bind_eq_ok {α β : Type} {x : Checked α} {f : α → Checked β} {b : β} (h : x.bind f = .ok b) :
    ∃ a, f a = .ok b := by
  cases x with
  | ok a => exact ⟨a, h⟩
  | error e => cases h

/-- The updates hold new contents for the destinations of the command and for nothing else. -/
structure Updates.For (u : Updates) (i : Instr) : Prop where
  raw : u.raw.isSome = decide (.raw ∈ destinationsOf i)
  unit : u.unit.isSome = decide (.unit ∈ destinationsOf i)
  text : u.text.isSome = decide (.text ∈ destinationsOf i)
  fwd : u.fwd.isSome = decide (i = .buildAlphabet ∨ i = .loadStdAlphabet)

theorem Updates.For.get_isSome {u : Updates} {i : Instr} (h : u.For i) (a : Arr) :
    (u.get a).isSome = decide (a ∈ destinationsOf i) := by
  cases a with
  | stage => cases i <;> rfl
  | raw => exact h.raw
  | unit => exact h.unit
  | text => exact h.text

theorem Updates.For.exists_get {u : Updates} {i : Instr} (h : u.For i) {a : Arr} (ha : a ∈ destinationsOf i) :
    ∃ v, u.get a = some v :=
  Option.isSome_iff_exists.mp ((h.get_isSome a).trans (decide_eq_true ha))

theorem Updates.For.get_eq_none {u : Updates} {i : Instr} (h : u.For i) {a : Arr} (ha : a ∉ destinationsOf i) :
    u.get a = none := by
  simpa [ha] using h.get_isSome a

/-- A command's function that succeeds writes the destinations of its row of R93. -/
theorem commandResult_for {i : Instr} {s : State} {u : Updates} (h : commandResult i s = .ok u) : u.For i := by
  cases i with
  | nop =>
    cases h
    exact ⟨rfl, rfl, rfl, rfl⟩
  | pack =>
    rw [commandResult, packExec_eq] at h
    obtain ⟨b, rfl⟩ := exists_of_map_eq_ok h
    exact ⟨rfl, rfl, rfl, rfl⟩
  | unpack =>
    rw [commandResult, unpackExec_eq] at h
    obtain ⟨units, h⟩ := exists_of_bind_eq_ok h
    obtain ⟨b, rfl⟩ := exists_of_map_eq_ok h
    exact ⟨rfl, rfl, rfl, rfl⟩
  | toText =>
    rw [commandResult, toTextExec_eq] at h
    obtain ⟨units, h⟩ := exists_of_bind_eq_ok h
    obtain ⟨t, rfl⟩ := exists_of_map_eq_ok h
    exact ⟨rfl, rfl, rfl, rfl⟩
  | fromText =>
    rw [commandResult, fromTextExec_eq] at h
    obtain ⟨t, h⟩ := exists_of_bind_eq_ok h
    obtain ⟨units, rfl⟩ := exists_of_map_eq_ok h
    exact ⟨rfl, rfl, rfl, rfl⟩
  | encode =>
    rw [commandResult, encodeExec_eq] at h
    obtain ⟨b, h⟩ := exists_of_bind_eq_ok h
    obtain ⟨t, rfl⟩ := exists_of_map_eq_ok h
    exact ⟨rfl, rfl, rfl, rfl⟩
  | decode =>
    rw [commandResult, decodeExec_eq] at h
    obtain ⟨t, h⟩ := exists_of_bind_eq_ok h
    obtain ⟨units, h⟩ := exists_of_bind_eq_ok h
    obtain ⟨b, rfl⟩ := exists_of_map_eq_ok h
    exact ⟨rfl, rfl, rfl, rfl⟩
  | buildAlphabet =>
    rw [commandResult, buildAlphabetExec] at h
    split at h
    · cases h
    · split at h
      · cases h
      · cases h
        exact ⟨rfl, rfl, rfl, rfl⟩
  | loadStdAlphabet =>
    cases h
    exact ⟨rfl, rfl, rfl, rfl⟩

/-- The new contents of a command's updates are within their capacities (R120). -/
theorem commandResult_fits {i : Instr} {s : State} {u : Updates} (h : commandResult i s = .ok u) : u.Fits s.rawCap := by
  have hyields := commandResult_yields i s
  rw [h] at hyields
  exact hyields.fits

theorem Updates.Fits.le_window {u : Updates} {c : Config.RawCap} (h : u.Fits c) (a : Arr) (v : List Byte)
    (hv : u.get a = some v) : v.length ≤ a.window :=
  (h a v hv).trans (a.cap_le_window c)

/-- The source of a command is none of its destinations (R115). -/
theorem not_mem_destinationsOf {i : Instr} {a : Arr} (h : a ∈ sourcesOf i) : a ∉ destinationsOf i := by
  have hrow : ∀ a ∈ sourcesOf i, a ∉ destinationsOf i := by cases i <;> decide
  exact hrow a h

/-! ### What a command's function reads (R93, R117) -/

section
variable {i : Instr} {s s' : State}

theorem SameSources.cap_eq (h : SameSources i s s') (a : Arr) : s'.cap a = s.cap a := congrArg (Arr.cap · a) h.rawCap

/-- States with the same sources give a command the same operand, or the same LENGTH_OVERFLOW (R119). -/
theorem SameSources.source_eq (h : SameSources i s s') {a : Arr} (ha : a ∈ sourcesOf i) (hstage : a ≠ .stage) :
    s'.source a = s.source a := by
  have hlen := h.len a ha
  have hcap := h.cap_eq a
  rcases s.source_cases a with ⟨hfits, hsrc⟩ | ⟨hover, hsrc⟩
  · have hcount : s.readCount a = (s.len a).toNat := by rw [State.readCount, if_neg hstage, if_pos hfits]
    have hcontent : s'.content a = s.content a := by
      rw [State.content, State.content, hlen]
      exact State.slice_congr fun j hj => h.elem a ha j (hcount ▸ hj)
    rw [hsrc, State.source_ok (by rw [hlen, hcap]; exact hfits), hcontent]
  · rw [hsrc, State.source_overflow (by rw [hlen, hcap]; exact hover), hlen]

/-- BUILD_ALPHABET reads `ALPHA_LEN`, and STAGE only when that is 94 (R43, R130). -/
theorem SameSources.buildAlphabetExec_eq (h : SameSources .buildAlphabet s s') :
    buildAlphabetExec s' = buildAlphabetExec s := by
  have hstage : Arr.stage ∈ sourcesOf .buildAlphabet := List.mem_singleton_self _
  have hlen : s'.alphaLen = s.alphaLen := h.len .stage hstage
  rw [buildAlphabetExec, buildAlphabetExec, hlen]
  by_cases h94 : s.alphaLen = 94#32
  · have hcount : s.readCount .stage = 94 := by rw [State.readCount, if_pos rfl, if_pos h94]
    have helem (j : Nat) (hj : j < 94) : s'.elem .stage j = s.elem .stage j := h.elem .stage hstage j (hcount ▸ hj)
    have hslice : s'.slice .stage 0 Config.alphabetSize = s.slice .stage 0 Config.alphabetSize := State.slice_congr helem
    have htable : s'.stagedTable = s.stagedTable := by
      ext j hj
      simp only [State.stagedTable, Vector.getElem_ofFn, helem j hj]
    rw [hslice, htable]
  · have hsize : s.alphaLen ≠ BitVec.ofNat 32 Config.alphabetSize := h94
    rw [if_pos hsize, if_pos hsize]

/-- A command's function sees nothing but what its row of R93 lists, and the parameter (R112, R117). -/
theorem SameSources.commandResult_eq (h : SameSources i s s') : commandResult i s' = commandResult i s := by
  cases i with
  | nop => rfl
  | pack =>
    rw [commandResult, commandResult, packExec_eq, packExec_eq, h.source_eq (.head _) (by decide)]
  | unpack =>
    rw [commandResult, commandResult, unpackExec_eq, unpackExec_eq, h.source_eq (.head _) (by decide)]
  | toText =>
    rw [commandResult, commandResult, toTextExec_eq, toTextExec_eq, h.source_eq (.head _) (by decide), h.fwd (.inl rfl)]
  | fromText =>
    rw [commandResult, commandResult, fromTextExec_eq, fromTextExec_eq, h.source_eq (.head _) (by decide),
      h.rev (.inl rfl)]
  | encode =>
    rw [commandResult, commandResult, encodeExec_eq, encodeExec_eq, h.source_eq (.head _) (by decide), h.fwd (.inr rfl)]
  | decode =>
    rw [commandResult, commandResult, decodeExec_eq, decodeExec_eq, h.source_eq (.head _) (by decide), h.rev (.inr rfl)]
  | buildAlphabet => exact h.buildAlphabetExec_eq
  | loadStdAlphabet => rfl

end

/-! ### What a completion step shows of its result -/

/-- The code and `info` are the result's, whatever the state held (R111). -/
theorem State.complete_status_congr (s s' : State) (r : Checked Updates) :
    (s.complete r).errCode = (s'.complete r).errCode ∧ (s.complete r).errInfo = (s'.complete r).errInfo := by
  cases r <;> exact ⟨rfl, rfl⟩

/-- A destination's length and content after a success are the new content's, whatever the state held (R114). -/
theorem State.succeed_apply_get (s : State) {u : Updates} {c : Config.RawCap} (hfits : u.Fits c) {a : Arr} {v : List Byte}
    (hv : u.get a = some v) :
    (s.apply u).succeed.len a = BitVec.ofNat 32 v.length ∧ (s.apply u).succeed.content a = v := by
  rw [State.succeed_len, State.succeed_content, State.apply_len, hv]
  exact ⟨rfl, s.apply_content u a v hv hfits.le_window⟩

/-- An array without a new content keeps its length register and its backed bytes (R114). -/
theorem State.succeed_apply_get_none (s : State) {u : Updates} {c : Config.RawCap} (hfits : u.Fits c) {a : Arr}
    (hv : u.get a = none) :
    (s.apply u).succeed.len a = s.len a ∧ ∀ j, j < s.cap a → (s.apply u).succeed.elem a j = s.elem a j := by
  rw [State.succeed_len, State.apply_len, hv]
  exact ⟨rfl, fun j hj => s.apply_elem_other u a hv hfits.le_window j (hj.trans_le (a.cap_le_window _))⟩

/-- FWD and REV after a success with a new FWD are the update's, whatever the state held (R45). -/
theorem State.succeed_apply_tables (s : State) {u : Updates} {f : ForwardTable} (hf : u.fwd = some f) :
    (s.apply u).succeed.fwd = f ∧ (s.apply u).succeed.rev = inverseTable f := by
  rw [State.succeed_fwd, State.succeed_rev, State.apply_fwd, State.apply_rev, hf]
  exact ⟨rfl, rfl⟩

theorem State.succeed_apply_tables_none (s : State) {u : Updates} (hf : u.fwd = none) :
    (s.apply u).succeed.fwd = s.fwd ∧ (s.apply u).succeed.rev = s.rev := by
  rw [State.succeed_fwd, State.succeed_rev, State.apply_fwd, State.apply_rev, hf]
  exact ⟨rfl, rfl⟩

/-! ### A host step while a command is pending -/

/-- A statement that resets the block discards the pending command (R240, R242). -/
theorem State.perform_reset_busy (s : State) {st : HostStmt} (h : Machine.resets st = true) : (s.perform st).busy = false := by
  cases st with
  | wr a d =>
    obtain ⟨rfl, hd⟩ : a = 0x00010#18 ∧ d.getLsbD 0 = true := by simpa [Machine.resets] using h
    have hwrite : s.memWrite 0x00010#18 d = (s.writeReg .ctrl d, .okay) := s.memWrite_unprotected .ctrl d rfl
    rw [State.perform, State.hostWr_eq, hwrite, State.writeReg, if_pos hd]
    rfl
  | rd | bnz => cases h
  | resetPin => rfl

/-- While busy no command is accepted, so a host write leaves the latency alone unless it resets the block (R72). -/
theorem State.memWrite_delay (s : State) (a : HostAddr) (d : Word) (hbusy : s.busy = true)
    (hreset : Machine.resets (.wr a d) = false) : (s.memWrite a d).1.delay = s.delay := by
  rcases s.memWrite_busy_cases a d hbusy with h | h | ⟨rfl, hd, -⟩ | h | h | h
  · rw [h]
  · rw [h, State.setDropped_delay]
  · rw [Machine.resets, hd] at hreset
    cases hreset
  · rw [h, State.writeStatus_delay]
  · rw [h, State.writeIrqStatus_delay]
  · rw [h, State.writeIrqEnable_delay]

theorem State.perform_delay (s : State) (st : HostStmt) (hbusy : s.busy = true) (hreset : Machine.resets st = false) :
    (s.perform st).delay = s.delay := by
  cases st with
  | wr a d => exact s.memWrite_delay a d hbusy hreset
  | rd | bnz => rfl
  | resetPin => cases hreset

/-- The host does not change its own program. -/
theorem State.perform_prog (s : State) (st : HostStmt) : (s.perform st).host.prog = s.host.prog := by
  cases st with
  | wr a d => rw [State.perform, (s.hostWr_transaction a d).1, HostAgent.record_prog]
  | rd a name => rw [State.perform, (s.hostRd_transaction a name).1, HostAgent.record_prog, HostAgent.bind_prog]
  | bnz | resetPin => rfl

theorem HostAgent.mem_prog_of_current {h : HostAgent} {st : HostStmt} (hcur : h.current = some st) : st ∈ h.prog :=
  List.mem_of_getElem? hcur

/-- Everything a host step can do to a pending command: a reset discards it, or the command stays pending and is one host step
nearer to its completion (R79, R118, R242). -/
theorem State.hostStep_pending_cases (s : State) (hbusy : s.busy = true) (hturn : s.engineTurn = false) :
    ((∃ st ∈ s.host.prog, Machine.resets st = true) ∧ s.hostStep.busy = false) ∨
    (s.hostStep.busy = true ∧ s.hostStep.pending = s.pending ∧ s.hostStep.delay + 1 = s.delay ∧
      s.hostStep.host.prog = s.host.prog) := by
  obtain ⟨hdelay, hhost⟩ : s.delay ≠ 0 ∧ s.host.finished = false := by
    simpa [hbusy] using s.engineTurn_eq_false_iff.mp hturn
  rcases s.hostStep_cases with ⟨hfin, -⟩ | ⟨st, -, hcur, hstep⟩
  · rw [hhost] at hfin
    cases hfin
  · rw [hstep]
    cases hreset : Machine.resets st with
    | true => exact .inl ⟨⟨st, HostAgent.mem_prog_of_current hcur, hreset⟩, s.countDown.perform_reset_busy hreset⟩
    | false =>
      have hsame := s.countDown.perform_sameInputs st hbusy hreset
      have hleft : (s.countDown.perform st).delay = s.delay - 1 := s.countDown.perform_delay st hbusy hreset
      exact .inr ⟨hsame.busy.trans hbusy, hsame.pending, by omega, s.countDown.perform_prog st⟩

/-! ### Runs -/

theorem run_succ_of_next {M : Host.Core} {k : Nat} {s u : M.State} (h : M.step s = .next u) :
    M.run (k + 1) s = M.run k u := by
  rw [Host.Core.run, h]

/-- One step more at the end of a run. -/
theorem run_succ_of_run {M : Host.Core} {k : Nat} {s u t : M.State} (hrun : M.run k s = .next u)
    (hstep : M.step u = .next t) : M.run (k + 1) s = .next t := by
  induction k generalizing s with
  | zero =>
    cases hrun
    rw [run_succ_of_next hstep, Host.Core.run]
  | succ k ih =>
    cases hs : M.step s with
    | next s' =>
      rw [run_succ_of_next hs] at hrun ⊢
      exact ih hrun
    | fault r | refused r =>
      rw [Host.Core.run, hs] at hrun
      cases hrun

/-- Within its latency a pending command comes to its completion step, or a reset discards it (R118, R242). -/
theorem State.exists_run_engineTurn (s : State) (hbusy : s.busy = true) :
    ∃ (k : Nat) (u : State), k ≤ s.delay ∧ Host.Core.run Sys2Proof.core k s = .next u ∧
      (((∃ st ∈ s.host.prog, Machine.resets st = true) ∧ u.busy = false) ∨ (u.engineTurn = true ∧ u.pending = s.pending)) := by
  induction hn : s.delay generalizing s with
  | zero => exact ⟨0, s, le_refl 0, rfl, .inr ⟨s.engineTurn_iff.mpr ⟨hbusy, .inl hn⟩, rfl⟩⟩
  | succ n ih =>
    cases hturn : s.engineTurn with
    | true => exact ⟨0, s, Nat.zero_le _, rfl, .inr ⟨hturn, rfl⟩⟩
    | false =>
      have hrun (k : Nat) : Host.Core.run Sys2Proof.core (k + 1) s = Host.Core.run Sys2Proof.core k s.hostStep :=
        run_succ_of_next (M := Sys2Proof.core) (step_of_hostTurn hturn)
      rcases s.hostStep_pending_cases hbusy hturn with hreset | ⟨hbusy', hpending, hdelay, hprog⟩
      · exact ⟨1, s.hostStep, by omega, hrun 0, .inl hreset⟩
      · obtain ⟨k, u, hk, hu, hend⟩ := ih s.hostStep hbusy' (by omega)
        rw [hprog, hpending] at hend
        exact ⟨k + 1, u, by omega, (hrun k).trans hu, hend⟩

/-- At the engine's turn the completion step ends the run, with `BUSY` cleared and `DONE` set (R111, R116). -/
theorem State.run_engineStep {k : Nat} {s u : State} (hrun : Host.Core.run Sys2Proof.core k s = .next u)
    (hturn : u.engineTurn = true) : ∃ t, u.engineStep = .next t ∧
      Host.Core.run Sys2Proof.core (k + 1) s = .next t ∧ t.busy = false ∧ t.irqDone = true := by
  obtain ⟨r, hr⟩ := u.exists_engineStep_eq_complete
  have hstep : step u = .next (u.complete r) := (step_of_engineTurn hturn).trans hr
  exact ⟨u.complete r, hr, run_succ_of_run (M := Sys2Proof.core) hrun hstep, u.complete_busy r, u.complete_irqDone r⟩

/-! ### The obligations -/

/-- Settles O8, field by field: the engine's step is a completion step. -/
theorem completionWritesStatus : Obligations.CompletionWritesStatus := by
  intro s
  obtain ⟨r, hr⟩ := s.exists_engineStep_eq_complete
  exact ⟨s.complete r, hr, s.complete_busy r, s.complete_irqDone r, s.complete_irqError_iff r, State.err_iff _,
    State.complete_errInfo_of_ok, s.complete_dropped r, s.complete_lastOp r, s.complete_doneEn r, s.complete_errorEn r, rfl⟩

/-- Settles O9: a command's `exec` and the engine's step are both completion steps. -/
theorem failingCommandWritesOnlyStatus : Obligations.FailingCommandWritesOnlyStatus := by
  refine ⟨fun i s t hexec hfail => ?_, fun s t hengine hfail => ?_⟩
  · cases exec_next hexec
    exact State.complete_eq_failedWith hfail
  · obtain ⟨r, hr⟩ := s.exists_engineStep_eq_complete
    cases hr.symm.trans hengine
    exact State.complete_eq_failedWith hfail

/-- Settles O10: a failure writes no array, length or table, and a success only the destinations, of which no source is one. -/
theorem sourcesAreNotModified : Obligations.SourcesAreNotModified := by
  intro i s t hexec
  cases exec_next hexec
  rcases s.complete_cases (commandResult i s) with ⟨u, hu, hdone⟩ | ⟨e, -, hdone⟩
  · rw [hdone]
    have hfor := commandResult_for hu
    refine ⟨fun a ha => s.succeed_apply_get_none (commandResult_fits hu) (hfor.get_eq_none (not_mem_destinationsOf ha)),
      fun hbuild hload => s.succeed_apply_tables_none ?_⟩
    simpa [hbuild, hload] using hfor.fwd
  · rw [hdone]
    exact ⟨fun a _ => ⟨s.fail_len e a, fun _ _ => rfl⟩, fun _ _ => ⟨rfl, rfl⟩⟩

/-- Settles O11: the command's function gives both states one result, and the completion shows that result alone. -/
theorem resultsDependOnSourcesOnly : Obligations.ResultsDependOnSourcesOnly := by
  intro i s s' t t' hsame hexec hexec'
  cases exec_next hexec
  cases exec_next hexec'
  rw [hsame.commandResult_eq]
  obtain ⟨hcode, hinfo⟩ := s.complete_status_congr s' (commandResult i s)
  refine ⟨hcode, hinfo, fun hok => ?_⟩
  obtain ⟨u, hu, -⟩ := State.complete_errCode_zero hok
  have hfor := commandResult_for hu
  rw [hu, State.complete_ok, State.complete_ok]
  refine ⟨fun a ha => ?_, fun halphabet => ?_⟩
  · obtain ⟨v, hv⟩ := hfor.exists_get ha
    obtain ⟨hlen, hcontent⟩ := s.succeed_apply_get (commandResult_fits hu) hv
    obtain ⟨hlen', hcontent'⟩ := s'.succeed_apply_get (commandResult_fits hu) hv
    exact ⟨hlen.trans hlen'.symm, hcontent.trans hcontent'.symm⟩
  · obtain ⟨f, hf⟩ := Option.isSome_iff_exists.mp (hfor.fwd.trans (decide_eq_true halphabet))
    obtain ⟨hfwd, hrev⟩ := s.succeed_apply_tables hf
    obtain ⟨hfwd', hrev'⟩ := s'.succeed_apply_tables hf
    exact ⟨hfwd.trans hfwd'.symm, hrev.trans hrev'.symm⟩

/-- Settles O14: a destination's length register is the length of its new content, which fits. -/
theorem destinationsNeverOverflow : Obligations.DestinationsNeverOverflow := by
  intro i s t hexec hok d hd
  cases exec_next hexec
  obtain ⟨u, hu, hdone⟩ := State.complete_errCode_zero hok
  obtain ⟨v, hv⟩ := (commandResult_for hu).exists_get hd
  have hfits := commandResult_fits hu
  rw [hdone, (s.succeed_apply_get hfits hv).1, BitVec.toNat_ofNat]
  exact (Nat.mod_le _ _).trans (hfits d v hv)

/-- Settles O15: the run to the completion step, then that step, unless a reset came first. -/
theorem pendingCommandCompletes : Obligations.PendingCommandCompletes := by
  intro s hbusy
  obtain ⟨k, u, hk, hrun, hend⟩ := s.exists_run_engineTurn hbusy
  rcases hend with ⟨⟨st, hst, hreset⟩, hidle⟩ | ⟨hturn, hpending⟩
  · refine ⟨⟨k, u, by omega, hrun, hidle⟩, fun hnone => ?_⟩
    rw [hnone st hst] at hreset
    cases hreset
  · obtain ⟨t, hengine, hrun', hdone⟩ := State.run_engineStep hrun hturn
    exact ⟨⟨k + 1, t, by omega, hrun', hdone.1⟩,
      fun _ => ⟨k, u, t, hk, hrun, (u.engineTurn_iff.mp hturn).1, hpending, hengine, hrun', hdone⟩⟩

/-- Settles O7: `CMD` is a protected register whose write, when it is not dropped, is the acceptance. -/
theorem commandWriteAccepts : Obligations.CommandWriteAccepts :=
  ⟨fun s w hidle => ⟨s.nextLatency, s.draws + 1, s.latencies.tail, s.memWrite_idle_reg .cmd w hidle⟩,
    fun s w hbusy => s.memWrite_protected .cmd w hbusy rfl⟩

end Sys2Proof.Machine

/-! PROOFS. The family `41_alphabet`: BUILD_ALPHABET (R130) and LOAD_STD_ALPHABET (R131). What a completion step makes of a new
FWD alone, and when the symbol check passes, come first, then the obligations.
-/

namespace Sys2Proof.Machine

/-! ### New tables alone -/

/-- A command that yields a new FWD alone replaces both tables, and changes nothing else but the status (R45, R111). -/
theorem exec_of_newTable {i : Instr} {s : State} {f : ForwardTable} (h : commandResult i s = .ok { fwd := some f }) :
    ∃ t, exec i s = .next t ∧ t = succeededWith { s with fwd := t.fwd, rev := t.rev } ∧
      t.fwd = f ∧ t.rev = inverseTable f := by
  rw [exec_eq, h]
  exact ⟨_, rfl, rfl, rfl, rfl⟩

/-! ### The symbol check -/

theorem not_symbolFault_iff (st : Nat → Byte) (i : Nat) :
    ¬ SymbolFault st i ↔ (i < 94 → 33 ≤ (st i).toNat ∧ (st i).toNat ≤ 126 ∧ ∀ j, j < i → st j ≠ st i) := by
  simp [SymbolFault]

theorem State.nth_stage (s : State) (k : Nat) (hk : k < Config.alphabetSize) :
    nth (s.slice .stage 0 Config.alphabetSize) k = s.elem .stage k := by
  rw [nth, List.getD_eq_getElem?_getD, State.slice_getElem? s .stage 0 _ k hk, Nat.zero_add, Option.getD_some]

/-- The symbol check passes exactly when no staged symbol is at fault (R130, R203). -/
theorem State.firstBadSymbol_stage_eq_none_iff (s : State) :
    firstBadSymbol 0 [] (s.slice .stage 0 Config.alphabetSize) = none ↔ ∀ i, ¬ SymbolFault (s.elem .stage) i := by
  rw [firstBadSymbol_eq_none, State.slice_length]
  refine forall_congr' fun k => ?_
  rw [not_symbolFault_iff]
  refine forall_congr' fun hk => ?_
  have hearlier : (∀ j, j < k → nth (s.slice .stage 0 Config.alphabetSize) j ≠ s.elem .stage k) ↔
      ∀ j, j < k → s.elem .stage j ≠ s.elem .stage k :=
    forall₂_congr fun j hj => by rw [s.nth_stage j (hj.trans hk)]
  rw [s.nth_stage k hk, hearlier]
  simp

/-- BUILD_ALPHABET of a staged alphabet without a fault yields its codes as the new FWD (R130). -/
theorem buildAlphabetExec_ok {s : State} (hlen : s.alphaLen = 94#32)
    (hgood : firstBadSymbol 0 [] (s.slice .stage 0 Config.alphabetSize) = none) :
    buildAlphabetExec s = .ok { fwd := some s.stagedTable } := by
  have hsize : ¬ s.alphaLen ≠ BitVec.ofNat 32 Config.alphabetSize := not_not_intro hlen
  rw [buildAlphabetExec, if_neg hsize, hgood]

/-- A staged symbol up to 126 is its 7-bit code, read back as a byte (R42, R44). -/
theorem State.symbolAt_stagedTable (s : State) (i : Fin 94) (h : (s.elem .stage i.val).toNat ≤ 126) :
    symbolAt s.stagedTable i = s.elem .stage i.val := by
  apply BitVec.eq_of_toNat_eq
  rw [symbolAt, BitVec.toNat_setWidth, s.stagedTable_toNat i h]
  exact Nat.mod_eq_of_lt (by omega)

/-! ### The obligations -/

/-- Settles O24: the symbol check passes, so the command yields the staged codes as the new FWD. -/
theorem buildAlphabetCompletes : Obligations.BuildAlphabetCompletes := by
  intro s hlen hfault
  have hgood := s.firstBadSymbol_stage_eq_none_iff.mpr hfault
  obtain ⟨t, hexec, hframe, hfwd, hrev⟩ := exec_of_newTable (i := .buildAlphabet) (buildAlphabetExec_ok hlen hgood)
  refine ⟨t, hexec, hframe, fun i => ?_, ?_⟩
  · obtain ⟨-, hhi, -⟩ := (not_symbolFault_iff _ _).mp (hfault i.val) i.isLt
    rw [hfwd, s.symbolAt_stagedTable i hhi]
  · rw [hfwd, hrev]
    exact s.alphabetOk_stagedTable hgood

/-- Settles O25: the command yields the standard alphabet as the new FWD in every state, and a reset starts with the same. -/
theorem loadStdAlphabetCompletes : Obligations.LoadStdAlphabetCompletes := by
  intro s
  obtain ⟨t, hexec, hframe, hfwd, hrev⟩ := exec_of_newTable (i := .loadStdAlphabet) (s := s) rfl
  refine ⟨t, hexec, ?_, ?_, hfwd, hrev⟩
  · rwa [hfwd] at hframe
  · rw [hfwd, hrev]
    exact alphabetOk_stdTable

end Sys2Proof.Machine

/-! PROOFS. The family `42_transcoder`: the lengths and the geometry (R140 to R151, R159, R160), what PACK emits (R144, R145), the
stream UNPACK builds (R153), UNPACK's checks as faults (R152, R154), and that PACK and UNPACK are inverse (R158). Both directions
of the last turn on one reading of the tail, as a value of the last two bytes or units; the obligations come at the end.
-/

namespace Sys2Proof.Machine

/-! ### The geometry of a unit buffer (R149 to R151) -/

/-- One tail unit: the fewest bytes that hold the pairs' bits (R149). -/
theorem geometry_odd (g : Nat) : geometry (2 * g + 1) =
    { tailLen := 1, groups := g, numbits := 13 * g, outLen := (13 * g + 7) / 8,
      tailBits := 8 * ((13 * g + 7) / 8) - 13 * g } := by
  have hlen : (2 * g + 1) % 2 = 1 := by omega
  have hout : (if 13 * g % 8 = 0 then 13 * g / 8 else 13 * g / 8 + 1) = (13 * g + 7) / 8 := by split <;> omega
  simp [geometry, hlen, hout]

/-- Two tail units: the most bytes whose last bits, past the pairs', are at most 12 (R149). -/
theorem geometry_even (g : Nat) : geometry (2 * g + 2) =
    { tailLen := 2, groups := g, numbits := 13 * g, outLen := (13 * g + 12) / 8,
      tailBits := 8 * ((13 * g + 12) / 8) - 13 * g } := by
  have hout : (if 4 ≤ 13 * g % 8 then 13 * g / 8 + 1 + 1 else 13 * g / 8 + 1) = (13 * g + 12) / 8 := by
    split <;> omega
  simp [geometry, hout]

/-- `Geometry(UnitLen(N))` gives back `N` (R150). -/
theorem geometry_unitLength {n : Nat} (h : 1 ≤ n) : geometry (unitLength n) =
    { tailLen := if 8 * n % 13 ≤ 6 then 1 else 2, groups := 8 * n / 13, numbits := 13 * (8 * n / 13),
      outLen := n, tailBits := 8 * n % 13 } := by
  rw [unitLength_pos n h]
  by_cases hm : 8 * n % 13 ≤ 6
  · rw [if_pos hm, geometry_odd, UnpackGeometry.mk.injEq]
    omega
  · rw [if_neg hm, geometry_even, UnpackGeometry.mk.injEq]
    omega

/-- The valid lengths are those of packs (R151). -/
theorem lengthValid_geometry_iff {len : Nat} (hpos : 1 ≤ len) :
    lengthValid (geometry len) = true ↔ ∃ n, 1 ≤ n ∧ len = unitLength n := by
  refine ⟨fun h => ⟨(geometry len).outLen, ?_, (unitLength_outLen (by omega) h).symm⟩, ?_⟩
  · exact ((lengthValid_iff _).mp h).1
  · rintro ⟨n, hn, rfl⟩
    rw [geometry_unitLength hn, lengthValid_iff]
    dsimp only
    split <;> omega

/-- A length above 0 is one tail unit or two after its pairs (R149). -/
theorem exists_pairs_tail {len : Nat} (hpos : 1 ≤ len) : ∃ g, len = 2 * g + 1 ∨ len = 2 * g + 2 :=
  ⟨(len - 1) / 2, by omega⟩

/-- A length of one tail unit is malformed when it has no pair, or 5 pairs mod 8 (R151, R160). -/
theorem lengthValid_odd_eq_false_iff (g : Nat) :
    lengthValid (geometry (2 * g + 1)) = false ↔ g = 0 ∨ g % 8 = 5 := by
  rw [← Bool.not_eq_true, lengthValid_iff, geometry_odd]
  dsimp only
  omega

/-- A length of two tail units is malformed when it has 2 or 7 pairs mod 8 (R151, R160). -/
theorem lengthValid_even_eq_false_iff (g : Nat) :
    lengthValid (geometry (2 * g + 2)) = false ↔ g % 8 = 2 ∨ g % 8 = 7 := by
  obtain ⟨p, r, hr, rfl⟩ : ∃ p r, r < 8 ∧ g = 8 * p + r := ⟨g / 8, g % 8, by omega, by omega⟩
  rw [← Bool.not_eq_true, lengthValid_iff, geometry_even]
  dsimp only
  interval_cases r <;> omega

/-! ### Bands and residues (R140, R142) -/

theorem bandOf_of_le_six {m : Nat} (h : 1 ≤ m) (h' : m ≤ 6) : bandOf m = .b := by
  rw [bandOf, if_neg (by omega), if_pos h']

theorem bandOf_of_le_eight {m : Nat} (h : 7 ≤ m) (h' : m ≤ 8) : bandOf m = .c := by
  rw [bandOf, if_neg (by omega), if_neg (by omega), if_pos h']

theorem bandOf_of_nine_le {m : Nat} (h : 9 ≤ m) : bandOf m = .d := by
  rw [bandOf, if_neg (by omega), if_neg (by omega), if_neg (by omega)]

/-- `UnitLen` by its number of pairs, 0 bytes included (R143, R161). -/
theorem unitLength_cases (n : Nat) : (n = 0 ∧ unitLength n = 0) ∨
    (1 ≤ n ∧ residue n ≤ 6 ∧ unitLength n = 2 * groupCount n + 1) ∨
    (1 ≤ n ∧ 7 ≤ residue n ∧ unitLength n = 2 * groupCount n + 2) := by
  unfold unitLength
  split_ifs <;> omega

/-- The pairs' bits and the residue's are the buffer's (R140). -/
theorem groupCount_residue (n : Nat) : 13 * groupCount n + residue n = 8 * n ∧ residue n < 13 :=
  ⟨Nat.div_add_mod _ _, Nat.mod_lt _ (by decide)⟩

/-! ### Bits of a stream and of a value -/

/-- Adding a byte below a value: its bits, then the value's. -/
theorem testBit_mul_256_add (v : Nat) (x : Byte) (i : Nat) :
    (v * 256 + x.toNat).testBit i = if i < 8 then x.getLsbD i else v.testBit (i - 8) := by
  rw [Nat.mul_comm]
  exact Nat.testBit_two_pow_mul_add v x.isLt i

/-- A value is the low `w` bits of another exactly when it has no more bits and has those. -/
theorem mod_two_pow_eq_iff (v a w : Nat) : v % 2 ^ w = a ↔ a < 2 ^ w ∧ ∀ i, i < w → a.testBit i = v.testBit i := by
  constructor
  · rintro rfl
    refine ⟨Nat.mod_lt _ (Nat.two_pow_pos w), fun i hi => ?_⟩
    rw [Nat.testBit_mod_two_pow, decide_eq_true hi, Bool.true_and]
  · rintro ⟨hlt, hbits⟩
    apply Nat.eq_of_testBit_eq
    intro i
    rw [Nat.testBit_mod_two_pow]
    by_cases hi : i < w
    · rw [decide_eq_true hi, Bool.true_and, hbits i hi]
    · rw [decide_eq_false hi, Bool.false_and,
        Nat.testBit_lt_two_pow (hlt.trans_le (Nat.pow_le_pow_right (by decide) (not_lt.mp hi)))]

/-- The value of bits given one by one: the first has the highest weight (R15). -/
theorem valueOf_map_range (w : Nat) (f : Nat → Bool) :
    valueOf ((List.range w).map f) = ((List.range w).map fun j => (f j).toNat * 2 ^ (w - 1 - j)).sum := by
  induction w with
  | zero => rfl
  | succ w ih =>
    have hweight : ((List.range w).map fun j => (f j).toNat * 2 ^ (w + 1 - 1 - j)) =
        (List.range w).map fun j => 2 * ((f j).toNat * 2 ^ (w - 1 - j)) := by
      refine List.map_congr_left fun j hj => ?_
      rw [List.mem_range] at hj
      rw [show w + 1 - 1 - j = (w - 1 - j) + 1 by omega, Nat.pow_succ]
      ring
    rw [List.range_succ, List.map_append, List.map_append, List.map_singleton, List.map_singleton, List.sum_append,
      valueOf_append_singleton, ih, hweight, List.sum_map_mul_left]
    simp

/-- A cut of the stream is the spec's bits one by one. -/
theorem bitStream_drop_take (b : List Byte) {p w : Nat} (h : p + w ≤ 8 * b.length) :
    ((bitStream b).drop p).take w = (List.range w).map fun j => streamBit b (p + j) := by
  apply List.ext_getElem?
  intro j
  by_cases hj : j < w
  · rw [List.getElem?_take_of_lt hj, List.getElem?_drop, bitStream_getElem? b _ (by omega)]
    simp [hj]
  · rw [List.getElem?_eq_none (by simp; omega), List.getElem?_eq_none (by simpa using hj)]

/-! ### PACK's groups -/

/-- The groups of `b` are within its stream (R140). -/
theorem group_le {n k : Nat} (h : k < groupCount n) : 13 * k + 13 ≤ 8 * n := by
  have := groupCount_residue n
  omega

/-- The spec's sum is the value of the 13 stream bits (R144). -/
theorem groupSum_eq_valueOf (b : List Byte) (k : Nat) :
    groupSum b k = valueOf ((List.range 13).map fun j => streamBit b (13 * k + j)) :=
  (valueOf_map_range 13 _).symm

/-- The value PACK cuts is the spec's sum (R144). -/
theorem valueOf_group (b : List Byte) {k : Nat} (h : k < groupCount b.length) :
    valueOf (((bitStream b).drop (13 * k)).take 13) = groupSum b k := by
  rw [bitStream_drop_take b (group_le h), groupSum_eq_valueOf]

/-- A group value has 13 bits (R144). -/
theorem groupSum_lt (b : List Byte) (k : Nat) : groupSum b k < 2 ^ 13 := by
  simpa [← groupSum_eq_valueOf] using valueOf_lt ((List.range 13).map fun j => streamBit b (13 * k + j))

/-- A group's first stream bit is its value's bit 12 (R144). -/
theorem groupSum_testBit (b : List Byte) (k : Nat) {j : Nat} (h : j < 13) :
    (groupSum b k).testBit (12 - j) = streamBit b (13 * k + j) := by
  have hbit := getElem?_eq_testBit_valueOf ((List.range 13).map fun j => streamBit b (13 * k + j)) j (by simpa using h)
  rw [← groupSum_eq_valueOf] at hbit
  simpa [h] using hbit.symm

/-- Bit `i` of the three bytes from `q` on, as one value, is stream bit `23 - i` from byte `q` on. -/
theorem threeBytes_testBit (b : List Byte) (q : Nat) {i : Nat} (h : i < 24) :
    ((nth b q).toNat * 2 ^ 16 + (nth b (q + 1)).toNat * 2 ^ 8 + (nth b (q + 2)).toNat).testBit i =
      streamBit b (8 * q + (23 - i)) := by
  have hbytes : (nth b q).toNat * 2 ^ 16 + (nth b (q + 1)).toNat * 2 ^ 8 + (nth b (q + 2)).toNat =
      ((nth b q).toNat * 256 + (nth b (q + 1)).toNat) * 256 + (nth b (q + 2)).toNat := by omega
  rw [hbytes, testBit_mul_256_add, testBit_mul_256_add, streamBit]
  split_ifs with h8 h16
  · rw [show (8 * q + (23 - i)) / 8 = q + 2 by omega, show 7 - (8 * q + (23 - i)) % 8 = i by omega]
  · rw [show (8 * q + (23 - i)) / 8 = q + 1 by omega, show 7 - (8 * q + (23 - i)) % 8 = i - 8 by omega]
  · rw [show (8 * q + (23 - i)) / 8 = q by omega, show 7 - (8 * q + (23 - i)) % 8 = i - 8 - 8 by omega]
    rfl

/-- The window form is the sum form: it cuts the 13 bits that the sum weighs (R144). -/
theorem groupWindow_eq_groupSum (b : List Byte) (k : Nat) : groupWindow b k = groupSum b k := by
  refine (mod_two_pow_eq_iff _ _ 13).mpr ⟨groupSum_lt b k, fun i hi => ?_⟩
  have hbit := groupSum_testBit b k (j := 12 - i) (by omega)
  rw [show 12 - (12 - i) = i by omega] at hbit
  rw [hbit, Nat.testBit_div_two_pow, threeBytes_testBit b _ (by omega)]
  congr 1
  omega

/-- The groups PACK cuts. -/
def packGroups (b : List Byte) : List Nat := chunks 13 (groupCount b.length) (bitStream b)

@[simp] theorem packGroups_length (b : List Byte) : (packGroups b).length = groupCount b.length := chunks_length _ _ _

theorem packGroups_lt (b : List Byte) : ∀ v ∈ packGroups b, v < 2 ^ 13 := by
  refine chunks_lt 13 _ _ ?_
  rw [bitStream_length, ← (groupCount_residue b.length).1]
  exact Nat.le_add_right _ _

theorem packGroups_getElem? (b : List Byte) {k : Nat} (h : k < groupCount b.length) :
    (packGroups b)[k]? = some (groupSum b k) := by
  rw [packGroups, chunks_getElem? _ _ _ _ h, valueOf_group b h]

/-- PACK of a buffer that is not empty: the groups' pairs, then the tail (R147). -/
theorem packUnits_eq {b : List Byte} (h : b.length ≠ 0) : packUnits b = (packGroups b).flatMap groupPair ++ packTail b :=
  if_neg h

/-- The units `2k` and `2k+1` are value `k`'s pair. -/
theorem flatMap_groupPair_getElem? (vs : List Nat) {k v : Nat} (h : vs[k]? = some v) :
    (vs.flatMap groupPair)[2 * k]? = some (BitVec.ofNat 8 (v / 256)) ∧
    (vs.flatMap groupPair)[2 * k + 1]? = some (BitVec.ofNat 8 (v % 256)) := by
  induction vs generalizing k with
  | nil => cases h
  | cons x vs ih =>
    cases k with
    | zero =>
      cases h
      exact ⟨rfl, rfl⟩
    | succ k => exact ih h

/-- PACK's pair `k` is group `k`'s (R144). -/
theorem packUnits_getElem?_pair (b : List Byte) {k : Nat} (h : k < groupCount b.length) :
    (packUnits b)[2 * k]? = some (BitVec.ofNat 8 (groupSum b k / 256)) ∧
    (packUnits b)[2 * k + 1]? = some (BitVec.ofNat 8 (groupSum b k % 256)) := by
  have hbits := group_le h
  obtain ⟨hhigh, hlow⟩ := flatMap_groupPair_getElem? _ (packGroups_getElem? b h)
  have hlen : ((packGroups b).flatMap groupPair).length = 2 * groupCount b.length := by
    rw [flatMap_groupPair_length, packGroups_length]
  rw [packUnits_eq (by omega), List.getElem?_append_left (by omega), List.getElem?_append_left (by omega)]
  exact ⟨hhigh, hlow⟩

/-! ### PACK's tail -/

/-- The tail follows the pairs (R147). -/
theorem packUnits_drop {b : List Byte} (h : b.length ≠ 0) :
    (packUnits b).drop (2 * groupCount b.length) = packTail b := by
  rw [packUnits_eq h, List.drop_left' (by rw [flatMap_groupPair_length, packGroups_length])]

/-- The low `k` bits of a byte, by a mask (R145). -/
theorem and_mask_eq_ofNat (x : Byte) {k : Nat} (h : k ≤ 8) :
    x &&& BitVec.ofNat 8 (2 ^ k - 1) = BitVec.ofNat 8 (x.toNat % 2 ^ k) := by
  have hpow : 2 ^ k ≤ 2 ^ 8 := Nat.pow_le_pow_right (by decide) h
  apply BitVec.eq_of_toNat_eq
  rw [BitVec.toNat_and, BitVec.toNat_ofNat, BitVec.toNat_ofNat, Nat.mod_eq_of_lt (a := 2 ^ k - 1) (by omega),
    Nat.and_two_pow_sub_one_eq_mod, Nat.mod_eq_of_lt (b := 2 ^ 8)]
  exact (Nat.mod_lt _ (Nat.two_pow_pos k)).trans_le hpow

section
variable {b : List Byte}

/-- Band A (R145). -/
theorem packTail_of_residue_zero (h : residue b.length = 0) : packTail b = [0x00#8] := by
  rw [packTail, h]
  rfl

/-- Band B (R145). -/
theorem packTail_of_residue_le_six (h : 1 ≤ residue b.length) (h' : residue b.length ≤ 6) :
    packTail b = [BitVec.ofNat 8 ((nth b (b.length - 1)).toNat % 2 ^ 6)] := by
  rw [packTail, bandOf_of_le_six h h']
  exact congrArg ([·]) (and_mask_eq_ofNat _ (k := 6) (by decide))

/-- Band C (R145). -/
theorem packTail_of_residue_le_eight (h : 7 ≤ residue b.length) (h' : residue b.length ≤ 8) :
    packTail b = [0x00#8, nth b (b.length - 1)] := by
  rw [packTail, bandOf_of_le_eight h h']

/-- Band D (R145). -/
theorem packTail_of_nine_le_residue (h : 9 ≤ residue b.length) :
    packTail b = [BitVec.ofNat 8 ((nth b (b.length - 2)).toNat % 2 ^ 4), nth b (b.length - 1)] := by
  rw [packTail, bandOf_of_nine_le h]
  exact congrArg ([·, _]) (and_mask_eq_ofNat _ (k := 4) (by decide))

end

/-! ### The stream UNPACK builds -/

/-- Bit `j` of value `k`'s `w` bits. -/
theorem flatMap_bitsOf_getElem? (w : Nat) (vs : List Nat) {k v j : Nat} (hk : vs[k]? = some v) (hj : j < w) :
    (vs.flatMap (bitsOf w))[w * k + j]? = some (v.testBit (w - 1 - j)) := by
  induction vs generalizing k with
  | nil => cases hk
  | cons x vs ih =>
    rw [List.flatMap_cons]
    cases k with
    | zero =>
      cases hk
      rw [Nat.mul_zero, Nat.zero_add, List.getElem?_append_left (by simpa using hj), bitsOf_getElem? _ _ _ hj]
    | succ k =>
      rw [Nat.mul_succ, List.getElem?_append_right (by simp; omega), bitsOf_length,
        show w * k + w + j - w = w * k + j by omega]
      exact ih hk

theorem flatMap_bitsOf_length (w : Nat) (vs : List Nat) : (vs.flatMap (bitsOf w)).length = w * vs.length := by
  simp [Nat.mul_comm]

/-- Two values have the same low `w` bits, written out, exactly when they have the same bits below `w`. -/
theorem bitsOf_eq_iff (w v v' : Nat) : bitsOf w v = bitsOf w v' ↔ ∀ i, i < w → v.testBit i = v'.testBit i := by
  simp only [bitsOf, List.map_inj_left, List.mem_range]
  refine ⟨fun h i hi => ?_, fun h j hj => h _ (by omega)⟩
  have hbit := h (w - 1 - i) (by omega)
  rwa [show w - 1 - (w - 1 - i) = i by omega] at hbit

/-- The last two elements of a buffer as one value, the first the more significant. -/
def lastTwo (b : List Byte) : Nat := (nth b (b.length - 2)).toNat * 256 + (nth b (b.length - 1)).toNat

theorem lastTwo_testBit (b : List Byte) (i : Nat) : (lastTwo b).testBit i =
    if i < 8 then (nth b (b.length - 1)).getLsbD i else (nth b (b.length - 2)).getLsbD (i - 8) :=
  testBit_mul_256_add _ _ i

/-- The last bits of the stream, the last one first, are the low bits of the last two bytes. -/
theorem streamBit_eq_lastTwo_testBit (b : List Byte) {s i : Nat} (h : s + i + 1 = 8 * b.length) (hi : i < 16) :
    streamBit b s = (lastTwo b).testBit i := by
  rw [lastTwo_testBit, streamBit]
  split_ifs with hlow
  · rw [show s / 8 = b.length - 1 by omega, show 7 - s % 8 = i by omega]
  · rw [show s / 8 = b.length - 2 by omega, show 7 - s % 8 = i - 8 by omega]

/-- The tail bits are the low bits of the last two units, in every band (R153). -/
theorem tailValue_testBit {q : UnpackGeometry} {u : List Byte} {i : Nat} (hi : i < q.tailBits) :
    (tailValue q u).testBit i = (lastTwo u).testBit i := by
  have hfield (hm : q.tailBits ≤ 8) :
      (field (nth u (u.length - 1)) (q.tailBits - 1) 0).testBit i = (lastTwo u).testBit i := by
    rw [field_testBit, decide_eq_true (by omega), Bool.true_and, lastTwo_testBit, if_pos (by omega)]
    rfl
  unfold tailValue
  dsimp only
  rcases bandOf_cases q.tailBits with ⟨hm, hband⟩ | ⟨-, hm, hband⟩ | ⟨-, hm, hband⟩ | ⟨hm, hband⟩ <;>
    rw [hband] <;> dsimp only
  · omega
  · exact hfield (by omega)
  · exact hfield hm
  · rw [testBit_mul_256_add, lastTwo_testBit, field_testBit]
    split
    · rfl
    · rw [decide_eq_true (by omega), Bool.true_and, Nat.add_zero]

section
variable {n : Nat} {u : List Byte}

/-! The quantities of the geometry, and the stream, of a buffer with the length of a pack of `n` bytes. -/

theorem geometry_groups (hn : 1 ≤ n) (hu : u.length = unitLength n) :
    (geometry u.length).groups = groupCount n := by
  rw [hu, geometry_unitLength hn]
  rfl

theorem geometry_tailBits (hn : 1 ≤ n) (hu : u.length = unitLength n) : (geometry u.length).tailBits = residue n := by
  rw [hu, geometry_unitLength hn]
  rfl

theorem geometry_outLen (hn : 1 ≤ n) (hu : u.length = unitLength n) : (geometry u.length).outLen = n := by
  rw [hu, geometry_unitLength hn]

theorem two_mul_groupCount_le (hu : u.length = unitLength n) : 2 * groupCount n ≤ u.length := by
  have := unitLength_cases n
  have := groupCount_residue n
  omega

/-- The output stream: the pairs' bits, then the low bits of the last two units (R153). -/
theorem unpackStream_eq (hn : 1 ≤ n) (hu : u.length = unitLength n) : unpackStream (geometry u.length) u =
    (groupValues (groupCount n) u).flatMap (bitsOf 13) ++ bitsOf (residue n) (lastTwo u) := by
  rw [unpackStream, (bitsOf_eq_iff _ _ _).mpr fun _ => tailValue_testBit, geometry_groups hn hu,
    geometry_tailBits hn hu]

theorem groupValues_length (hu : u.length = unitLength n) :
    (groupValues (groupCount n) u).length = groupCount n :=
  (groupValues_spec _ u (two_mul_groupCount_le hu)).1

theorem unpackStream_length (hn : 1 ≤ n) (hu : u.length = unitLength n) :
    (unpackStream (geometry u.length) u).length = 8 * n := by
  rw [unpackStream_eq hn hu, List.length_append, flatMap_bitsOf_length, groupValues_length hu, bitsOf_length]
  exact (groupCount_residue n).1

/-- The stream of the bytes built is the stream they are built from (R153). -/
theorem bitStream_unpackBytes (hn : 1 ≤ n) (hu : u.length = unitLength n) :
    bitStream (unpackBytes (geometry u.length) u) = unpackStream (geometry u.length) u := by
  rw [unpackBytes, geometry_outLen hn hu]
  exact bitStream_chunks n _ (unpackStream_length hn hu)

theorem unpackBytes_length_eq (hn : 1 ≤ n) (hu : u.length = unitLength n) :
    (unpackBytes (geometry u.length) u).length = n := by
  rw [unpackBytes_length, geometry_outLen hn hu]

/-- A bit of the bytes built is the output stream's. -/
theorem streamBit_unpackBytes (hn : 1 ≤ n) (hu : u.length = unitLength n) {s : Nat} (hs : s < 8 * n) :
    some (streamBit (unpackBytes (geometry u.length) u) s) = (unpackStream (geometry u.length) u)[s]? := by
  rw [← bitStream_unpackBytes hn hu, bitStream_getElem? _ _ (by rwa [unpackBytes_length_eq hn hu])]

/-- Stream bit `13k+j` is bit `12-j` of pair `k`'s value (R153). -/
theorem streamBit_unpackBytes_group (hn : 1 ≤ n) (hu : u.length = unitLength n) {k j : Nat} (hk : k < groupCount n)
    (hj : j < 13) : streamBit (unpackBytes (geometry u.length) u) (13 * k + j) =
      ((nth u (2 * k)).toNat * 256 + (nth u (2 * k + 1)).toNat).testBit (12 - j) := by
  have hbits := group_le hk
  apply Option.some.inj
  rw [streamBit_unpackBytes hn hu (by omega), unpackStream_eq hn hu, List.getElem?_append_left]
  · exact flatMap_bitsOf_getElem? 13 _ ((groupValues_spec _ u (two_mul_groupCount_le hu)).2.2 k hk) hj
  · rw [flatMap_bitsOf_length, groupValues_length hu]
    omega

/-- The last stream bits are the low bits of the last two units (R153). -/
theorem streamBit_unpackBytes_tail (hn : 1 ≤ n) (hu : u.length = unitLength n) {j : Nat} (hj : j < residue n) :
    streamBit (unpackBytes (geometry u.length) u) (13 * groupCount n + j) =
      (lastTwo u).testBit (residue n - 1 - j) := by
  have hbits := groupCount_residue n
  have hpairs : ((groupValues (groupCount n) u).flatMap (bitsOf 13)).length = 13 * groupCount n := by
    rw [flatMap_bitsOf_length, groupValues_length hu]
  apply Option.some.inj
  rw [streamBit_unpackBytes hn hu (by omega), unpackStream_eq hn hu, List.getElem?_append_right (by omega), hpairs,
    Nat.add_sub_cancel_left, bitsOf_getElem? _ _ _ hj]

end

/-! ### The checks of UNPACK (R152, R154) -/

/-- Two fields differ exactly when they differ in a bit (R12). -/
theorem field_ne_iff (v w : Byte) (hi lo : Nat) :
    field v hi lo ≠ field w hi lo ↔ ∃ j, lo ≤ j ∧ j ≤ hi ∧ v.getLsbD j ≠ w.getLsbD j := by
  simp [field_eq_iff]

/-- Unit `p` is a tail unit out of the range that R152 requires of it, in a buffer with residue `m`. -/
def TailFault (m : Nat) (u : List Byte) (p : Nat) : Prop :=
  (m = 0 ∧ p = u.length - 1 ∧ (nth u p).toNat ≠ 0) ∨
  (1 ≤ m ∧ m ≤ 6 ∧ p = u.length - 1 ∧ 63 < (nth u p).toNat) ∨
  (7 ≤ m ∧ m ≤ 8 ∧ p = u.length - 2 ∧ (nth u p).toNat ≠ 0) ∨
  (9 ≤ m ∧ p = u.length - 2 ∧ 15 < (nth u p).toNat)

/-- The value faults are those of the pairs and those of the tail (R152). -/
theorem valueFault_iff (n : Nat) (u : List Byte) (p : Nat) : ValueFault n u p ↔
    (∃ k, k < groupCount n ∧ p = 2 * k ∧ 31 < (nth u p).toNat) ∨ TailFault (residue n) u p :=
  Iff.rfl

/-- The tail units `badTail` lists are those at fault (R152). -/
theorem mem_badTail_iff (q : UnpackGeometry) (u : List Byte) (p : Nat) :
    p ∈ badTail q u ↔ TailFault q.tailBits u p := by
  have hguard (c : Prop) [Decidable c] (i : Nat) : p ∈ (if c then [i] else []) ↔ p = i ∧ c := by
    split <;> simp_all
  unfold badTail TailFault
  dsimp only
  rcases bandOf_cases q.tailBits with ⟨hm, hband⟩ | ⟨hm, hm', hband⟩ | ⟨hm, hm', hband⟩ | ⟨hm, hband⟩ <;>
    rw [hband] <;> dsimp only <;> rw [hguard] <;> grind

section
variable {n : Nat} {u : List Byte}

/-- The set `bad` of R155 is the positions with a value fault (R152). -/
theorem mem_badUnits_iff (hn : 1 ≤ n) (hu : u.length = unitLength n) (p : Nat) :
    p ∈ badUnits (geometry u.length) u ↔ ValueFault n u p := by
  rw [badUnits, List.mem_append, geometry_groups hn hu, mem_badGroups 0 _ u (two_mul_groupCount_le hu),
    mem_badTail_iff, geometry_tailBits hn hu, valueFault_iff]
  refine or_congr_left (exists_congr fun k => and_congr_right fun _ => ?_)
  rw [Nat.zero_add]
  exact and_congr_right fun hp => by rw [hp]

/-- A redundancy fault as a disagreement of fields (R154). -/
theorem redundancyFault_iff (n : Nat) (u b : List Byte) (p : Nat) : RedundancyFault n u b p ↔
    (1 ≤ residue n ∧ residue n ≤ 5 ∧ p = u.length - 1 ∧
      field (nth u p) 5 (residue n) ≠ field (nth b (n - 1)) 5 (residue n)) ∨
    (residue n = 7 ∧ p = u.length - 1 ∧ field (nth u p) 7 7 ≠ field (nth b (n - 1)) 7 7) ∨
    (9 ≤ residue n ∧ residue n ≤ 11 ∧ p = u.length - 2 ∧
      field (nth u p) 3 (residue n - 8) ≠ field (nth b (n - 2)) 3 (residue n - 8)) := by
  have hbit (v w : Byte) : field v 7 7 ≠ field w 7 7 ↔ v.getLsbD 7 ≠ w.getLsbD 7 := by
    rw [field_ne_iff]
    exact ⟨fun ⟨j, hlo, hhi, hne⟩ => le_antisymm hhi hlo ▸ hne, fun hne => ⟨7, le_rfl, le_rfl, hne⟩⟩
  rw [hbit, field_ne_iff, field_ne_iff]
  rfl

/-- The redundancy check reports the position with a redundancy fault (R154). -/
theorem badRedundancy_eq_some_iff (hn : 1 ≤ n) (hu : u.length = unitLength n) (b : List Byte) (p : Nat) :
    badRedundancy (geometry u.length) u b = some p ↔ RedundancyFault n u b p := by
  rw [redundancyFault_iff, badRedundancy, geometry_outLen hn hu, geometry_tailBits hn hu]
  grind

/-- A buffer that passes every check unpacks to the bytes built from it (R155). -/
theorem unpackUnits_of_unpackable (h : Unpackable n u) : unpackUnits u = .ok (unpackBytes (geometry u.length) u) := by
  have ⟨hn, hu, hvalue, hredundancy⟩ := h
  have hlen : ¬ u.length = 0 := by
    have := unitLength_cases n
    omega
  have hvalid := (lengthValid_geometry_iff (len := u.length) (by omega)).mpr ⟨n, hn, hu⟩
  have hbad : (badUnits (geometry u.length) u).min? = none := by
    rw [List.min?_eq_none_iff, List.eq_nil_iff_forall_not_mem]
    exact fun p hp => hvalue p ((mem_badUnits_iff hn hu p).mp hp)
  have hagree : badRedundancy (geometry u.length) u (unpackBytes (geometry u.length) u) = none :=
    Option.eq_none_iff_forall_ne_some.mpr fun p hp => hredundancy p ((badRedundancy_eq_some_iff hn hu _ p).mp hp)
  rw [unpackUnits, if_neg hlen]
  dsimp only
  rw [if_pos hvalid, hbad]
  dsimp only
  rw [hagree]

/-- A buffer that unpacks has passed every check (R155). -/
theorem unpackable_of_unpackUnits {b : List Byte} (hu : u.length ≠ 0) (h : unpackUnits u = .ok b) :
    Unpackable b.length u ∧ unpackBytes (geometry u.length) u = b := by
  rw [unpackUnits, if_neg hu] at h
  dsimp only at h
  split at h
  · next hvalid =>
    split at h
    · cases h
    · next hbad =>
      split at h
      · cases h
      · next hagree =>
        cases h
        obtain ⟨n, hn, hlen⟩ := (lengthValid_geometry_iff (by omega)).mp hvalid
        rw [unpackBytes_length_eq hn hlen]
        refine ⟨⟨hn, hlen, fun p hp => ?_, fun p hp => ?_⟩, rfl⟩
        · rw [List.min?_eq_none_iff] at hbad
          rw [← mem_badUnits_iff hn hlen, hbad] at hp
          cases hp
        · rw [← badRedundancy_eq_some_iff hn hlen, hagree] at hp
          cases hp
  · cases h

end

/-! ### The tail as one value -/

/-- How many bits of the last bytes the tail units hold, the repeated ones included (R145). -/
def tailWidth (m : Nat) : Nat :=
  match bandOf m with
  | .a => 0
  | .b => 6
  | .c => 8
  | .d => 12

theorem tailWidth_cases (m : Nat) : (m = 0 ∧ tailWidth m = 0) ∨ (1 ≤ m ∧ m ≤ 6 ∧ tailWidth m = 6) ∨
    (7 ≤ m ∧ m ≤ 8 ∧ tailWidth m = 8) ∨ (9 ≤ m ∧ tailWidth m = 12) := by
  unfold tailWidth
  rcases bandOf_cases m with ⟨h, hband⟩ | ⟨h, h', hband⟩ | ⟨h, h', hband⟩ | ⟨h, hband⟩ <;> rw [hband] <;>
    dsimp only <;> omega

theorem residue_le_tailWidth (n : Nat) : residue n ≤ tailWidth (residue n) := by
  have hm := groupCount_residue n
  have hw := tailWidth_cases (residue n)
  omega

/-- The tail units of a buffer with residue `m`, one or two of them, as one value. -/
def tailUnits (m : Nat) (u : List Byte) : Nat := if m ≤ 6 then (nth u (u.length - 1)).toNat else lastTwo u

/-- The units of a tail value of a buffer with residue `m`. -/
def tailOf (m v : Nat) : List Byte := if m ≤ 6 then [BitVec.ofNat 8 v] else groupPair v

/-- The pair of two bytes as one value is the bytes. -/
theorem groupPair_bytes (hi lo : Byte) : groupPair (hi.toNat * 256 + lo.toNat) = [hi, lo] := by
  have hhi := hi.isLt
  have hlo := lo.isLt
  simp only [groupPair, List.cons.injEq, and_true]
  constructor <;> apply BitVec.eq_of_toNat_eq <;> rw [BitVec.toNat_ofNat] <;> omega

/-- PACK's tail, in every band, is the low bits of the last two bytes (R145). -/
theorem packTail_eq_tailOf (b : List Byte) :
    packTail b = tailOf (residue b.length) (lastTwo b % 2 ^ tailWidth (residue b.length)) := by
  have hlast := (nth b (b.length - 1)).isLt
  unfold tailOf lastTwo
  rcases tailWidth_cases (residue b.length) with ⟨hm, hw⟩ | ⟨hm, hm', hw⟩ | ⟨hm, hm', hw⟩ | ⟨hm, hw⟩
  · rw [packTail_of_residue_zero hm, if_pos (by omega), hw, Nat.pow_zero, Nat.mod_one]
  · rw [packTail_of_residue_le_six hm hm', if_pos hm', hw]
    congr 2
    omega
  · rw [packTail_of_residue_le_eight hm hm', if_neg (by omega), hw, ← groupPair_bytes]
    congr 1
    rw [BitVec.toNat_ofNat]
    omega
  · rw [packTail_of_nine_le_residue hm, if_neg (by omega), hw, ← groupPair_bytes]
    congr 1
    rw [BitVec.toNat_ofNat]
    omega

theorem lastTwo_lt (u : List Byte) : lastTwo u < 2 ^ 16 := by
  have := (nth u (u.length - 2)).isLt
  have := (nth u (u.length - 1)).isLt
  unfold lastTwo
  omega

/-- Within the tail's width, the tail units' bits are those of the last two units. -/
theorem tailUnits_testBit {m : Nat} (u : List Byte) {i : Nat} (hi : i < tailWidth m) :
    (tailUnits m u).testBit i = (lastTwo u).testBit i := by
  unfold tailUnits
  split
  · have := tailWidth_cases m
    rw [lastTwo_testBit, if_pos (by omega)]
    rfl
  · rfl

section
variable {n : Nat} {u b : List Byte}

/-- What follows the pairs of a buffer of `UnitLen(n)` units is its tail units. -/
theorem drop_eq_tailOf (hn : 1 ≤ n) (hu : u.length = unitLength n) :
    u.drop (2 * groupCount n) = tailOf (residue n) (tailUnits (residue n) u) := by
  have hlen := unitLength_cases n
  have hdrop (i : Nat) (hi : i < u.length) : u.drop i = nth u i :: u.drop (i + 1) := by
    rw [nth_eq_getElem u i hi]
    exact List.drop_eq_getElem_cons hi
  have hnil : u.drop u.length = [] := List.drop_length
  unfold tailOf tailUnits
  split
  · have hlast : u.length = 2 * groupCount n + 1 := by omega
    rw [BitVec.ofNat_toNat, BitVec.setWidth_eq, hdrop _ (by omega), ← hlast, hnil, hlast, Nat.add_sub_cancel]
  · have hlast : u.length = 2 * groupCount n + 1 + 1 := by omega
    rw [lastTwo, groupPair_bytes, hdrop _ (by omega), hdrop _ (by omega), ← hlast, hnil, hlast, Nat.add_sub_cancel]
    rfl

theorem tailUnits_lt (m : Nat) (u : List Byte) : tailUnits m u < if m ≤ 6 then 2 ^ 8 else 2 ^ 16 := by
  unfold tailUnits
  split
  · exact (nth u (u.length - 1)).isLt
  · exact lastTwo_lt u

/-- Values that fit the tail's units are told apart by them. -/
theorem tailOf_eq_tailOf_iff {m v v' : Nat} (hv : v < if m ≤ 6 then 2 ^ 8 else 2 ^ 16)
    (hv' : v' < if m ≤ 6 then 2 ^ 8 else 2 ^ 16) : tailOf m v = tailOf m v' ↔ v = v' := by
  refine ⟨fun h => ?_, congrArg _⟩
  unfold tailOf at h
  split_ifs at h hv hv' with hm
  · simp only [List.cons.injEq, and_true, ← BitVec.toNat_inj, BitVec.toNat_ofNat] at h
    omega
  · simp only [groupPair, List.cons.injEq, and_true, ← BitVec.toNat_inj, BitVec.toNat_ofNat] at h
    omega

theorem two_pow_tailWidth_le (m : Nat) : 2 ^ tailWidth m ≤ if m ≤ 6 then 2 ^ 8 else 2 ^ 16 := by
  rcases tailWidth_cases m with ⟨hm, hw⟩ | ⟨hm, hm', hw⟩ | ⟨hm, hm', hw⟩ | ⟨hm, hw⟩ <;> rw [hw] <;> split <;> omega

/-- A buffer ends in PACK's tail of `b` exactly when its tail units are in range (R152), and the bits of them that stand for
bits of the last bytes are those bits (R145). -/
theorem packTail_eq_drop_iff (hb : 1 ≤ b.length) (hu : u.length = unitLength b.length) :
    packTail b = u.drop (2 * groupCount b.length) ↔
      tailUnits (residue b.length) u < 2 ^ tailWidth (residue b.length) ∧
        ∀ i, i < tailWidth (residue b.length) → (lastTwo u).testBit i = (lastTwo b).testBit i := by
  have hlt := (Nat.mod_lt (lastTwo b) (Nat.two_pow_pos (tailWidth (residue b.length)))).trans_le
    (two_pow_tailWidth_le _)
  rw [packTail_eq_tailOf, drop_eq_tailOf hb hu, tailOf_eq_tailOf_iff hlt (tailUnits_lt _ u), mod_two_pow_eq_iff]
  exact and_congr_right fun _ => forall₂_congr fun i hi => by rw [tailUnits_testBit u hi]

/-- The tail units are in range exactly when their value has the tail's width (R152). -/
theorem no_tailFault_iff (m : Nat) (u : List Byte) :
    (∀ p, ¬ TailFault m u p) ↔ tailUnits m u < 2 ^ tailWidth m := by
  have hlast := (nth u (u.length - 1)).isLt
  unfold TailFault tailUnits lastTwo
  rcases tailWidth_cases m with ⟨hm, hw⟩ | ⟨hm, hm', hw⟩ | ⟨hm, hm', hw⟩ | ⟨hm, hw⟩ <;> rw [hw] <;> grind

/-- No unit is out of range exactly when the pairs' first units have 5 bits and the tail its width (R152). -/
theorem no_valueFault_iff (n : Nat) (u : List Byte) : (∀ p, ¬ ValueFault n u p) ↔
    (∀ k, k < groupCount n → (nth u (2 * k)).toNat ≤ 31) ∧ tailUnits (residue n) u < 2 ^ tailWidth (residue n) := by
  simp only [valueFault_iff, not_or, forall_and, no_tailFault_iff]
  refine and_congr_left fun _ => ⟨fun h k hk => ?_, ?_⟩
  · exact not_lt.mp fun hlt => h (2 * k) ⟨k, hk, rfl, hlt⟩
  · rintro h p ⟨k, hk, rfl, hlt⟩
    exact absurd (h k hk) (not_le.mpr hlt)

/-- The repeated bits are the tail units' bits from the residue up to the tail's width (R154). -/
theorem exists_redundancyFault_iff (u b : List Byte) : (∃ p, RedundancyFault b.length u b p) ↔
    ∃ i, residue b.length ≤ i ∧ i < tailWidth (residue b.length) ∧ (lastTwo u).testBit i ≠ (lastTwo b).testBit i := by
  have hw := tailWidth_cases (residue b.length)
  unfold RedundancyFault
  rw [← residue]
  constructor
  · rintro ⟨p, ⟨hm, hm', rfl, j, hlo, hhi, hne⟩ | ⟨hm, rfl, hne⟩ | ⟨hm, hm', rfl, j, hlo, hhi, hne⟩⟩
    · refine ⟨j, hlo, by omega, ?_⟩
      rwa [lastTwo_testBit, lastTwo_testBit, if_pos (by omega), if_pos (by omega)]
    · exact ⟨7, by omega, by omega, by rwa [lastTwo_testBit, lastTwo_testBit, if_pos (by omega), if_pos (by omega)]⟩
    · refine ⟨j + 8, by omega, by omega, ?_⟩
      rwa [lastTwo_testBit, lastTwo_testBit, if_neg (by omega), if_neg (by omega), Nat.add_sub_cancel]
  · rintro ⟨i, hlo, hhi, hne⟩
    rw [lastTwo_testBit, lastTwo_testBit] at hne
    split_ifs at hne with hi
    · by_cases hm : residue b.length ≤ 6
      · exact ⟨_, .inl ⟨by omega, by omega, rfl, i, hlo, by omega, hne⟩⟩
      · obtain rfl : i = 7 := by omega
        exact ⟨_, .inr (.inl ⟨by omega, rfl, hne⟩)⟩
    · exact ⟨_, .inr (.inr ⟨by omega, by omega, rfl, i - 8, by omega, by omega, hne⟩)⟩

/-- No repeated bit disagrees exactly when the tail's bits from the residue on are those of the last bytes (R154). -/
theorem no_redundancyFault_iff (u b : List Byte) : (∀ p, ¬ RedundancyFault b.length u b p) ↔
    ∀ i, residue b.length ≤ i → i < tailWidth (residue b.length) → (lastTwo u).testBit i = (lastTwo b).testBit i := by
  rw [← not_exists, exists_redundancyFault_iff]
  simp

end

/-! ### PACK and UNPACK are inverse (R158) -/

/-- A byte buffer's stream: the groups' bits, then the low bits of the last two bytes. -/
theorem bitStream_eq (b : List Byte) : bitStream b =
    (packGroups b).flatMap (bitsOf 13) ++ bitsOf (residue b.length) (lastTwo b) := by
  obtain ⟨hbits, hm⟩ := groupCount_residue b.length
  have hgroups : (packGroups b).flatMap (bitsOf 13) = (bitStream b).take (13 * groupCount b.length) :=
    flatMap_bitsOf_chunks 13 _ _ (by rw [bitStream_length]; omega)
  have htail : bitsOf (residue b.length) (lastTwo b) = (bitStream b).drop (13 * groupCount b.length) := by
    apply List.ext_getElem?
    intro j
    by_cases hj : j < residue b.length
    · rw [bitsOf_getElem? _ _ _ hj, List.getElem?_drop, bitStream_getElem? b _ (by omega),
        streamBit_eq_lastTwo_testBit b (i := residue b.length - 1 - j) (by omega) (by omega)]
    · rw [List.getElem?_eq_none (by simpa using hj), List.getElem?_eq_none (by simp; omega)]
  rw [hgroups, htail, List.take_append_drop]

/-- Concatenations split at the same length are equal part by part. -/
theorem append_eq_append_iff_of_length_eq {α : Type} {s s' t t' : List α} (h : s.length = s'.length) :
    s ++ t = s' ++ t' ↔ s = s' ∧ t = t' :=
  ⟨fun heq => List.append_inj heq h, fun ⟨hs, ht⟩ => hs ▸ ht ▸ rfl⟩

/-- Values of `w` bits are what their writing-out holds. -/
theorem flatMap_bitsOf_inj {w : Nat} {vs vs' : List Nat} (hlen : vs.length = vs'.length) (h : ∀ v ∈ vs, v < 2 ^ w)
    (h' : ∀ v ∈ vs', v < 2 ^ w) : vs.flatMap (bitsOf w) = vs'.flatMap (bitsOf w) ↔ vs = vs' := by
  refine ⟨fun heq => ?_, congrArg _⟩
  rw [← chunks_flatMap_bitsOf w vs [] h, heq, hlen, chunks_flatMap_bitsOf w vs' [] h']

theorem bitStream_inj {a b : List Byte} (hlen : a.length = b.length) : bitStream a = bitStream b ↔ a = b := by
  refine ⟨fun h => ?_, congrArg _⟩
  rw [← chunks_bitStream a, h, hlen, chunks_bitStream]

section
variable {n : Nat} {u b : List Byte}

/-- The units' pairs hold the bytes' groups. -/
theorem groupPairs_eq_take_iff (hu : u.length = unitLength b.length) :
    (packGroups b).flatMap groupPair = u.take (2 * groupCount b.length) ↔
      groupValues (groupCount b.length) u = packGroups b := by
  obtain ⟨hlen, htake, -⟩ := groupValues_spec _ u (two_mul_groupCount_le hu)
  refine ⟨fun h => ?_, fun h => h ▸ htake⟩
  have hgroups := groupValues_groupPairs (packGroups b) (u.drop (2 * groupCount b.length)) fun v hv =>
    (packGroups_lt b v hv).trans (by decide)
  rwa [h, List.take_append_drop, packGroups_length] at hgroups

/-- A buffer is the pack of `b` exactly when its pairs hold `b`'s groups, its tail units are in range (R152), and the bits of
them that stand for bits of the last bytes are those bits (R145). -/
theorem packUnits_eq_iff (hb : 1 ≤ b.length) (hu : u.length = unitLength b.length) : packUnits b = u ↔
    groupValues (groupCount b.length) u = packGroups b ∧
      tailUnits (residue b.length) u < 2 ^ tailWidth (residue b.length) ∧
        ∀ i, i < tailWidth (residue b.length) → (lastTwo u).testBit i = (lastTwo b).testBit i := by
  have hle := two_mul_groupCount_le hu
  have hlen : ((packGroups b).flatMap groupPair).length = (u.take (2 * groupCount b.length)).length := by
    rw [flatMap_groupPair_length, packGroups_length, List.length_take, Nat.min_eq_left hle]
  rw [← groupPairs_eq_take_iff hu, ← packTail_eq_drop_iff hb hu, packUnits_eq (by omega)]
  conv_lhs => rw [← List.take_append_drop (2 * groupCount b.length) u]
  exact append_eq_append_iff_of_length_eq hlen

/-- A pair's value has 13 bits exactly when its first unit has 5 (R152, R153). -/
theorem forall_groupValues_lt_iff (hu : u.length = unitLength n) :
    (∀ v ∈ groupValues (groupCount n) u, v < 2 ^ 13) ↔ ∀ k, k < groupCount n → (nth u (2 * k)).toNat ≤ 31 := by
  obtain ⟨hlen, -, hvalue⟩ := groupValues_spec _ u (two_mul_groupCount_le hu)
  constructor
  · intro h k hk
    have hlt := h _ (List.mem_of_getElem? (hvalue k hk))
    omega
  · intro h v hv
    obtain ⟨k, hk⟩ := List.mem_iff_getElem?.mp hv
    have hlt : k < groupCount n := by
      rw [← hlen]
      exact (List.getElem?_eq_some_iff.mp hk).1
    obtain rfl : _ = v := Option.some.inj ((hvalue k hlt).symm.trans hk)
    have hhi := h k hlt
    have hlo := (nth u (2 * k + 1)).isLt
    omega

/-- The bytes built from a buffer whose pairs are in range are `b` exactly when the pairs hold `b`'s groups, and the tail
bits are the last bits of `b`'s stream (R153). -/
theorem unpackBytes_eq_iff (hb : 1 ≤ b.length) (hu : u.length = unitLength b.length)
    (hpairs : ∀ k, k < groupCount b.length → (nth u (2 * k)).toNat ≤ 31) : unpackBytes (geometry u.length) u = b ↔
    groupValues (groupCount b.length) u = packGroups b ∧
      ∀ i, i < residue b.length → (lastTwo u).testBit i = (lastTwo b).testBit i := by
  have hgroups : (groupValues (groupCount b.length) u).length = (packGroups b).length := by
    rw [groupValues_length hu, packGroups_length]
  rw [← bitStream_inj (unpackBytes_length_eq hb hu), bitStream_unpackBytes hb hu, unpackStream_eq hb hu, bitStream_eq,
    append_eq_append_iff_of_length_eq (by rw [flatMap_bitsOf_length, flatMap_bitsOf_length, hgroups]),
    flatMap_bitsOf_inj hgroups ((forall_groupValues_lt_iff hu).mpr hpairs) (packGroups_lt b), bitsOf_eq_iff]

/-- The packs of `b` are the buffers that pass UNPACK's checks as the units of `b`'s bytes and unpack to `b` (R158). -/
theorem packUnits_eq_iff_unpackable (hb : 1 ≤ b.length) (hu : u.length = unitLength b.length) :
    packUnits b = u ↔ Unpackable b.length u ∧ unpackBytes (geometry u.length) u = b := by
  rw [packUnits_eq_iff hb hu]
  constructor
  · rintro ⟨hgroups, hrange, hbits⟩
    have hpairs := (forall_groupValues_lt_iff hu).mp (hgroups ▸ packGroups_lt b)
    have hbytes := (unpackBytes_eq_iff hb hu hpairs).mpr
      ⟨hgroups, fun i hi => hbits i (hi.trans_le (residue_le_tailWidth _))⟩
    refine ⟨⟨hb, hu, (no_valueFault_iff _ u).mpr ⟨hpairs, hrange⟩, ?_⟩, hbytes⟩
    rw [hbytes]
    exact (no_redundancyFault_iff u b).mpr fun i _ => hbits i
  · rintro ⟨⟨-, -, hvalue, hredundancy⟩, hbytes⟩
    obtain ⟨hpairs, hrange⟩ := (no_valueFault_iff _ u).mp hvalue
    obtain ⟨hgroups, hlow⟩ := (unpackBytes_eq_iff hb hu hpairs).mp hbytes
    rw [hbytes] at hredundancy
    refine ⟨hgroups, hrange, fun i hi => ?_⟩
    rcases Nat.lt_or_ge i (residue b.length) with hi' | hi'
    · exact hlow i hi'
    · exact (no_redundancyFault_iff u b).mp hredundancy i hi' hi

/-- The pack of the bytes built from a buffer that passes the checks is the buffer (R158). -/
theorem packUnits_unpackBytes (h : Unpackable n u) : packUnits (unpackBytes (geometry u.length) u) = u := by
  have ⟨hn, hu, _, _⟩ := h
  have hlen := unpackBytes_length_eq hn hu
  rw [packUnits_eq_iff_unpackable (by rwa [hlen]) (by rwa [hlen]), hlen]
  exact ⟨h, rfl⟩

end

/-- Every pack unpacks to its bytes (R158). -/
theorem unpackUnits_packUnits (b : List Byte) : unpackUnits (packUnits b) = .ok b := by
  rcases Nat.eq_zero_or_pos b.length with hb | hb
  · obtain rfl := List.length_eq_zero_iff.mp hb
    rfl
  · obtain ⟨hunpackable, hbytes⟩ := (packUnits_eq_iff_unpackable hb (packUnits_length b)).mp rfl
    rw [unpackUnits_of_unpackable hunpackable, hbytes]

/-- Every buffer that unpacks is the pack of the result (R158). -/
theorem packUnits_of_unpackUnits {u b : List Byte} (h : unpackUnits u = .ok b) : packUnits b = u := by
  rcases Nat.eq_zero_or_pos u.length with hu | hu
  · obtain rfl := List.length_eq_zero_iff.mp hu
    cases h
    rfl
  · obtain ⟨hunpackable, rfl⟩ := unpackable_of_unpackUnits (Nat.ne_of_gt hu) h
    exact packUnits_unpackBytes hunpackable

/-! ### A new content of one array -/

/-- A command that yields a new content of one array alone completes with it, and every byte outside the content reads as
before (R111, R114). -/
theorem exec_of_newContent {i : Instr} {s : State} {u : Updates} {a : Arr} {v : List Byte}
    (h : commandResult i s = .ok u) (hv : u.get a = some v) (honly : ∀ a' w, u.get a' = some w → a' = a) :
    exec i s = .next (s.apply u).succeed ∧ (s.apply u).succeed.content a = v ∧
      SameOutside s (s.apply u).succeed a.base v.length := by
  refine ⟨by rw [exec_eq, h, State.complete_ok], (s.succeed_apply_get (commandResult_fits h) hv).2, fun x hx => ?_⟩
  rw [State.succeed_byteAt]
  refine s.apply_byteAt_outside u x fun a' w hw => ?_
  obtain rfl := honly a' w hw
  rw [hv] at hw
  cases hw
  exact hx

/-- PACK of a length within the capacity yields the units of RAW's content (R148). -/
theorem packExec_ok {s : State} (h : s.rawLen.toNat ≤ s.rawCap.val) :
    packExec s = .ok { unit := some (packUnits (s.content .raw)) } := by
  rw [packExec_eq, State.source_ok (a := .raw) h]
  rfl

/-- UNPACK of a length within the capacity yields the bytes of UNIT's content, when that unpacks (R157). -/
theorem unpackExec_ok {s : State} {b : List Byte} (h : s.unitLen.toNat ≤ unitCap s.rawCap)
    (hb : unpackUnits (s.content .unit) = .ok b) : unpackExec s = .ok { raw := some b } := by
  rw [unpackExec_eq, State.source_ok (a := .unit) h]
  dsimp only [Except.bind]
  rw [hb]
  rfl

/-! ### The obligations -/

/-- Settles O35: one tail unit and two, by the residue. -/
theorem geometryInvertsUnitLength : Obligations.GeometryInvertsUnitLength := fun _ => geometry_unitLength

/-- Settles O36: the check accepts the lengths of packs alone, and refuses by the number of pairs, for one tail unit and for
two. -/
theorem validLengthsAreThoseOfPack : Obligations.ValidLengthsAreThoseOfPack := by
  intro len hpos
  refine ⟨lengthValid_geometry_iff hpos, ?_⟩
  obtain ⟨g, rfl | rfl⟩ := exists_pairs_tail hpos
  · rw [lengthValid_odd_eq_false_iff, geometry_odd]
    dsimp only
    omega
  · rw [lengthValid_even_eq_false_iff, geometry_even]
    dsimp only
    omega

/-- Settles O37: the last three clauses from the length by pairs, the residue being what they leave of the bits. -/
theorem unitLengthStrictlyIncreases : Obligations.UnitLengthStrictlyIncreases := by
  refine ⟨fun _ _ => unitLength_lt_of_lt, fun _ _ => unitLength_le_unitLength_iff, fun n hn hg => ?_, fun n hg => ?_,
    fun n hn => ?_⟩
  · have hbits := groupCount_residue n
    have hbits' := groupCount_residue (n + 1)
    have hlen := unitLength_cases n
    have hlen' := unitLength_cases (n + 1)
    omega
  · have hlen := unitLength_cases n
    have hlen' := unitLength_cases (n + 1)
    omega
  · have hbits := groupCount_residue n
    have hlen := unitLength_cases n
    rw [show 8 * n / 13 = groupCount n from rfl]
    omega

/-- Settles O33: a group's pair is cut from the sum form, whose bits the window form has. -/
theorem packEmitsGroupPairs : Obligations.PackEmitsGroupPairs := by
  refine fun b => ⟨packUnits_length b, fun k hk => ?_⟩
  obtain ⟨hhigh, hlow⟩ := packUnits_getElem?_pair b hk
  exact ⟨hhigh, hlow, groupSum_lt b k, groupWindow_eq_groupSum b k⟩

/-- Settles O34: the units after the pairs are the tail, which has one equation for each band. -/
theorem packEmitsTailBand : Obligations.PackEmitsTailBand := by
  refine ⟨rfl, fun b hb => ?_⟩
  have hdrop : (packUnits b).drop (2 * (8 * b.length / 13)) = packTail b := packUnits_drop (by simpa using hb)
  dsimp only
  rw [hdrop]
  exact ⟨packTail_of_residue_zero, fun h => packTail_of_residue_le_six h.1 h.2,
    fun h => packTail_of_residue_le_eight h.1 h.2, packTail_of_nine_le_residue⟩

/-- Settles O38: the bits of the pairs, and those of the tail, which is the last unit alone up to 8 bits. -/
theorem unpackBuildsTheStream : Obligations.UnpackBuildsTheStream := by
  intro n u hn hu _
  refine ⟨unpackBytes_length_eq hn hu, fun k j => streamBit_unpackBytes_group hn hu, fun j hj hm => ?_, fun j hj _ => ?_⟩
  · have hlow : residue n - 1 - j < 8 := by
      rw [residue]
      omega
    exact (streamBit_unpackBytes_tail hn hu hj).trans ((lastTwo_testBit u _).trans (if_pos hlow))
  · exact streamBit_unpackBytes_tail hn hu hj

/-- Settles O39: both directions from `packUnits_eq_iff_unpackable`. -/
theorem unpackInvertsPack : Obligations.UnpackInvertsPack :=
  ⟨unpackUnits_packUnits, fun _ _ => packUnits_of_unpackUnits⟩

/-- Settles O18: PACK yields a new content of UNIT alone. -/
theorem packCompletes : Obligations.PackCompletes := by
  intro s hcap
  have hlen : (packUnits (s.content .raw)).length = unitLength s.rawLen.toNat := by
    rw [packUnits_length, State.content_length]
    rfl
  obtain ⟨hexec, hcontent, houtside⟩ := exec_of_newContent (i := .pack) (a := .unit) (packExec_ok hcap) rfl
    fun a w hw => by cases a <;> cases hw; rfl
  refine ⟨_, hexec, ?_, hcontent, hlen ▸ houtside⟩
  rw [← hlen]
  rfl

/-- Settles O19: UNPACK yields a new content of RAW alone, whose pack is UNIT's. -/
theorem unpackCompletes : Obligations.UnpackCompletes := by
  intro s n hcap hunpackable
  have ⟨hn, hu, _, _⟩ := hunpackable
  have hlen := unpackBytes_length_eq hn hu
  have hresult := unpackExec_ok hcap (unpackUnits_of_unpackable hunpackable)
  obtain ⟨hexec, hcontent, houtside⟩ := exec_of_newContent (i := .unpack) (a := .raw) hresult rfl
    fun a w hw => by cases a <;> cases hw; rfl
  refine ⟨_, hexec, ?_, ?_, hlen ▸ houtside⟩
  · rw [← hlen]
    rfl
  · rw [hcontent, packUnits_unpackBytes hunpackable]

end Sys2Proof.Machine

/-! PROOFS. The family `43_symbol_codec`: ToText and FromText as the relations of R170 and R172, TO_TEXT (R171) and FROM_TEXT
(R173), that under an alphabet the two relations are each other's converse (R175), and ToText of what PACK emits (R176). Both
relations go through the buffer by pairs, so their equations are proved once, for `ByPairs`; the obligations come at the end.
-/

namespace Sys2Proof.Machine

/-! ### Relations that go by pairs -/

/-- Two buffers of one length are related pair by pair by `P`, and a lone last byte by `Q`: the shape of `TextOf`
and `UnitsOf`. -/
def ByPairs (P : Byte → Byte → Byte → Byte → Prop) (Q : Byte → Byte → Prop) (a b : List Byte) : Prop :=
  b.length = a.length ∧
  (∀ i, 2 * i + 1 < a.length → P (nth a (2 * i)) (nth a (2 * i + 1)) (nth b (2 * i)) (nth b (2 * i + 1))) ∧
  (a.length % 2 = 1 → Q (nth a (a.length - 1)) (nth b (a.length - 1)))

section
variable {P : Byte → Byte → Byte → Byte → Prop} {Q : Byte → Byte → Prop}

theorem byPairs_nil {b : List Byte} : ByPairs P Q [] b ↔ b = [] := by
  constructor
  · rintro ⟨hlen, -, -⟩
    exact List.length_eq_zero_iff.mp hlen
  · rintro rfl
    exact ⟨rfl, fun i hi => absurd hi (Nat.not_lt_zero _), fun h => absurd h (by decide)⟩

theorem byPairs_singleton {x : Byte} {b : List Byte} : ByPairs P Q [x] b ↔ ∃ y, b = [y] ∧ Q x y := by
  constructor
  · rintro ⟨hlen, -, hlone⟩
    obtain ⟨y, rfl⟩ := List.length_eq_one_iff.mp hlen
    exact ⟨y, rfl, hlone rfl⟩
  · rintro ⟨y, rfl, hxy⟩
    refine ⟨rfl, fun i hi => ?_, fun _ => hxy⟩
    rw [List.length_singleton] at hi
    omega

/-- Below a first pair the indices move by 2. -/
theorem nth_cons_cons (x y : Byte) (a : List Byte) {i : Nat} (h : 2 ≤ i) : nth (x :: y :: a) i = nth a (i - 2) := by
  obtain ⟨k, rfl⟩ := Nat.exists_eq_add_of_le' h
  rw [nth_cons_succ, nth_cons_succ, Nat.add_sub_cancel]

theorem byPairs_cons_cons_cons_cons {x y x' y' : Byte} {a b : List Byte} :
    ByPairs P Q (x :: y :: a) (x' :: y' :: b) ↔ P x y x' y' ∧ ByPairs P Q a b := by
  have hlone (z z' : Byte) (c : List Byte) (hodd : a.length % 2 = 1) :
      nth (z :: z' :: c) (a.length + 1 + 1 - 1) = nth c (a.length - 1) := by
    rw [nth_cons_cons _ _ _ (by omega)]
    congr 1
  simp only [ByPairs, List.length_cons]
  constructor
  · rintro ⟨hlen, hpairs, hodd⟩
    refine ⟨hpairs 0 (by omega), by omega, fun i hi => hpairs (i + 1) (by omega), fun h => ?_⟩
    have hlast := hodd (by omega)
    rwa [hlone x y a h, hlone x' y' b h] at hlast
  · rintro ⟨hfirst, hlen, hpairs, hodd⟩
    refine ⟨by omega, fun i hi => ?_, fun h => ?_⟩
    · cases i with
      | zero => exact hfirst
      | succ i => exact hpairs i (by omega)
    · rw [hlone x y a (by omega), hlone x' y' b (by omega)]
      exact hodd (by omega)

theorem byPairs_cons_cons {x y : Byte} {a b : List Byte} :
    ByPairs P Q (x :: y :: a) b ↔ ∃ x' y' b', b = x' :: y' :: b' ∧ P x y x' y' ∧ ByPairs P Q a b' := by
  constructor
  · intro h
    match b, h with
    | x' :: y' :: b', h => exact ⟨x', y', b', rfl, byPairs_cons_cons_cons_cons.mp h⟩
    | [_], h => exact absurd h.1 (by simp)
    | [], h => exact absurd h.1 (by simp)
  · rintro ⟨x', y', b', rfl, h⟩
    exact byPairs_cons_cons_cons_cons.mpr h

end

/-- Every index of a buffer is in a pair, or is the lone last one. -/
theorem forall_lt_iff_by_pairs {R : Nat → Prop} (n : Nat) : (∀ p, p < n → R p) ↔
    (∀ i, 2 * i + 1 < n → R (2 * i) ∧ R (2 * i + 1)) ∧ (n % 2 = 1 → R (n - 1)) := by
  constructor
  · exact fun h => ⟨fun i hi => ⟨h _ (by omega), h _ hi⟩, fun hodd => h _ (by omega)⟩
  · rintro ⟨hpairs, hlone⟩ p hp
    by_cases hlast : p + 1 = n ∧ n % 2 = 1
    · obtain rfl : p = n - 1 := by omega
      exact hlone hlast.2
    · have hpair := hpairs (p / 2) (by omega)
      rcases Nat.mod_two_eq_zero_or_one p with heven | hodd
      · rw [show 2 * (p / 2) = p by omega] at hpair
        exact hpair.1
      · rw [show 2 * (p / 2) + 1 = p by omega] at hpair
        exact hpair.2

/-! ### ToText (R170) -/

/-- The value of a pair of units, the first the high byte (R170). -/
def pairValue (hi lo : Byte) : Nat := hi.toNat * 256 + lo.toNat

theorem symbolOf_eq_some_lt {f : ForwardTable} {i : Nat} {c : Byte} (h : symbolOf f i = some c) : i < 94 := by
  by_contra hge
  rw [symbolOf_of_ge f i (not_lt.mp hge)] at h
  cases h

/-- `TextOf`, as a relation by pairs. -/
theorem textOf_iff_byPairs {f : ForwardTable} {u t : List Byte} : TextOf f u t ↔
    ByPairs (fun hi lo c0 c1 => symbolOf f (pairValue hi lo / 94) = some c0 ∧ symbolOf f (pairValue hi lo % 94) = some c1)
      (fun x c => symbolOf f x.toNat = some c) u t := Iff.rfl

/-- `ToText` of a pair and what follows: the pair's two symbols, then the text of the rest (R170). -/
theorem toTextFrom_cons_cons_eq_ok_iff {f : ForwardTable} {i : Nat} {hi lo : Byte} {rest t : List Byte} :
    toTextFrom f i (hi :: lo :: rest) = .ok t ↔ ∃ c0 c1 t', t = c0 :: c1 :: t' ∧
      (symbolOf f (pairValue hi lo / 94) = some c0 ∧ symbolOf f (pairValue hi lo % 94) = some c1) ∧
      toTextFrom f (i + 2) rest = .ok t' := by
  have hlow := symbolOf_of_lt f (pairValue hi lo % 94) (Nat.mod_lt _ (by decide))
  rw [hlow, toTextFrom, pairValue]
  cases symbolOf f ((hi.toNat * 256 + lo.toNat) / 94) with
  | none => simp
  | some c => cases toTextFrom f (i + 2) rest <;> simp [eq_comm]

/-- `ToText` succeeds with a text exactly when that is the text of the units (R170). -/
theorem toTextFrom_eq_ok_iff {f : ForwardTable} {i : Nat} {u t : List Byte} :
    toTextFrom f i u = .ok t ↔ TextOf f u t := by
  rw [textOf_iff_byPairs]
  match u with
  | [] =>
    simp [byPairs_nil, toTextFrom, eq_comm]
  | [x] =>
    rw [byPairs_singleton, toTextFrom]
    cases symbolOf f x.toNat <;> simp [eq_comm]
  | hi :: lo :: rest =>
    rw [byPairs_cons_cons, toTextFrom_cons_cons_eq_ok_iff]
    simp only [toTextFrom_eq_ok_iff, textOf_iff_byPairs]

theorem toText_eq_ok_iff {f : ForwardTable} {u t : List Byte} : toText f u = .ok t ↔ TextOf f u t := toTextFrom_eq_ok_iff

/-- No position fails exactly when every pair's value is at most 8835 and a lone last unit at most 93: the set D of R175. -/
theorem no_indexFault_iff {u : List Byte} : (∀ p, ¬ IndexFault u p) ↔
    (∀ i, 2 * i + 1 < u.length → pairValue (nth u (2 * i)) (nth u (2 * i + 1)) < 8836) ∧
    (u.length % 2 = 1 → (nth u (u.length - 1)).toNat < 94) := by
  constructor
  · intro h
    refine ⟨fun i hi => not_le.mp fun hge => h (2 * i) (.inl ⟨by omega, hi, hge⟩), fun hodd => not_le.mp fun hge => ?_⟩
    exact h (u.length - 1) (.inr ⟨hodd, by omega, hge⟩)
  · rintro ⟨hpairs, hlone⟩ p (⟨heven, hp, hge⟩ | ⟨hodd, hp, hge⟩)
    · have hlt := hpairs (p / 2) (by omega)
      rw [show 2 * (p / 2) = p by omega] at hlt
      exact absurd hge (not_le.mpr hlt)
    · have hlt := hlone hodd
      rw [show u.length - 1 = p by omega] at hlt
      exact absurd hge (not_le.mpr hlt)

/-- D as a relation by pairs of a buffer with itself. -/
theorem no_indexFault_iff_byPairs {u : List Byte} : (∀ p, ¬ IndexFault u p) ↔
    ByPairs (fun hi lo _ _ => pairValue hi lo < 8836) (fun x _ => x.toNat < 94) u u :=
  no_indexFault_iff.trans ⟨fun h => ⟨rfl, h⟩, And.right⟩

/-- Units that have a text have no index fault: an index over 93 has no symbol (R170). -/
theorem TextOf.no_indexFault {f : ForwardTable} {u t : List Byte} (h : TextOf f u t) (p : Nat) : ¬ IndexFault u p := by
  obtain ⟨-, hpairs, hlone⟩ := h
  refine no_indexFault_iff.mpr ⟨fun i hi => ?_, fun hodd => symbolOf_eq_some_lt (hlone hodd)⟩ p
  have hlt := symbolOf_eq_some_lt (hpairs i hi).1
  rw [pairValue]
  omega

/-- Units without an index fault have a text (R170). -/
theorem exists_textOf (f : ForwardTable) {u : List Byte} (h : ∀ p, ¬ IndexFault u p) : ∃ t, TextOf f u t := by
  rw [no_indexFault_iff_byPairs] at h
  simp only [textOf_iff_byPairs]
  match u with
  | [] => exact ⟨[], byPairs_nil.mpr rfl⟩
  | [x] =>
    obtain ⟨_, -, hx⟩ := byPairs_singleton.mp h
    exact ⟨_, byPairs_singleton.mpr ⟨_, rfl, symbolOf_of_lt f _ hx⟩⟩
  | hi :: lo :: rest =>
    obtain ⟨hval, hrest⟩ := byPairs_cons_cons_cons_cons.mp h
    obtain ⟨t, ht⟩ := exists_textOf f (no_indexFault_iff_byPairs.mpr hrest)
    exact ⟨_, byPairs_cons_cons_cons_cons.mpr ⟨⟨symbolOf_of_lt f _ (by omega), symbolOf_of_lt f _ (by omega)⟩, ht⟩⟩

/-! ### FromText (R172) -/

/-- `UnitsOf`, as a relation by pairs. -/
theorem unitsOf_iff_byPairs {r : ReverseTable} {t u : List Byte} : UnitsOf r t u ↔
    ByPairs (fun c0 c1 hi lo => hi = BitVec.ofNat 8 ((revIdx r c0 * 94 + revIdx r c1) / 256) ∧
      lo = BitVec.ofNat 8 ((revIdx r c0 * 94 + revIdx r c1) % 256)) (fun c x => x = BitVec.ofNat 8 (revIdx r c)) t u := Iff.rfl

/-- The units that `FromText` computes are those of the text, and no others are (R172). -/
theorem textUnits_eq_iff {r : ReverseTable} {t u : List Byte} : textUnits r t = u ↔ UnitsOf r t u := by
  rw [unitsOf_iff_byPairs]
  induction t using textUnits.induct r generalizing u with
  | case1 => rw [byPairs_nil, textUnits, eq_comm]
  | case2 c => simp [byPairs_singleton, textUnits, eq_comm]
  | case3 c0 c1 rest ih =>
    rw [byPairs_cons_cons, textUnits]
    simp only [← ih]
    constructor
    · rintro rfl
      exact ⟨_, _, _, rfl, ⟨rfl, rfl⟩, rfl⟩
    · rintro ⟨_, _, _, rfl, ⟨rfl, rfl⟩, rfl⟩
      rfl

/-- The faults of R204 are the illegal characters of R172. -/
theorem no_charFault_iff {r : ReverseTable} {t : List Byte} :
    (∀ p, ¬ CharFault r t p) ↔ ∀ p, p < t.length → illegalChar r (nth t p) = false := by
  simp [CharFault, illegalChar, and_assoc]

theorem forall_mem_iff_nth {t : List Byte} {R : Byte → Prop} : (∀ c ∈ t, R c) ↔ ∀ p, p < t.length → R (nth t p) := by
  rw [List.forall_mem_iff_getElem]
  exact forall₂_congr fun p hp => by rw [nth_eq_getElem t p hp]

/-- `FromText` succeeds with units exactly when the text has no illegal character and they are its units (R172). -/
theorem fromText_eq_ok_iff {r : ReverseTable} {t u : List Byte} :
    fromText r t = .ok u ↔ (∀ p, ¬ CharFault r t p) ∧ UnitsOf r t u := by
  rw [no_charFault_iff, ← forall_mem_iff_nth (R := (illegalChar r · = false)), ← firstIllegal_eq_none r 0,
    ← textUnits_eq_iff, fromText]
  cases firstIllegal r 0 t <;> simp

/-- `FromText` succeeds on a text without an illegal character (R172). -/
theorem fromText_of_no_charFault {r : ReverseTable} {t : List Byte} (h : ∀ p, ¬ CharFault r t p) :
    fromText r t = .ok (textUnits r t) := fromText_eq_ok_iff.mpr ⟨h, textUnits_eq_iff.mp rfl⟩

/-! ### The two functions under an alphabet (R175) -/

section
variable {f : ForwardTable} {r : ReverseTable}

/-- Under an alphabet the symbol of an index is the legal character that has the index in REV (R46, R47). -/
theorem AlphabetOk.symbolOf_eq_some_iff (h : AlphabetOk f r) {i : Nat} {c : Byte} :
    symbolOf f i = some c ↔ illegalChar r c = false ∧ revIdx r c = i := by
  have hlegal := h.illegalChar_iff c
  constructor
  · intro hsym
    have hi := symbolOf_eq_some_lt hsym
    obtain rfl : symbolAt f ⟨i, hi⟩ = c := Option.some.inj ((symbolOf_of_lt f i hi).symm.trans hsym)
    have hcode := symbolAt_toNat f ⟨i, hi⟩
    have hrange := h.range ⟨i, hi⟩
    refine ⟨Bool.eq_false_iff.mpr fun hbad => ?_, ?_⟩
    · have := hlegal.mp hbad
      omega
    · rw [revIdx, h.revEntry_symbol ⟨i, hi⟩ _ hcode.symm, validEntry_idx i hi]
  · rintro ⟨hok, rfl⟩
    rw [← Bool.not_eq_true, hlegal] at hok
    obtain ⟨j, hj⟩ := h.surjective c.toNat (by omega) (by omega)
    rw [revIdx, h.revEntry_symbol j c hj, validEntry_idx j j.isLt, symbolOf_of_lt f j j.isLt]
    exact congrArg some (BitVec.eq_of_toNat_eq ((symbolAt_toNat f j).trans hj))

theorem AlphabetOk.revIdx_lt_of_legal (h : AlphabetOk f r) {c : Byte} (hc : illegalChar r c = false) : revIdx r c < 94 :=
  symbolOf_eq_some_lt (h.symbolOf_eq_some_iff.mpr ⟨hc, rfl⟩)

/-- Two bytes are the high and the low byte of a value exactly when their pair has it. -/
theorem eq_bytes_iff_pairValue {v : Nat} (hv : v < 2 ^ 16) {hi lo : Byte} :
    hi = BitVec.ofNat 8 (v / 256) ∧ lo = BitVec.ofNat 8 (v % 256) ↔ pairValue hi lo = v := by
  have hhi := hi.isLt
  have hlo := lo.isLt
  rw [← BitVec.toNat_inj, ← BitVec.toNat_inj, BitVec.toNat_ofNat, BitVec.toNat_ofNat, pairValue]
  omega

/-- Two characters are a pair's symbols exactly when they are legal and the pair is their units (R170, R172):
`v ↦ (v div 94, v mod 94)` is a bijection from 0..8835. -/
theorem AlphabetOk.pair_symbols_iff (h : AlphabetOk f r) {hi lo c0 c1 : Byte} :
    symbolOf f (pairValue hi lo / 94) = some c0 ∧ symbolOf f (pairValue hi lo % 94) = some c1 ↔
    (illegalChar r c0 = false ∧ illegalChar r c1 = false) ∧
      hi = BitVec.ofNat 8 ((revIdx r c0 * 94 + revIdx r c1) / 256) ∧
      lo = BitVec.ofNat 8 ((revIdx r c0 * 94 + revIdx r c1) % 256) := by
  rw [h.symbolOf_eq_some_iff, h.symbolOf_eq_some_iff, and_and_and_comm]
  refine and_congr_right fun ⟨h0, h1⟩ => ?_
  have hidx0 := h.revIdx_lt_of_legal h0
  have hidx1 := h.revIdx_lt_of_legal h1
  rw [eq_bytes_iff_pairValue (by omega)]
  omega

/-- A character is a lone unit's symbol exactly when it is legal and the unit is its index (R170, R172). -/
theorem AlphabetOk.lone_symbol_iff (h : AlphabetOk f r) {x c : Byte} :
    symbolOf f x.toNat = some c ↔ illegalChar r c = false ∧ x = BitVec.ofNat 8 (revIdx r c) := by
  rw [h.symbolOf_eq_some_iff]
  refine and_congr_right fun hc => ?_
  have hidx := h.revIdx_lt_of_legal hc
  rw [← BitVec.toNat_inj, BitVec.toNat_ofNat]
  omega

/-- Under an alphabet a text is the text of some units exactly when it has no illegal character and they are its units
(R175). -/
theorem AlphabetOk.textOf_iff_unitsOf (h : AlphabetOk f r) {u t : List Byte} :
    TextOf f u t ↔ (∀ p, ¬ CharFault r t p) ∧ UnitsOf r t u := by
  rw [no_charFault_iff, forall_lt_iff_by_pairs]
  constructor
  · rintro ⟨hlen, hpairs, hlone⟩
    rw [← hlen] at hpairs hlone
    have hpairs := fun i hi => h.pair_symbols_iff.mp (hpairs i hi)
    have hlone := fun hodd => h.lone_symbol_iff.mp (hlone hodd)
    exact ⟨⟨fun i hi => (hpairs i hi).1, fun hodd => (hlone hodd).1⟩,
      hlen.symm, fun i hi => (hpairs i hi).2, fun hodd => (hlone hodd).2⟩
  · rintro ⟨⟨hlegal, hlegalLone⟩, hlen, hpairs, hlone⟩
    rw [← hlen] at hlegal hlegalLone hpairs hlone
    exact ⟨hlen.symm, fun i hi => h.pair_symbols_iff.mpr ⟨hlegal i hi, hpairs i hi⟩,
      fun hodd => h.lone_symbol_iff.mpr ⟨hlegalLone hodd, hlone hodd⟩⟩

/-- Under an alphabet `FromText` is `ToText`'s inverse, in both directions (R175). -/
theorem AlphabetOk.toText_eq_ok_iff_fromText (h : AlphabetOk f r) {u t : List Byte} :
    toText f u = .ok t ↔ fromText r t = .ok u := by
  rw [toText_eq_ok_iff, h.textOf_iff_unitsOf, fromText_eq_ok_iff]

end

/-! ### What PACK emits (R176) -/

/-- A lone tail unit holds at most 6 bits, and a tail pair at most 12 (R145). -/
theorem two_pow_tailWidth_le_of_units (m : Nat) : 2 ^ tailWidth m ≤ if m ≤ 6 then 2 ^ 6 else 2 ^ 12 := by
  rcases tailWidth_cases m with ⟨hm, hw⟩ | ⟨hm, hm', hw⟩ | ⟨hm, hm', hw⟩ | ⟨hm, hw⟩ <;> rw [hw] <;> split <;> omega

/-- PACK's pairs have at most 13 bits, and its lone tail unit at most 6: the checks of R152 on a buffer that
unpacks, and so on a pack. -/
theorem packUnits_ranges (b : List Byte) :
    (∀ k, 2 * k + 1 < (packUnits b).length →
      pairValue (nth (packUnits b) (2 * k)) (nth (packUnits b) (2 * k + 1)) ≤ 8191) ∧
    ((packUnits b).length % 2 = 1 → (nth (packUnits b) ((packUnits b).length - 1)).toNat ≤ 63) := by
  rcases Nat.eq_zero_or_pos b.length with hb | hb
  · obtain rfl := List.length_eq_zero_iff.mp hb
    exact ⟨fun k hk => absurd hk (Nat.not_lt_zero _), fun h => absurd h (by decide)⟩
  · obtain ⟨⟨-, hlen, hvalue, -⟩, -⟩ := (packUnits_eq_iff_unpackable hb (packUnits_length b)).mp rfl
    obtain ⟨hpairs, htail⟩ := (no_valueFault_iff _ _).mp hvalue
    have hcases := unitLength_cases b.length
    have hwidth := two_pow_tailWidth_le_of_units (residue b.length)
    rw [tailUnits] at htail
    refine ⟨fun k hk => ?_, fun hodd => ?_⟩
    · have hlo := (nth (packUnits b) (2 * k + 1)).isLt
      rw [pairValue]
      rcases Nat.lt_or_ge k (groupCount b.length) with hgroup | hlast
      · have hhi := hpairs k hgroup
        omega
      · rw [if_neg (by omega)] at htail hwidth
        rw [lastTwo, show (packUnits b).length - 2 = 2 * k by omega,
          show (packUnits b).length - 1 = 2 * k + 1 by omega] at htail
        omega
    · rw [if_pos (by omega)] at htail hwidth
      omega

/-! ### The commands -/

/-- TO_TEXT of a length within the capacity yields the text of UNIT's content, when that has one (R171). -/
theorem toTextExec_ok {s : State} {t : List Byte} (h : s.unitLen.toNat ≤ unitCap s.rawCap)
    (ht : toText s.fwd (s.content .unit) = .ok t) : toTextExec s = .ok { text := some t } := by
  rw [toTextExec_eq, State.source_ok (a := .unit) h]
  dsimp only [Except.bind]
  rw [ht]
  rfl

/-- FROM_TEXT of a length within the capacity yields the units of TEXT's content, when that has no illegal character (R173). -/
theorem fromTextExec_ok {s : State} {u : List Byte} (h : s.textLen.toNat ≤ unitCap s.rawCap)
    (hu : fromText s.rev (s.content .text) = .ok u) : fromTextExec s = .ok { unit := some u } := by
  rw [fromTextExec_eq, State.source_ok (a := .text) h]
  dsimp only [Except.bind]
  rw [hu]
  rfl

/-- The length register of a content takes its length, whatever it held (R114). -/
theorem newLength_of_length_eq {old w : Word} {v : List Byte} (h : v.length = w.toNat) : newLength old (some v) = w := by
  rw [newLength_some, h, BitVec.ofNat_toNat, BitVec.setWidth_eq]

/-! ### The obligations -/

/-- Settles O40: under an alphabet the two functions are each other's inverse, by `AlphabetOk.toText_eq_ok_iff_fromText`. -/
theorem textIsBijective : Obligations.TextIsBijective := by
  refine ⟨fun f u t h => ?_, fun r t u h => ?_, fun f r h => ⟨fun u hu => ?_, fun t u htu => ?_, fun t ht => ?_⟩⟩
  · have hlen := (toText_eq_ok_iff.mp h).1
    omega
  · exact (fromText_eq_ok_iff.mp h).2.1
  · obtain ⟨t, ht⟩ := exists_textOf f hu
    have hto := toText_eq_ok_iff.mpr ht
    exact ⟨t, hto, h.toText_eq_ok_iff_fromText.mp hto⟩
  · have hto := h.toText_eq_ok_iff_fromText.mpr htu
    exact ⟨(toText_eq_ok_iff.mp hto).no_indexFault, hto⟩
  · refine ⟨_, fromText_of_no_charFault (no_charFault_iff.mpr fun p hp => ?_)⟩
    obtain ⟨i, hi⟩ := ht p hp
    exact (h.symbolOf_eq_some_iff.mp (hi ▸ symbolOf_of_lt f i i.isLt)).1

/-- Settles O41: the ranges of PACK's units. -/
theorem packOutputHasSymbols : Obligations.PackOutputHasSymbols := by
  intro b
  obtain ⟨hpairs, hlone⟩ := packUnits_ranges b
  exact ⟨fun k hk => ⟨hpairs k hk, Nat.div_le_div_right (hpairs k hk)⟩, hlone, fun f => toText_packUnits_ok f b⟩

/-- Settles O20: TO_TEXT yields a new content of TEXT alone. -/
theorem toTextCompletes : Obligations.ToTextCompletes := by
  intro s hcap hindex
  obtain ⟨t, ht⟩ := exists_textOf s.fwd hindex
  have hlen : t.length = s.unitLen.toNat := ht.1.trans (s.content_length .unit)
  obtain ⟨hexec, hcontent, houtside⟩ :=
    exec_of_newContent (i := .toText) (a := .text) (toTextExec_ok hcap (toText_eq_ok_iff.mpr ht)) rfl
      fun a w hw => by cases a <;> cases hw; rfl
  refine ⟨_, hexec, ?_, by rwa [hcontent], hlen ▸ houtside⟩
  rw [State.apply, newLength_of_length_eq hlen]
  rfl

/-- Settles O21: FROM_TEXT yields a new content of UNIT alone. -/
theorem fromTextCompletes : Obligations.FromTextCompletes := by
  intro s hcap hchars
  obtain ⟨u, hu⟩ : ∃ u, UnitsOf s.rev (s.content .text) u := ⟨_, textUnits_eq_iff.mp rfl⟩
  have hlen : u.length = s.textLen.toNat := hu.1.trans (s.content_length .text)
  obtain ⟨hexec, hcontent, houtside⟩ :=
    exec_of_newContent (i := .fromText) (a := .unit) (fromTextExec_ok hcap (fromText_eq_ok_iff.mpr ⟨hchars, hu⟩)) rfl
      fun a w hw => by cases a <;> cases hw; rfl
  refine ⟨_, hexec, ?_, by rwa [hcontent], hlen ▸ houtside⟩
  rw [State.apply, newLength_of_length_eq hlen]
  rfl

end Sys2Proof.Machine

/-! PROOFS. The family `44_composite`: ENCODE (R190), DECODE (R191) and NOP (R192), the commands with an empty source (R193),
and the round trip (R194). What a successful command shows of its updates, and what the composite commands yield by the values
of their stages, come first, then the obligations.
-/

namespace Sys2Proof.Machine

/-! ### Successful commands -/

/-- A command whose function yields updates completes with them: each new content is in place, and a byte outside every new
content reads as before (R111, R114). -/
theorem exec_of_updates {i : Instr} {s : State} {u : Updates} (h : commandResult i s = .ok u) :
    exec i s = .next (s.apply u).succeed ∧ (∀ a v, u.get a = some v → (s.apply u).succeed.content a = v) ∧
      ∀ x, (∀ a v, u.get a = some v → x < a.base ∨ a.base + v.length ≤ x) →
        (s.apply u).succeed.byteAt x = s.byteAt x :=
  ⟨by rw [exec_eq, h, State.complete_ok], fun _ _ hv => (s.succeed_apply_get (commandResult_fits h) hv).2,
    s.apply_byteAt_outside u⟩

/-- A command that completes with the code NONE applied its updates. -/
theorem exists_updates_of_exec {i : Instr} {s t : State} (hexec : exec i s = .next t) (hok : t.errCode = 0#4) :
    ∃ u, commandResult i s = .ok u ∧ t = (s.apply u).succeed := by
  cases exec_next hexec
  exact State.complete_errCode_zero hok

/-- A new content is the operand of the next command that reads its array: it is within the capacity (R119, R120). -/
theorem State.source_of_updates {i : Instr} {s : State} {u : Updates} {a : Arr} {v : List Byte}
    (h : commandResult i s = .ok u) (hv : u.get a = some v) : (s.apply u).succeed.source a = .ok v := by
  have hfits := commandResult_fits h
  obtain ⟨hlen, hcontent⟩ := s.succeed_apply_get hfits hv
  have hcap : ((s.apply u).succeed.len a).toNat ≤ s.cap a := by
    rw [hlen, BitVec.toNat_ofNat]
    exact (Nat.mod_le _ _).trans (hfits a v hv)
  rw [State.source_ok hcap, hcontent]

/-! ### The commands by the values of their stages (R190, R191) -/

/-- ENCODE yields the units of its operand and their text (R190). -/
theorem encodeExec_ok {s : State} {b t : List Byte} (hb : s.source .raw = .ok b)
    (ht : toText s.fwd (packUnits b) = .ok t) :
    encodeExec s = .ok { unit := some (packUnits b), text := some t } := by
  rw [encodeExec_eq, hb]
  dsimp only [Except.bind]
  rw [ht]
  rfl

/-- DECODE yields the units of its operand and the bytes they unpack to (R191). -/
theorem decodeExec_ok {s : State} {t u b : List Byte} (ht : s.source .text = .ok t) (hu : fromText s.rev t = .ok u)
    (hb : unpackUnits u = .ok b) : decodeExec s = .ok { unit := some u, raw := some b } := by
  rw [decodeExec_eq, ht]
  dsimp only [Except.bind]
  rw [hu]
  dsimp only
  rw [hb]
  rfl

/-- PACK's updates and then TO_TEXT's are ENCODE's. -/
theorem State.apply_unit_text (s : State) (u t : List Byte) :
    ((s.apply { unit := some u }).succeed.apply { text := some t }).succeed =
      (s.apply { unit := some u, text := some t }).succeed := rfl

/-- FROM_TEXT's updates and then UNPACK's are DECODE's. -/
theorem State.apply_unit_raw (s : State) (u b : List Byte) :
    ((s.apply { unit := some u }).succeed.apply { raw := some b }).succeed =
      (s.apply { unit := some u, raw := some b }).succeed := rfl

/-- An operand and a stage's function that succeed together, taken apart. -/
theorem exists_of_bind_map_eq_ok {α β γ : Type} {x : Checked α} {f : α → Checked β} {g : β → γ} {c : γ}
    (h : (x.bind fun a => (f a).map g) = .ok c) : ∃ a b, x = .ok a ∧ f a = .ok b ∧ g b = c := by
  cases x with
  | error e => cases h
  | ok a =>
    change (f a).map g = .ok c at h
    cases hb : f a with
    | error e => rw [hb] at h; cases h
    | ok b => rw [hb] at h; exact ⟨a, b, rfl, hb, Except.ok.inj h⟩

/-! ### Empty sources (R193) -/

/-- The updates that empty each destination of a command. -/
def emptyUpdates (i : Instr) : Updates where
  raw := if .raw ∈ destinationsOf i then some [] else none
  unit := if .unit ∈ destinationsOf i then some [] else none
  text := if .text ∈ destinationsOf i then some [] else none

theorem eq_nil_of_emptyUpdates_get {i : Instr} {a : Arr} {v : List Byte} (h : (emptyUpdates i).get a = some v) :
    v = [] := by
  cases a with
  | stage => cases h
  | raw | unit | text => exact (Option.some.inj (Option.ite_none_right_eq_some.mp h).2).symm

theorem newLength_emptied (old : Word) (c : Prop) [Decidable c] :
    newLength old (if c then some [] else none) = if c then 0#32 else old := by
  split <;> rfl

theorem Memory.update_emptied {m : Memory} (h : m.wf) (a : Arr) (c : Prop) [Decidable c] :
    m.update a (if c then some [] else none) = m := by
  split
  · exact m.store_nil a.base h
  · rfl

theorem State.source_of_len_eq_zero {s : State} {a : Arr} (h : s.len a = 0#32) : s.source a = .ok [] := by
  have hlen : (s.len a).toNat = 0 := congrArg BitVec.toNat h
  rw [State.source_ok (hlen ▸ Nat.zero_le _), State.content, hlen]
  rfl

/-- The commands with a length register, each with its source, empty their destinations when the source is empty. -/
theorem commandResult_of_empty_source {s : State} {i : Instr} {a : Arr}
    (hi : (i, a) ∈ [(Instr.pack, Arr.raw), (.encode, .raw), (.unpack, .unit), (.toText, .unit), (.fromText, .text),
      (.decode, .text)]) (h : s.len a = 0#32) : commandResult i s = .ok (emptyUpdates i) := by
  have hsource := State.source_of_len_eq_zero h
  simp only [List.mem_cons, Prod.mk.injEq, List.not_mem_nil, or_false] at hi
  rcases hi with ⟨rfl, rfl⟩ | ⟨rfl, rfl⟩ | ⟨rfl, rfl⟩ | ⟨rfl, rfl⟩ | ⟨rfl, rfl⟩ | ⟨rfl, rfl⟩
  · rw [commandResult, packExec_eq, hsource]; rfl
  · exact encodeExec_ok hsource rfl
  · rw [commandResult, unpackExec_eq, hsource]; rfl
  · rw [commandResult, toTextExec_eq, hsource]; rfl
  · rw [commandResult, fromTextExec_eq, hsource]; rfl
  · exact decodeExec_ok hsource rfl rfl

/-! ### The obligations -/

/-- Settles O17: the completion step of no updates. -/
theorem nopCompletes : Obligations.NopCompletes := fun s => exec_eq .nop s

/-- Settles O13: the updates are empty contents, which take up no address. -/
theorem emptySourceSucceeds : Obligations.EmptySourceSucceeds := by
  intro s i a hi hlen
  obtain ⟨hexec, -, houtside⟩ := exec_of_updates (commandResult_of_empty_source hi hlen)
  refine ⟨_, hexec, ?_, fun x => houtside x fun a v hv => ?_, fun hwf => ?_⟩
  · simp only [State.apply, emptyUpdates, newLength_emptied]
    rfl
  · rw [eq_nil_of_emptyUpdates_get hv, List.length_nil]
    omega
  · simp only [State.succeed_mem, State.apply_mem, emptyUpdates, Memory.update_emptied hwf]

/-- Settles O43: a stage's new content is the next stage's operand, and the updates of the two stages, applied one after the
other, are those of the composite. -/
theorem compositesAreTheirStages : Obligations.CompositesAreTheirStages := by
  refine ⟨fun s p hcap hpack => ?_, fun s p q hfromText hp hunpack hq => ?_⟩
  · obtain ⟨t, ht⟩ := toText_packUnits_ok s.fwd (s.content .raw)
    have hfirst : commandResult .pack s = .ok { unit := some (packUnits (s.content .raw)) } := packExec_ok hcap
    obtain rfl : p = (s.apply { unit := some (packUnits (s.content .raw)) }).succeed := by
      rw [exec_next hpack, hfirst, State.complete_ok]
    obtain ⟨-, hcontent, -⟩ := exec_of_updates hfirst
    have hsecond := toTextExec_ok (destinationsNeverOverflow .pack s _ hpack rfl .unit (.head _))
      (hcontent .unit _ rfl ▸ ht)
    rw [exec_eq, exec_eq, commandResult, commandResult, encodeExec_ok (State.source_ok (a := .raw) hcap) ht, hsecond,
      State.complete_ok, State.complete_ok, State.apply_unit_text]
  · obtain ⟨w, hfirst, rfl⟩ := exists_updates_of_exec hfromText hp
    have hstage := hfirst
    rw [commandResult, fromTextExec_eq] at hstage
    obtain ⟨t, u, ht, hu, rfl⟩ := exists_of_bind_map_eq_ok hstage
    obtain ⟨w, hsecond, rfl⟩ := exists_updates_of_exec hunpack hq
    rw [commandResult, unpackExec_eq, State.source_of_updates hfirst rfl] at hsecond
    obtain ⟨u', b, hu', hb, rfl⟩ := exists_of_bind_map_eq_ok hsecond
    obtain rfl : u = u' := Except.ok.inj hu'
    rw [exec_eq, commandResult, decodeExec_ok ht hu hb, State.complete_ok, State.apply_unit_raw]

/-- Settles O22: ENCODE yields new contents of UNIT and TEXT, of one length. -/
theorem encodeCompletes : Obligations.EncodeCompletes := by
  intro s hcap
  obtain ⟨t, ht⟩ := toText_packUnits_ok s.fwd (s.content .raw)
  have htext := toText_eq_ok_iff.mp ht
  have ⟨htextLen, _, _⟩ := htext
  have hlen : (packUnits (s.content .raw)).length = unitLength s.rawLen.toNat :=
    (packUnits_length _).trans (congrArg unitLength (s.content_length .raw))
  obtain ⟨hexec, hcontent, houtside⟩ :=
    exec_of_updates (i := .encode) (encodeExec_ok (State.source_ok (a := .raw) hcap) ht)
  refine ⟨_, hexec, ?_, hcontent .unit _ rfl, ?_, fun x hunit htextx => houtside x fun a v hv => ?_⟩
  · rw [State.apply, newLength_some, newLength_some, htextLen, hlen]
    rfl
  · rwa [hcontent .text _ rfl]
  · cases a with
    | unit => cases hv; rwa [hlen]
    | text => cases hv; rwa [htextLen, hlen]
    | raw | stage => cases hv

/-- Settles O23: DECODE yields new contents of UNIT and RAW, the second the bytes whose pack the first is. -/
theorem decodeCompletes : Obligations.DecodeCompletes := by
  intro s u n hcap hchars hunits hunpackable
  have ⟨hn, hu, _, _⟩ := hunpackable
  have hunit : u.length = s.textLen.toNat := hunits.1.trans (s.content_length .text)
  have hraw := unpackBytes_length_eq hn hu
  obtain ⟨hexec, hcontent, houtside⟩ := exec_of_updates (i := .decode) (decodeExec_ok (State.source_ok (a := .text) hcap)
    (fromText_eq_ok_iff.mpr ⟨hchars, hunits⟩) (unpackUnits_of_unpackable hunpackable))
  refine ⟨_, hexec, ?_, hcontent .unit _ rfl, ?_, fun x hunitx hrawx => houtside x fun a v hv => ?_⟩
  · rw [State.apply, newLength_of_length_eq hunit, newLength_some, hraw]
    rfl
  · rw [hcontent .raw _ rfl, packUnits_unpackBytes hunpackable]
  · cases a with
    | unit => cases hv; rwa [hunit]
    | raw => cases hv; rwa [hraw]
    | text | stage => cases hv

/-- Settles O44: `FromText` inverts `ToText` under the alphabet (R175), which ENCODE leaves alone, and UNPACK inverts PACK
(R158). -/
theorem encodeDecodeRoundTrip : Obligations.EncodeDecodeRoundTrip := by
  intro s halphabet hcap
  obtain ⟨text, ht⟩ := toText_packUnits_ok s.fwd (s.content .raw)
  have hencode : commandResult .encode s = .ok { unit := some (packUnits (s.content .raw)), text := some text } :=
    encodeExec_ok (State.source_ok (a := .raw) hcap) ht
  have hdecode : commandResult .decode (s.apply _).succeed = .ok
      { unit := some (packUnits (s.content .raw)), raw := some (s.content .raw) } :=
    decodeExec_ok (State.source_of_updates hencode (a := .text) rfl) (halphabet.toText_eq_ok_iff_fromText.mp ht)
      (unpackUnits_packUnits _)
  obtain ⟨hexec, -, -⟩ := exec_of_updates hencode
  obtain ⟨hexec', hcontent, -⟩ := exec_of_updates hdecode
  exact ⟨_, _, hexec, rfl, hexec', rfl, hcontent .raw _ rfl,
    newLength_of_length_eq (old := s.rawLen) (s.content_length .raw)⟩

end Sys2Proof.Machine

/-! PROOFS. The family `60_exceptions`: the error completion (R200), and each error with its code and `info` (R202 to R210). What a
command completes with when one of its stages fails comes first, then when each stage fails, then the obligations.
-/

namespace Sys2Proof.Machine

/-! ### Failing commands -/

/-- A command whose function fails completes with the error and changes nothing but the status (R111, R113). -/
theorem exec_of_error {i : Instr} {s : State} {e : CmdError} (h : commandResult i s = .error e) :
    exec i s = .next (failedWith s e.code.bits e.info) := by
  rw [exec_eq, h]
  rfl

/-- The code that a command leaves is one of its own (R201). -/
theorem errCode_mem_codesOf_of_exec {i : Instr} {s t : State} (h : exec i s = .next t) :
    t.errCode ∈ codesOf (opcode i) := by
  cases exec_next h
  have hyields := commandResult_yields i s
  cases hresult : commandResult i s with
  | ok u => exact zero_mem_codesOf_opcode i
  | error e =>
    rw [hresult] at hyields
    exact hyields

/-! ### Failing stages (R119, R190, R191) -/

/-- The commands with a length register, each with its source, pass on a failing length check. -/
theorem commandResult_of_source_error {s : State} {i : Instr} {a : Arr} {e : CmdError}
    (hi : (i, a) ∈ [(Instr.pack, Arr.raw), (.encode, .raw), (.unpack, .unit), (.toText, .unit), (.fromText, .text),
      (.decode, .text)]) (h : s.source a = .error e) : commandResult i s = .error e := by
  simp only [List.mem_cons, Prod.mk.injEq, List.not_mem_nil, or_false] at hi
  rcases hi with ⟨rfl, rfl⟩ | ⟨rfl, rfl⟩ | ⟨rfl, rfl⟩ | ⟨rfl, rfl⟩ | ⟨rfl, rfl⟩ | ⟨rfl, rfl⟩
  · rw [commandResult, packExec_eq, h]; rfl
  · rw [commandResult, encodeExec_eq, h]; rfl
  · rw [commandResult, unpackExec_eq, h]; rfl
  · rw [commandResult, toTextExec_eq, h]; rfl
  · rw [commandResult, fromTextExec_eq, h]; rfl
  · rw [commandResult, decodeExec_eq, h]; rfl

/-- TO_TEXT passes on the error of its function (R171). -/
theorem toTextExec_error {s : State} {e : CmdError} (hcap : s.unitLen.toNat ≤ unitCap s.rawCap)
    (h : toText s.fwd (s.content .unit) = .error e) : toTextExec s = .error e := by
  rw [toTextExec_eq, State.source_ok (a := .unit) hcap]
  dsimp only [Except.bind]
  rw [h]
  rfl

/-- FROM_TEXT passes on the error of its function (R173). -/
theorem fromTextExec_error {s : State} {e : CmdError} (hcap : s.textLen.toNat ≤ unitCap s.rawCap)
    (h : fromText s.rev (s.content .text) = .error e) : fromTextExec s = .error e := by
  rw [fromTextExec_eq, State.source_ok (a := .text) hcap]
  dsimp only [Except.bind]
  rw [h]
  rfl

/-- UNPACK passes on the error of its function (R157). -/
theorem unpackExec_error {s : State} {e : CmdError} (hcap : s.unitLen.toNat ≤ unitCap s.rawCap)
    (h : unpackUnits (s.content .unit) = .error e) : unpackExec s = .error e := by
  rw [unpackExec_eq, State.source_ok (a := .unit) hcap]
  dsimp only [Except.bind]
  rw [h]
  rfl

/-- DECODE passes on the error of its first stage (R191). -/
theorem decodeExec_error_of_fromText {s : State} {e : CmdError} (hcap : s.textLen.toNat ≤ unitCap s.rawCap)
    (h : fromText s.rev (s.content .text) = .error e) : decodeExec s = .error e := by
  rw [decodeExec_eq, State.source_ok (a := .text) hcap]
  dsimp only [Except.bind]
  rw [h]

/-- DECODE passes on the error of its second stage, for the units of its text (R191). -/
theorem decodeExec_error_of_unpackUnits {s : State} {u : List Byte} {e : CmdError}
    (hcap : s.textLen.toNat ≤ unitCap s.rawCap) (hchars : ∀ p, ¬ CharFault s.rev (s.content .text) p)
    (hunits : UnitsOf s.rev (s.content .text) u) (h : unpackUnits u = .error e) : decodeExec s = .error e := by
  rw [decodeExec_eq, State.source_ok (a := .text) hcap]
  dsimp only [Except.bind]
  rw [fromText_eq_ok_iff.mpr ⟨hchars, hunits⟩]
  dsimp only
  rw [h]
  rfl

/-! ### BUILD_ALPHABET's symbol check (R203) -/

/-- Symbol `k` of `cs` is out of 33..126, or repeats one of `seen` or an earlier one of `cs`: what the check of R130 looks for
when it has `seen` behind it and `cs` ahead. -/
def BadSymbol (seen cs : List Byte) (k : Nat) : Prop :=
  (nth cs k).toNat < 33 ∨ 126 < (nth cs k).toNat ∨ nth cs k ∈ seen ∨ ∃ j, j < k ∧ nth cs j = nth cs k

theorem badSymbol_zero {seen cs : List Byte} {c : Byte} :
    BadSymbol seen (c :: cs) 0 ↔ (c.toNat < 33 ∨ 126 < c.toNat) ∨ c ∈ seen := by
  simp [BadSymbol, nth, or_assoc]

/-- One symbol further on, the first is one of those behind. -/
theorem badSymbol_succ {seen cs : List Byte} {c : Byte} {k : Nat} :
    BadSymbol seen (c :: cs) (k + 1) ↔ BadSymbol (c :: seen) cs k := by
  simp only [BadSymbol, nth_cons_succ, List.mem_cons, Nat.exists_lt_succ_left, or_assoc]
  rw [show nth (c :: cs) 0 = c from rfl, eq_comm (a := c)]
  tauto

/-- The check reports the lowest bad symbol (R130). -/
theorem firstBadSymbol_eq_some {i k : Nat} {seen cs : List Byte} (hk : k < cs.length) (hbad : BadSymbol seen cs k)
    (hfirst : ∀ j, j < k → ¬ BadSymbol seen cs j) : firstBadSymbol i seen cs = some (i + k) := by
  induction cs generalizing i k seen with
  | nil => cases hk
  | cons c cs ih =>
    cases k with
    | zero =>
      rcases badSymbol_zero.mp hbad with hrange | hseen
      · rw [firstBadSymbol, if_pos hrange]
        rfl
      · rw [firstBadSymbol, if_pos hseen, ite_self]
        rfl
    | succ k =>
      obtain ⟨hrange, hseen⟩ := not_or.mp (badSymbol_zero.not.mp (hfirst 0 k.succ_pos))
      rw [firstBadSymbol, if_neg hrange, if_neg hseen, ih (Nat.lt_of_succ_lt_succ hk) (badSymbol_succ.mp hbad)
        fun j hj => badSymbol_succ.not.mp (hfirst (j + 1) (Nat.succ_lt_succ hj))]
      congr 1
      omega

/-- The faults of R203 are the staged alphabet's bad symbols. -/
theorem State.symbolFault_stage_iff (s : State) (i : Nat) :
    SymbolFault (s.elem .stage) i ↔ i < 94 ∧ BadSymbol [] (s.slice .stage 0 Config.alphabetSize) i := by
  refine and_congr_right fun hi => ?_
  have hearlier : (∃ j, j < i ∧ nth (s.slice .stage 0 Config.alphabetSize) j = s.elem .stage i) ↔
      ∃ j, j < i ∧ s.elem .stage j = s.elem .stage i :=
    exists_congr fun j => and_congr_right fun hj => by rw [s.nth_stage j (hj.trans hi)]
  rw [BadSymbol, s.nth_stage i hi, hearlier]
  simp

/-- BUILD_ALPHABET of 94 staged symbols fails at the lowest symbol at fault (R203). -/
theorem buildAlphabetExec_error {s : State} {i : Nat} (hlen : s.alphaLen = 94#32) (hfault : SymbolFault (s.elem .stage) i)
    (hfirst : ∀ j, j < i → ¬ SymbolFault (s.elem .stage) j) :
    buildAlphabetExec s = .error (errAt .invalidOrDuplicateSymbol i) := by
  have hsize : ¬ s.alphaLen ≠ BitVec.ofNat 32 Config.alphabetSize := not_not_intro hlen
  obtain ⟨hi, hbad⟩ := (s.symbolFault_stage_iff i).mp hfault
  have hsearch : firstBadSymbol 0 [] (s.slice .stage 0 Config.alphabetSize) = some i := by
    rw [firstBadSymbol_eq_some (k := i) (by rwa [State.slice_length]) hbad fun j hj hbad' =>
      hfirst j hj ((s.symbolFault_stage_iff j).mpr ⟨hj.trans hi, hbad'⟩), Nat.zero_add]
  rw [buildAlphabetExec, if_neg hsize, hsearch]

/-! ### `FromText` (R204) -/

/-- A fault of R204 is an illegal character of R172. -/
theorem charFault_iff {r : ReverseTable} {t : List Byte} {p : Nat} :
    CharFault r t p ↔ p < t.length ∧ illegalChar r (nth t p) = true := by
  simp [CharFault, illegalChar, or_assoc]

/-- `FromText` fails at the lowest illegal character (R172). -/
theorem fromText_of_charFault {r : ReverseTable} {t : List Byte} {p : Nat} (hfault : CharFault r t p)
    (hfirst : ∀ q, q < p → ¬ CharFault r t q) : fromText r t = .error (errAt .illegalCharacter p) := by
  obtain ⟨hp, hillegal⟩ := charFault_iff.mp hfault
  have hlegal (q : Nat) (hq : q < p) : illegalChar r (nth t q) = false :=
    Bool.eq_false_iff.mpr fun h => hfirst q hq (charFault_iff.mpr ⟨hq.trans hp, h⟩)
  rw [fromText, firstIllegal_eq_some r 0 p t hp hillegal hlegal, Nat.zero_add]

/-! ### `UnpackUnits` (R205 to R207) -/

/-- An error whose `info` is the value of a register. -/
theorem errAt_toNat (code : ErrCode) (w : Word) : errAt code w.toNat = ⟨code, w⟩ := by
  rw [errAt, BitVec.ofNat_toNat, BitVec.setWidth_eq]

/-- `UnpackUnits` fails on a length, the register's `w`, that no pack gives (R151, R155). -/
theorem unpackUnits_of_malformedLength {u : List Byte} {w : Word} (hu : u.length = w.toNat) (hpos : w ≠ 0#32)
    (h : ∀ n, 1 ≤ n → w.toNat ≠ unitLength n) : unpackUnits u = .error ⟨.malformedLength, w⟩ := by
  have hlen : u.length ≠ 0 := hu ▸ BitVec.toNat_ne_iff_ne.mpr hpos
  have hinvalid : ¬ lengthValid (geometry u.length) = true := by
    rw [lengthValid_geometry_iff (Nat.one_le_iff_ne_zero.mpr hlen), hu]
    exact fun ⟨n, hn, heq⟩ => h n hn heq
  rw [← errAt_toNat, ← hu, unpackUnits, if_neg hlen]
  exact if_neg hinvalid

section
variable {n p : Nat} {u : List Byte}

/-- Of a buffer of a valid length, `UnpackUnits` reports the lowest member of `bad`, or else the redundancy check's index, or
else has the bytes built from it (R155). -/
theorem unpackUnits_of_length (hn : 1 ≤ n) (hu : u.length = unitLength n) : unpackUnits u =
    (badUnits (geometry u.length) u).min?.elim
      ((badRedundancy (geometry u.length) u (unpackBytes (geometry u.length) u)).elim
        (.ok (unpackBytes (geometry u.length) u)) fun i => .error (errAt .malformedRedundant i))
      fun i => .error (errAt .malformedValue i) := by
  have hlen : u.length ≠ 0 := by
    have := unitLength_cases n
    omega
  have hvalid := (lengthValid_geometry_iff (Nat.one_le_iff_ne_zero.mpr hlen)).mpr ⟨n, hn, hu⟩
  rw [unpackUnits, if_neg hlen]
  dsimp only
  rw [if_pos hvalid]
  cases (badUnits (geometry u.length) u).min? with
  | some i => rfl
  | none => cases badRedundancy (geometry u.length) u (unpackBytes (geometry u.length) u) <;> rfl

/-- The lowest member of `bad` is the lowest value fault (R155). -/
theorem badUnits_min?_eq_some_iff (hn : 1 ≤ n) (hu : u.length = unitLength n) :
    (badUnits (geometry u.length) u).min? = some p ↔ ValueFault n u p ∧ ∀ q, q < p → ¬ ValueFault n u q := by
  simp only [List.min?_eq_some_iff, mem_badUnits_iff hn hu]
  exact and_congr_right fun _ => forall_congr' fun q => ⟨fun h hlt hq => absurd (h hq) (not_le.mpr hlt),
    fun h hq => not_lt.mp fun hlt => h hlt hq⟩

theorem badUnits_min?_eq_none_iff (hn : 1 ≤ n) (hu : u.length = unitLength n) :
    (badUnits (geometry u.length) u).min? = none ↔ ∀ q, ¬ ValueFault n u q := by
  simp only [List.min?_eq_none_iff, List.eq_nil_iff_forall_not_mem, mem_badUnits_iff hn hu]

/-- `UnpackUnits` fails at the lowest unit out of its range (R152, R155). -/
theorem unpackUnits_of_valueFault (hn : 1 ≤ n) (hu : u.length = unitLength n) (hfault : ValueFault n u p)
    (hfirst : ∀ q, q < p → ¬ ValueFault n u q) : unpackUnits u = .error (errAt .malformedValue p) := by
  rw [unpackUnits_of_length hn hu, (badUnits_min?_eq_some_iff hn hu).mpr ⟨hfault, hfirst⟩]
  rfl

/-- `UnpackUnits` fails at the tail unit that disagrees with the last group, when no unit is out of its range (R154, R155). -/
theorem unpackUnits_of_redundancyFault (hn : 1 ≤ n) (hu : u.length = unitLength n) (hvalues : ∀ q, ¬ ValueFault n u q)
    (hfault : RedundancyFault n u (unpackBytes (geometry (unitLength n)) u) p) :
    unpackUnits u = .error (errAt .malformedRedundant p) := by
  rw [← hu, ← badRedundancy_eq_some_iff hn hu] at hfault
  rw [unpackUnits_of_length hn hu, (badUnits_min?_eq_none_iff hn hu).mpr hvalues, hfault]
  rfl

end

/-! ### `ToText` (R208) -/

theorem indexFault_singleton {x : Byte} {p : Nat} : IndexFault [x] p ↔ p = 0 ∧ 94 ≤ x.toNat := by
  constructor
  · rintro (⟨-, hp, -⟩ | ⟨-, hp, hx⟩)
    · exact absurd hp (by simp)
    · obtain rfl : p = 0 := by simpa using hp
      exact ⟨rfl, hx⟩
  · rintro ⟨rfl, hx⟩
    exact .inr ⟨rfl, rfl, hx⟩

theorem indexFault_cons_cons_zero {hi lo : Byte} {u : List Byte} :
    IndexFault (hi :: lo :: u) 0 ↔ 8836 ≤ pairValue hi lo := by
  simp [IndexFault, pairValue, nth]

/-- The second unit of a pair is no position. -/
theorem not_indexFault_cons_cons_one {hi lo : Byte} {u : List Byte} : ¬ IndexFault (hi :: lo :: u) 1 := by
  simp only [IndexFault, List.length_cons]
  omega

/-- Below a first pair the positions move by 2. -/
theorem indexFault_cons_cons_add_two {hi lo : Byte} {u : List Byte} {p : Nat} :
    IndexFault (hi :: lo :: u) (p + 2) ↔ IndexFault u p := by
  simp only [IndexFault, List.length_cons, nth_cons_succ]
  omega

/-- `ToText` fails at the lowest position without a symbol (R170). -/
theorem toTextFrom_of_indexFault {f : ForwardTable} {i p : Nat} {u : List Byte} (hfault : IndexFault u p)
    (hfirst : ∀ q, q < p → ¬ IndexFault u q) : toTextFrom f i u = .error (errAt .indexRange (i + p)) := by
  match u with
  | [] => rcases hfault with ⟨-, hp, -⟩ | ⟨-, hp, -⟩ <;> cases hp
  | [x] =>
    obtain ⟨rfl, hx⟩ := indexFault_singleton.mp hfault
    rw [toTextFrom, symbolOf_of_ge f _ hx]
    rfl
  | hi :: lo :: rest =>
    match p with
    | 0 =>
      have hvalue := indexFault_cons_cons_zero.mp hfault
      rw [pairValue] at hvalue
      rw [toTextFrom, symbolOf_of_ge f _ (by omega)]
      rfl
    | 1 => exact absurd hfault not_indexFault_cons_cons_one
    | p + 2 =>
      have hvalue := indexFault_cons_cons_zero.not.mp (hfirst 0 (by omega))
      rw [pairValue] at hvalue
      have hrest : toTextFrom f (i + 2) rest = .error (errAt .indexRange (i + 2 + p)) :=
        toTextFrom_of_indexFault (indexFault_cons_cons_add_two.mp hfault)
          fun q hq => indexFault_cons_cons_add_two.not.mp (hfirst (q + 2) (by omega))
      rw [toTextFrom, symbolOf_of_lt f _ (by omega)]
      dsimp only
      rw [hrest]
      dsimp only
      rw [show i + 2 + p = i + (p + 2) by omega]

/-! ### The obligations -/

/-- Settles O6: the word decodes to no command, so the engine's step is its completion with BAD_COMMAND. -/
theorem illegalWordCompletesBadCommand : Obligations.IllegalWordCompletesBadCommand := by
  intro s hbusy hturn hillegal
  rw [step_of_engineTurn (s.engineTurn_iff.mpr ⟨hbusy, hturn⟩), State.engineStep]
  cases hdec : decode s.pending with
  | ok i =>
    have hlegal := (decodeExactlyTheLegalWords.2 s.pending).mp ⟨i, hdec⟩
    omega
  | error _ => rfl

/-- Settles O26: the size check, then the symbol check. -/
theorem buildAlphabetErrors : Obligations.BuildAlphabetErrors :=
  ⟨fun _ hlen => exec_of_error (i := .buildAlphabet) (if_pos hlen),
    fun _ _ hlen hfault hfirst => exec_of_error (i := .buildAlphabet) (buildAlphabetExec_error hlen hfault hfirst)⟩

/-- Settles O27: both commands pass on the error of `FromText`. -/
theorem illegalCharacterReported : Obligations.IllegalCharacterReported := by
  intro s p hcap hfault hfirst
  have hstage := fromText_of_charFault hfault hfirst
  exact ⟨exec_of_error (i := .fromText) (fromTextExec_error hcap hstage),
    exec_of_error (i := .decode) (decodeExec_error_of_fromText hcap hstage)⟩

/-- Settles O28: both commands pass on the error of `UnpackUnits`, whose operand has the length of the register. -/
theorem malformedLengthReported : Obligations.MalformedLengthReported := by
  refine ⟨fun s hcap hpos hlen => ?_, fun s hcap hpos hchars hlen => ?_⟩
  · have hstage := unpackUnits_of_malformedLength (s.content_length .unit) hpos hlen
    exact exec_of_error (i := .unpack) (unpackExec_error hcap hstage)
  · obtain ⟨u, hunits⟩ : ∃ u, UnitsOf s.rev (s.content .text) u := ⟨_, textUnits_eq_iff.mp rfl⟩
    have hu : u.length = s.textLen.toNat := hunits.1.trans (s.content_length .text)
    have hstage := unpackUnits_of_malformedLength hu hpos hlen
    exact exec_of_error (i := .decode) (decodeExec_error_of_unpackUnits hcap hchars hunits hstage)

/-- Settles O29: both commands pass on the error of `UnpackUnits`. -/
theorem malformedValueReported : Obligations.MalformedValueReported := by
  refine ⟨fun s n p hn hlen hcap hfault hfirst => ?_, fun s u n p hn hlen hcap hchars hunits hfault hfirst => ?_⟩
  · have hu : (s.content .unit).length = unitLength n := (s.content_length .unit).trans hlen
    have hstage := unpackUnits_of_valueFault hn hu hfault hfirst
    exact exec_of_error (i := .unpack) (unpackExec_error hcap hstage)
  · have hu : u.length = unitLength n := (hunits.1.trans (s.content_length .text)).trans hlen
    have hstage := unpackUnits_of_valueFault hn hu hfault hfirst
    exact exec_of_error (i := .decode) (decodeExec_error_of_unpackUnits hcap hchars hunits hstage)

/-- Settles O30: both commands pass on the error of `UnpackUnits`. -/
theorem malformedRedundantReported : Obligations.MalformedRedundantReported := by
  refine ⟨fun s n p hn hlen hcap hvalues hfault => ?_, fun s u n p hn hlen hcap hchars hunits hvalues hfault => ?_⟩
  · have hu : (s.content .unit).length = unitLength n := (s.content_length .unit).trans hlen
    have hstage := unpackUnits_of_redundancyFault hn hu hvalues hfault
    exact exec_of_error (i := .unpack) (unpackExec_error hcap hstage)
  · have hu : u.length = unitLength n := (hunits.1.trans (s.content_length .text)).trans hlen
    have hstage := unpackUnits_of_redundancyFault hn hu hvalues hfault
    exact exec_of_error (i := .decode) (decodeExec_error_of_unpackUnits hcap hchars hunits hstage)

/-- Settles O31: TO_TEXT passes on the error of `ToText`, and 7 is no code of ENCODE's. -/
theorem indexRangeReported : Obligations.IndexRangeReported := by
  refine ⟨fun s p hcap hfault hfirst => ?_, fun s t hexec hcode => ?_⟩
  · have hstage : toText s.fwd (s.content .unit) = .error (errAt .indexRange p) := by
      rw [toText, toTextFrom_of_indexFault hfault hfirst, Nat.zero_add]
    exact exec_of_error (i := .toText) (toTextExec_error hcap hstage)
  · have hmem := errCode_mem_codesOf_of_exec hexec
    rw [hcode] at hmem
    revert hmem
    decide

/-- Settles O12: each of the six commands passes on the failing length check. -/
theorem lengthOverflowReported : Obligations.LengthOverflowReported :=
  fun _ _ _ hi hlen => exec_of_error (commandResult_of_source_error hi (State.source_overflow hlen))

end Sys2Proof.Machine

/-! PROOFS. The family `70_reset_and_hazards`: the two reset sources leave one block (R240), its registers, tables and constants
(R241, R243), and what becomes of a pending command (R242). The block right after a reset comes first, then the obligations.
-/

namespace Sys2Proof.Machine

/-! ### The reset sources (R240) -/

/-- A write of 1 to `CTRL` is the soft reset, busy or not (R28). -/
theorem State.memWrite_softReset (s : State) : s.memWrite 0x00010#18 1#32 = (s.resetBlock, .okay) :=
  (controlRegister s 1#32).1 rfl

theorem State.perform_resetPin_sameBlock (s : State) : SameBlock s.resetBlock (s.perform .resetPin) :=
  sameBlock_of_ownFields _ _ _ _ _

theorem State.perform_softReset_sameBlock (s : State) : SameBlock s.resetBlock (s.perform (.wr 0x00010#18 1#32)) := by
  have hwrite := (s.hostWr_transaction 0x00010#18 1#32).2
  rwa [s.memWrite_softReset] at hwrite

/-- A reset source of R240 leaves the block of `State.resetBlock`. -/
theorem SameBlock.of_resetSource {s t : State}
    (h : t = s.resetBlock ∨ t = (s.memWrite 0x00010#18 1#32).1 ∨ t = s.perform .resetPin) : SameBlock s.resetBlock t := by
  rcases h with rfl | rfl | rfl
  · exact sameBlock_of_ownFields s.resetBlock _ _ _ _
  · rw [s.memWrite_softReset]
    exact sameBlock_of_ownFields s.resetBlock _ _ _ _
  · exact s.perform_resetPin_sameBlock

/-! ### The block right after a reset (R241, R243) -/

/-- The block is as right after the first reset, but for the parameter and the count of resets. -/
def AfterReset (t : State) : Prop := SameBlock { State.reset with rawCap := t.rawCap, resets := t.resets } t

theorem afterReset_reset : AfterReset State.reset := sameBlock_of_ownFields State.reset _ _ _ _

theorem SameBlock.afterReset {s t : State} (h : SameBlock s.resetBlock t) : AfterReset t :=
  { h with
    resets := rfl
    rawCap := rfl }

/-- A register reads the block's state alone (R24 to R39). -/
theorem SameBlock.readReg {s t : State} (h : SameBlock s t) (r : Reg) : t.readReg r = s.readReg r := by
  cases r with
  | id | ctrl | cmd => rfl
  | rawCapReg | unitCapReg => simp only [State.readReg, h.rawCap]
  | status => simp only [State.readReg, State.statusWord, State.err, h.busy, h.errCode, h.dropped, h.lastOp]
  | errCode => simp only [State.readReg, State.errCodeWord, h.errCode]
  | errInfo => exact h.errInfo
  | irqStatus => simp only [State.readReg, State.irqStatusWord, h.irqDone, h.irqError]
  | irqEnable => simp only [State.readReg, State.irqEnableWord, h.doneEn, h.errorEn]
  | rawLen => exact h.rawLen
  | unitLen => exact h.unitLen
  | textLen => exact h.textLen
  | alphaLen => exact h.alphaLen

/-- Every register but the three constants reads 0 after a reset (R241). -/
theorem AfterReset.readReg {t : State} (h : AfterReset t) {r : Reg} (hr : r ∉ [Reg.id, .rawCapReg, .unitCapReg]) :
    t.readReg r = 0#32 := by
  rw [SameBlock.readReg h]
  cases r with
  | id | rawCapReg | unitCapReg => exact absurd hr (by decide)
  | status => exact (by decide : State.reset.statusWord = 0#32)
  | irqStatus => exact (by decide : State.reset.irqStatusWord = 0#32)
  | irqEnable => exact (by decide : State.reset.irqEnableWord = 0#32)
  | _ => rfl

theorem AfterReset.irq {t : State} (h : AfterReset t) : t.irq = false := by
  rw [t.irq_eq_register_bits, h.readReg (r := .irqStatus) (by decide), h.readReg (r := .irqEnable) (by decide)]
  rfl

theorem AfterReset.fwd {t : State} (h : AfterReset t) : t.fwd = stdTable := SameBlock.fwd h

theorem AfterReset.alphabetOk {t : State} (h : AfterReset t) : AlphabetOk t.fwd t.rev := by
  rw [SameBlock.fwd h, SameBlock.rev h]
  exact alphabetOk_stdTable

/-- No completion step is pending after a reset (R242). -/
theorem AfterReset.engineTurn {t : State} (h : AfterReset t) : t.engineTurn = false :=
  t.engineTurn_eq_false_iff.mpr (.inl (SameBlock.busy h))

/-- After a reset no byte of the arrays is a written one (R241). -/
theorem AfterReset.byteAt {t : State} (h : AfterReset t) (a : Nat) : t.byteAt a = Config.ramByte t.resets a := by
  have hmem : t.mem = [] := SameBlock.mem h
  simp [State.byteAt, hmem]

/-- The window onto the ROM reads the same in every state (R48, R243). -/
theorem State.windowWord_std (s t : State) (o : Nat) : t.windowWord .std o = s.windowWord .std o := rfl

/-! ### The obligations -/

/-- Settles O56: each reset source leaves the block of `AfterReset`. -/
theorem resetState : Obligations.ResetState := by
  intro t ht
  have hafter : AfterReset t := by
    rcases ht with rfl | ⟨s, hs⟩
    · exact afterReset_reset
    · exact (SameBlock.of_resetSource hs).afterReset
  have hzero : ∀ r ∈ [Reg.ctrl, .status, .errCode, .errInfo, .irqStatus, .irqEnable, .rawLen, .unitLen, .textLen, .alphaLen],
      r ∉ [Reg.id, .rawCapReg, .unitCapReg] := by decide
  exact ⟨fun r hr => hafter.readReg (hzero r hr), rfl, hafter.irq, hafter.fwd, hafter.alphabetOk, rfl, rfl,
    State.windowWord_std State.reset t, hafter.engineTurn, fun s hs => (SameBlock.of_resetSource hs).rawCap⟩

/-- Settles O57: either source leaves the block of `AfterReset`, in which no command is pending. -/
theorem resetDiscardsPendingCommand : Obligations.ResetDiscardsPendingCommand := by
  intro s t _ ht
  have hblock : SameBlock s.resetBlock t := by
    rcases ht with rfl | rfl
    · exact s.perform_resetPin_sameBlock
    · exact s.perform_softReset_sameBlock
  have hafter := hblock.afterReset
  exact ⟨hblock.busy, hblock.irqDone, hafter.engineTurn, hblock.rawLen, hblock.unitLen, hblock.textLen, hafter.byteAt⟩

end Sys2Proof.Machine
